-- ==== Sys2Proof/Word.lean ====
section
/-! DEFINITION. The word types of LZW-CORE (00_scope R8, R11): every value is an unsigned bit vector of the width the
spec gives it. -/

namespace Sys2Proof

/-- A 32-bit register value or command word (10_state R21, 30_encoding R68). -/
abbrev Word := BitVec 32

/-- A byte of IBUF, OBUF or of a sequence: the source's `u8` (00_scope R8). -/
abbrev Byte := BitVec 8

/-- A code or prefix code: the source's `u16` (00_scope R8). -/
abbrev Code := BitVec 16

/-- A hash slot index (40_dictionary R81); its arithmetic wraps mod 4096. -/
abbrev SlotIdx := BitVec 12

end Sys2Proof
end

