-- ==== Sys2Proof/Syntax.lean ====
section
/-! DEFINITION. The twelve commands of LZW-CORE (30_encoding R71), one constructor per row of spec/opcode_table.json. -/

namespace Sys2Proof

/-- A command. PREFIX, EXT, CODE and W are the operand fields of 30_encoding R70, each an unsigned number of its own
width. -/
inductive Instr where
  /-- NOP (46_control R153). -/
  | nop
  /-- COMPRESS (44_encoder R122). -/
  | compress
  /-- DECOMPRESS (45_decoder R134). -/
  | decompress
  /-- DICT_RESET (40_dictionary R92). -/
  | dictReset
  /-- DICT_FIND prefix, ext (40_dictionary R93). -/
  | dictFind (pfx : Code) (ext : Byte)
  /-- DICT_ADD prefix, ext (40_dictionary R94). -/
  | dictAdd (pfx : Code) (ext : Byte)
  /-- BW_CLEAR (42_bitwriter R112). -/
  | bwClear
  /-- BW_WRITE code, width (42_bitwriter R113). -/
  | bwWrite (code : Code) (width : BitVec 5)
  /-- BW_FINISH (42_bitwriter R114). -/
  | bwFinish
  /-- BR_INIT (43_bitreader R120). -/
  | brInit
  /-- BR_READ width (43_bitreader R121). -/
  | brRead (width : BitVec 5)
  /-- SOFT_RESET (46_control R154). -/
  | softReset
  deriving DecidableEq, Repr

end Sys2Proof
end

