-- ==== Sys2Proof/WellFormed.lean ====
section
/-! DEFINITION. Which commands have an encoding: the W field of BW_WRITE and BR_READ is 0..16 (30_encoding R70, R73). -/

namespace Sys2Proof

/-- The operand conditions of 30_encoding R71: `W ≤ 16` for BW_WRITE and BR_READ, none for the others. -/
def Instr.wellFormed : Instr → Bool
  | .nop => true
  | .compress => true
  | .decompress => true
  | .dictReset => true
  | .dictFind _ _ => true
  | .dictAdd _ _ => true
  | .bwClear => true
  | .bwWrite _ width => decide (width.toNat ≤ 16)
  | .bwFinish => true
  | .brInit => true
  | .brRead width => decide (width.toNat ≤ 16)
  | .softReset => true

end Sys2Proof
end

