-- ==== Sys2Proof/Decode.lean ====
section
/-! DEFINITION. The command decoder (30_encoding R72), total on every 32-bit word and rejecting by name; then the
encoder (R69, R71), and the opcode table's match and mask of each row. -/

namespace Sys2Proof

/-- Why a word is illegal (30_encoding R73). Every reason has the one effect of 46_control R155. -/
inductive DecodeError where
  /-- OP is 0xB, 0xC, 0xD or 0xE. -/
  | reservedOpcode
  /-- A reserved bit of the word's format is 1. -/
  | reservedBits
  /-- The W field is 17..31. -/
  | widthRange
  deriving DecidableEq, Repr

/-- OP = v[31:28] (30_encoding R68). -/
def opOf (v : Word) : BitVec 4 := v.extractLsb' 28 4

/-- PREFIX = v[23:8] (30_encoding R70). -/
def prefixOf (v : Word) : Code := v.extractLsb' 8 16

/-- EXT = v[7:0] (30_encoding R70). -/
def extOf (v : Word) : Byte := v.extractLsb' 0 8

/-- W = v[20:16] (30_encoding R70). -/
def widthOf (v : Word) : BitVec 5 := v.extractLsb' 16 5

/-- CODE = v[15:0] (30_encoding R70). -/
def codeOf (v : Word) : Code := v.extractLsb' 0 16

/-- Format N: bits 27:0 are reserved (30_encoding R69). -/
def decodeN (v : Word) (i : Instr) : Except DecodeError Instr :=
  if v.extractLsb' 0 28 = 0#28 then .ok i else .error .reservedBits

/-- Format K: bits 27:24 are reserved (30_encoding R69). -/
def decodeK (v : Word) (i : Code → Byte → Instr) : Except DecodeError Instr :=
  if v.extractLsb' 24 4 = 0#4 then .ok (i (prefixOf v) (extOf v)) else .error .reservedBits

/-- Format W: bits 27:21 are reserved, and W ≤ 16 (30_encoding R69, R71). -/
def decodeW (v : Word) : Except DecodeError Instr :=
  if v.extractLsb' 21 7 = 0#7 then
    if (widthOf v).toNat ≤ 16 then .ok (.bwWrite (codeOf v) (widthOf v)) else .error .widthRange
  else .error .reservedBits

/-- Format R: bits 27:21 and 15:0 are reserved, and W ≤ 16 (30_encoding R69, R71). -/
def decodeR (v : Word) : Except DecodeError Instr :=
  if v.extractLsb' 21 7 = 0#7 ∧ v.extractLsb' 0 16 = 0#16 then
    if (widthOf v).toNat ≤ 16 then .ok (.brRead (widthOf v)) else .error .widthRange
  else .error .reservedBits

/-- The decode function of 30_encoding R72. -/
def decode (v : Word) : Except DecodeError Instr :=
  match (opOf v).toNat with
  | 0x0 => decodeN v .nop
  | 0x1 => decodeN v .compress
  | 0x2 => decodeN v .decompress
  | 0x3 => decodeN v .dictReset
  | 0x4 => decodeK v .dictFind
  | 0x5 => decodeK v .dictAdd
  | 0x6 => decodeN v .bwClear
  | 0x7 => decodeW v
  | 0x8 => decodeN v .bwFinish
  | 0x9 => decodeN v .brInit
  | 0xA => decodeR v
  | 0xF => decodeN v .softReset
  | _ => .error .reservedOpcode

/-- The word of format N with the opcode `op` (30_encoding R69). -/
def encodeN (op : BitVec 4) : Word := op ++ 0#28

/-- The word of format K (30_encoding R69). -/
def encodeK (op : BitVec 4) (p : Code) (e : Byte) : Word := op ++ 0#4 ++ p ++ e

/-- The word of a command (30_encoding R69, R71). -/
def encode : Instr → Word
  | .nop => encodeN 0x0#4
  | .compress => encodeN 0x1#4
  | .decompress => encodeN 0x2#4
  | .dictReset => encodeN 0x3#4
  | .dictFind p e => encodeK 0x4#4 p e
  | .dictAdd p e => encodeK 0x5#4 p e
  | .bwClear => encodeN 0x6#4
  | .bwWrite c w => 0x7#4 ++ 0#7 ++ w ++ c
  | .bwFinish => encodeN 0x8#4
  | .brInit => encodeN 0x9#4
  | .brRead w => 0xA#4 ++ 0#7 ++ w ++ 0#16
  | .softReset => encodeN 0xF#4

/-- The `match` column of 30_encoding R71. -/
def tableMatch : Instr → Word
  | .nop => 0x00000000#32
  | .compress => 0x10000000#32
  | .decompress => 0x20000000#32
  | .dictReset => 0x30000000#32
  | .dictFind _ _ => 0x40000000#32
  | .dictAdd _ _ => 0x50000000#32
  | .bwClear => 0x60000000#32
  | .bwWrite _ _ => 0x70000000#32
  | .bwFinish => 0x80000000#32
  | .brInit => 0x90000000#32
  | .brRead _ => 0xA0000000#32
  | .softReset => 0xF0000000#32

/-- The `mask` column of 30_encoding R71. -/
def tableMask : Instr → Word
  | .nop => 0xFFFFFFFF#32
  | .compress => 0xFFFFFFFF#32
  | .decompress => 0xFFFFFFFF#32
  | .dictReset => 0xFFFFFFFF#32
  | .dictFind _ _ => 0xFF000000#32
  | .dictAdd _ _ => 0xFF000000#32
  | .bwClear => 0xFFFFFFFF#32
  | .bwWrite _ _ => 0xFFE00000#32
  | .bwFinish => 0xFFFFFFFF#32
  | .brInit => 0xFFFFFFFF#32
  | .brRead _ => 0xFFE0FFFF#32
  | .softReset => 0xFFFFFFFF#32

/-- The word whose low `nbits` bits are those of `w` and whose other bits are 0: a command is one 32-bit word
(30_encoding R68), numbered as spec/opcode_table.json numbers it. -/
def tableWord (nbits w : Nat) : Word := BitVec.ofNat 32 (w % 2 ^ nbits)

/-- What the decoder reads from a word of the opcode table. -/
def decodeTableWord (nbits w : Nat) : Option Instr := (decode (tableWord nbits w)).toOption

end Sys2Proof
end

