-- ==== Sys2Proof/Config.lean ====
section
/-! DEFINITION. The parameters of LZW-CORE: the constants that 00_scope R8 and R9 fix, and the platform parameters that
R10 leaves open, which the model takes as arguments (`Params`), and the free values of DICT_RESETS (log 17). -/

namespace Sys2Proof

namespace Config

/-- ROOTS: the codes 0..255, one per byte value (00_scope R8). -/
def roots : Nat := 256

/-- INIT_WIDTH (00_scope R8). -/
def initWidth : Nat := 8

/-- MAX_WIDTH (00_scope R8). -/
def maxWidth : Nat := 12

/-- CAPACITY, the largest number of live codes (00_scope R8). -/
def capacity : Nat := 4096

/-- HASH_SLOTS (00_scope R9). -/
def hashSlots : Nat := 4096

/-- SEQ_MAX_LEN, the longest sequence of the decoder in bytes (00_scope R9). -/
def seqMaxLen : Nat := 4096

/-- INVALID, the prefix of the roots (00_scope R9). -/
def invalid : Code := 0xFFFF#16

/-- NOT_FOUND, the answer of a failed find (00_scope R9). -/
def notFound : Code := 0xFFFF#16

/-- The size of the host window in bytes (20_memory R51). -/
def windowSize : Nat := 2 ^ 26

/-- The bound that 10_state R49 sets on the cursors and counters. -/
def counterBound : Nat := 2 ^ 27

/-- The free values of DICT_RESETS (log 17), one for each time one is taken: any value within the bound of 10_state R49. -/
opaque freeResets : Nat → Fin (2 ^ 27 + 1)

end Config

/-- The platform parameters of 00_scope R10. They are arguments of the model: a state carries them and no step changes
them (log 2). BUS_ERR_POLICY has no field: an access it decides is refused (20_memory R55, log 7). -/
structure Params where
  /-- BASE, the address of the window. -/
  base : Nat
  /-- IBUF_CAP, the number of bytes of IBUF. -/
  ibufCap : Nat
  /-- OBUF_CAP, the number of bytes of OBUF. -/
  obufCap : Nat
  deriving DecidableEq, Repr

/-- The ranges of 00_scope R10. -/
abbrev Params.Legal (p : Params) : Prop :=
  p.base % 2 ^ 26 = 0 ∧ 1 ≤ p.ibufCap ∧ p.ibufCap ≤ 2 ^ 24 ∧ 1 ≤ p.obufCap ∧ p.obufCap ≤ 2 ^ 24

/-- DESIGN CHOICE (log 2, unsafe): the parameters of `State.reset`. The spec leaves them open; statements are about
every state, so about every value of them. -/
def Config.resetParams : Params := { base := 0, ibufCap := 2 ^ 24, obufCap := 2 ^ 24 }

end Sys2Proof
end

