-- ==== Sys2Proof/Machine/State.lean ====
section
/-! DEFINITION. The state of one LZW-CORE instance (10_state), the reasons a step stops, and the state after hardware
reset (70_reset R175). -/

namespace Sys2Proof.Machine

/-- The engine states of 10_state R20. The values 5..15 of the FSM register are never taken (93 U15). -/
inductive Fsm where
  | idle
  | encMatch
  | encFlush
  | decFirst
  | decLoop
  deriving DecidableEq, Repr

/-- The error codes of 60_exceptions R160. The values 7..15 of ERRCODE are never written (93 U15). -/
inductive ErrCode where
  | none
  | outputOverflow
  | malformed
  | truncated
  | illegalCmd
  | configRange
  | seqOverflow
  deriving DecidableEq, Repr

/-- The fields of STATUS (10_state R23). -/
structure Status where
  busy : Bool
  done : Bool
  err : Bool
  empty : Bool
  errCode : ErrCode
  deriving DecidableEq, Repr

/-- STATUS after hardware reset (10_state R23). -/
def Status.reset : Status := { busy := false, done := false, err := false, empty := false, errCode := .none }

/-- A byte sequence of the decoder. It holds at least one byte, as every sequence of 10_state R43 and R45 does (log 4). -/
structure ByteSeq where
  head : Byte
  tail : List Byte
  deriving DecidableEq, Repr

/-- A hash slot (10_state R44); `pfx` is the slot's `prefix` field. -/
structure Slot where
  occ : Bool
  pfx : Code
  ext : Byte
  code : Code
  deriving DecidableEq, Repr

/-- What a slot that no entry of `State.ht` lists reads as: not occupied (70_reset R175); its other fields are a
DESIGN CHOICE (log 4). -/
def Slot.blank : Slot := { occ := false, pfx := 0#16, ext := 0#8, code := 0#16 }

/-- What an entry of ST, or PREV, reads as before it is written. DESIGN CHOICE (log 4). -/
def ByteSeq.blank : ByteSeq := { head := 0#8, tail := [] }

/-- What a byte of IBUF or OBUF that nothing has written reads as. DESIGN CHOICE (log 3). -/
def Memory.blank : Byte := 0#8

/-- A byte buffer: index and byte, in the canonical form of `Memory.wf`. -/
abbrev Memory := List Host.Cell

/-- One access of the host (20_memory R53, R54). Addresses are those of the host's address space. -/
inductive HostAccess where
  /-- An 8-bit load. -/
  | readByte (addr : Nat)
  /-- An 8-bit store. -/
  | writeByte (addr : Nat) (v : Byte)
  /-- A 32-bit load. -/
  | readWord (addr : Nat)
  /-- A 32-bit store. -/
  | writeWord (addr : Nat) (v : Word)
  /-- A load of any other width. -/
  | readOther (bits addr : Nat)
  /-- A store of any other width. -/
  | writeOther (bits addr : Nat) (v : Nat)
  deriving DecidableEq, Repr

/-- The contents a hardware reset leaves unspecified (70_reset R175): any value, drawn when the reset happens (93 U5 to
U8). -/
structure Draw where
  ibuf : List (Nat × Byte)
  obuf : List (Nat × Byte)
  ht : List (Nat × Slot)
  st : List (Nat × ByteSeq)
  prev : ByteSeq
  deriving DecidableEq, Repr

/-- What happens next in the one total order of host accesses and engine steps (20_memory R63); see log 1. -/
inductive Input where
  /-- The host makes an access. -/
  | access (a : HostAccess)
  /-- The engine takes its turn; it has a step only while BUSY = 1 (10_state R18). -/
  | engine
  /-- The reset input is asserted (70_reset R175). -/
  | reset (d : Draw)
  deriving DecidableEq, Repr

/-- The state of one LZW-CORE instance (10_state), with the platform parameters it was built with, and three fields of the
model's own: `inputs`, `readData` and `freeCount`. -/
structure State where
  /-- BASE, IBUF_CAP and OBUF_CAP (00_scope R10); no step changes them. -/
  params : Params
  /-- STATUS (10_state R23). -/
  status : Status
  /-- IN_LEN (10_state R24). -/
  inLen : Word
  /-- IN_BITS (10_state R25). -/
  inBits : Word
  /-- OUT_CAP (10_state R26). -/
  outCap : Word
  /-- OUT_LEN (10_state R27). -/
  outLen : Word
  /-- OUT_BITS (10_state R28). -/
  outBits : Word
  /-- RESULT (10_state R29). -/
  result : Word
  /-- DICT_SIZE, 13 bits (10_state R30). -/
  dictSize : BitVec 13
  /-- CODE_WIDTH, 4 bits (10_state R31). -/
  codeWidth : BitVec 4
  /-- WCUR (10_state R33). -/
  wcur : Word
  /-- RCUR (10_state R34). -/
  rcur : Word
  /-- DICT_RESETS (10_state R35). -/
  dictResets : Word
  /-- CODES (10_state R36). -/
  codes : Word
  /-- LAST_PROBES, 13 bits (10_state R37). -/
  lastProbes : BitVec 13
  /-- FSM (10_state R20, R38). -/
  fsm : Fsm
  /-- IPOS (10_state R39). -/
  ipos : Word
  /-- PREFIX, 16 bits (10_state R41). -/
  pfx : Code
  /-- PREV (10_state R43). -/
  prev : ByteSeq
  /-- HT (10_state R44): slot index and slot, strictly rising indices, no entry equal to `Slot.blank`. -/
  ht : List (Nat × Slot)
  /-- ST (10_state R45): code and sequence, strictly rising codes, no entry equal to `ByteSeq.blank`. -/
  st : List (Nat × ByteSeq)
  /-- IBUF (10_state R46). -/
  ibuf : Memory
  /-- OBUF (10_state R46). -/
  obuf : Memory
  /-- The model's own field: what happens next, first entry first (log 1). -/
  inputs : List Input
  /-- The model's own field, on the host's side: what the last host read returned (log 6). -/
  readData : Word
  /-- The model's own field: how many free values were taken (`Config.freeResets`, log 17). -/
  freeCount : Nat
  deriving DecidableEq, Repr

/-- Why the machine stops. The block itself never stops: an error of the spec is a next state (60_exceptions R162). Each
of these stands only for states that no run reaches, and is safe. -/
inductive Fault where
  /-- Raised by dictFind and dictAdd when the probe loop visits all 4096 slots and none ends it: the loop of
  40_dictionary R86 or R88 then never ends. Excluded by R87 and R89; safe (log 12). -/
  | probeLoop
  /-- Raised by an engine read of IBUF at an index that is not below IBUF_CAP: there is no such byte (10_state R46).
  Excluded by 43_bitreader R117 and 44_encoder R122; safe (log 11). -/
  | ibufBound
  /-- Raised by an engine access to OBUF at an index that is not below OBUF_CAP: there is no such byte (10_state R46).
  Excluded by 42_bitwriter R109 and R110; safe (log 11). -/
  | obufBound
  /-- Raised by the engine when BUSY = 1 and FSM = IDLE: 46_control R150 gives no step rule. Excluded by R148 and R149;
  safe (log 13). -/
  | noEngineRule
  deriving DecidableEq, Repr

/-- Why the model has no transition. -/
inductive Refusal where
  /-- An instruction whose meaning is not written yet. No arm of `exec` answers this; safe. -/
  | notModelled (mnemonic : String)
  /-- Raised by a host access the window does not take: its outcome is the platform's BUS_ERR_POLICY, and "A model
  refuses it" (20_memory R55); safe (log 7). -/
  | unsupportedAccess
  /-- Raised by a host access whose address is outside this instance's window (20_memory R51): it is an access to
  something else; safe (log 8). -/
  | outsideWindow
  deriving DecidableEq, Repr

/-- The state after hardware reset (70_reset R175, 10_state R21). The parameters (log 2), the unspecified contents
(logs 3 and 4) and the three fields of the model's own (logs 1, 6 and 17) are DESIGN CHOICES. -/
def State.reset : State where
  params := Config.resetParams
  status := Status.reset
  inLen := 0#32
  inBits := 0#32
  outCap := 0#32
  outLen := 0#32
  outBits := 0#32
  result := 0#32
  dictSize := 256#13
  codeWidth := 8#4
  wcur := 0#32
  rcur := 0#32
  dictResets := 0#32
  codes := 0#32
  lastProbes := 0#13
  fsm := .idle
  ipos := 0#32
  pfx := 0#16
  prev := ByteSeq.blank
  ht := []
  st := []
  ibuf := []
  obuf := []
  inputs := []
  readData := 0#32
  freeCount := 0

end Sys2Proof.Machine
end

