-- ==== Sys2Proof/Machine/Flags.lean ====
section
/-! DEFINITION. STATUS and its fields (10_state R23, R47), the numbers of the error codes (60_exceptions R160) and of the
engine states (10_state R20). -/

namespace Sys2Proof.Machine

/-- The number of an error code (60_exceptions R160). -/
def ErrCode.toBits : ErrCode → BitVec 4
  | .none => 0#4
  | .outputOverflow => 1#4
  | .malformed => 2#4
  | .truncated => 3#4
  | .illegalCmd => 4#4
  | .configRange => 5#4
  | .seqOverflow => 6#4

/-- The number of an engine state (10_state R20). -/
def Fsm.toBits : Fsm → BitVec 4
  | .idle => 0#4
  | .encMatch => 1#4
  | .encFlush => 2#4
  | .decFirst => 3#4
  | .decLoop => 4#4

/-- STATUS as the host reads it: ERRCODE in bits 7:4, EMPTY, ERR, DONE and BUSY in bits 3 to 0, the rest 0
(10_state R23). -/
def Status.toWord (t : Status) : Word :=
  0#24 ++ t.errCode.toBits ++ BitVec.ofBool t.empty ++ BitVec.ofBool t.err ++ BitVec.ofBool t.done
    ++ BitVec.ofBool t.busy

/-- The first line of an accepted command: DONE, ERR, ERRCODE and EMPTY become 0 (46_control R148). -/
def clearFlags (s : State) : State :=
  { s with status := { busy := s.status.busy, done := false, err := false, empty := false, errCode := .none } }

/-- DONE becomes 1 (46_control R148). -/
def setDone (s : State) : State :=
  { s with
    status :=
      { busy := s.status.busy, done := true, err := s.status.err, empty := s.status.empty, errCode := s.status.errCode } }

/-- EMPTY becomes 1 (44_encoder R122, 45_decoder R134). -/
def setEmpty (s : State) : State :=
  { s with
    status :=
      { busy := s.status.busy, done := s.status.done, err := s.status.err, empty := true, errCode := s.status.errCode } }

/-- BUSY becomes 1 and the engine starts in `f` (44_encoder R122, 45_decoder R134). -/
def startEngine (f : Fsm) (s : State) : State :=
  { s with
    status :=
      { busy := true, done := s.status.done, err := s.status.err, empty := s.status.empty, errCode := s.status.errCode }
    fsm := f }

/-- `complete()`: a pass ends without error (46_control R149). -/
def complete (s : State) : State :=
  { s with
    status :=
      { busy := false, done := true, err := s.status.err, empty := s.status.empty, errCode := s.status.errCode }
    fsm := .idle }

/-- `errorStop(E)`: the whole response of the block to an error; every other piece of state keeps its value
(60_exceptions R162, R166). -/
def errorStop (e : ErrCode) (s : State) : State :=
  { s with status := { busy := false, done := false, err := true, empty := false, errCode := e }, fsm := .idle }

end Sys2Proof.Machine
end

