-- ==== Sys2Proof/Machine/Ops.lean ====
section
/-! DEFINITION. The shared operations: tables held as sparse lists, single-byte access to the buffers and its bit order
(20_memory R56, R60), how a rule runs (00_scope R14), and how a command or an engine step ends (46_control R148, R150;
60_exceptions R162). -/

namespace Sys2Proof.Machine

/-- `ceil8(n)`, the number of bytes that hold n bits (00_scope R11). -/
def ceil8 (n : Nat) : Nat := (n + 7) / 8

/-! ### Tables as sparse lists -/

/-- The entry of a table at index `a`; an index that is not listed reads as `d`. -/
def Sparse.read {α : Type} (d : α) : List (Nat × α) → Nat → α
  | [], _ => d
  | (k, x) :: m, a => if k = a then x else Sparse.read d m a

/-- Store `v` at index `a`, keeping the indices rising and listing no entry equal to `d`. -/
def Sparse.write {α : Type} [DecidableEq α] (d : α) : List (Nat × α) → Nat → α → List (Nat × α)
  | [], a, v => if v = d then [] else [(a, v)]
  | (k, x) :: m, a, v =>
    if a < k then (if v = d then (k, x) :: m else (a, v) :: (k, x) :: m)
    else if a = k then (if v = d then m else (a, v) :: m)
    else (k, x) :: Sparse.write d m a v

/-- The canonical form: indices strictly rising, and no entry equal to what an unlisted index reads as. -/
abbrev Sparse.Wf {α : Type} (d : α) (m : List (Nat × α)) : Prop :=
  m.Pairwise (fun x y => x.1 < y.1) ∧ ∀ c ∈ m, c.2 ≠ d

/-- The table that holds the entries of `l` whose index lies in `[lo, hi)`, a later entry of an index over an earlier
one. -/
def Sparse.load {α : Type} [DecidableEq α] (d : α) (lo hi : Nat) (l : List (Nat × α)) : List (Nat × α) :=
  l.foldl (fun m c => if lo ≤ c.1 ∧ c.1 < hi then Sparse.write d m c.1 c.2 else m) []

/-- The byte of a buffer at index `a`. -/
def Memory.read (m : Memory) (a : Nat) : Byte := Sparse.read Memory.blank m a

/-- Store the byte `v` at index `a`. -/
def Memory.write (m : Memory) (a : Nat) (v : Byte) : Memory := Sparse.write Memory.blank m a v

/-- The canonical form of a byte buffer. -/
abbrev Memory.wf (m : Memory) : Prop := Sparse.Wf Memory.blank m

/-- `HT[i]` (10_state R44). -/
def slotAt (ht : List (Nat × Slot)) (i : SlotIdx) : Slot := Sparse.read Slot.blank ht i.toNat

/-- `HT[i] <- x` (10_state R44). -/
def setSlot (ht : List (Nat × Slot)) (i : SlotIdx) (x : Slot) : List (Nat × Slot) := Sparse.write Slot.blank ht i.toNat x

/-- The slot with `occ` cleared and the other fields as they are. -/
def Slot.vacated (x : Slot) : Slot := { x with occ := false }

/-- Clear `occ` of every slot and leave the other fields (40_dictionary R85); an entry that becomes `Slot.blank` is
listed no more. -/
def clearOcc (ht : List (Nat × Slot)) : List (Nat × Slot) :=
  (ht.map fun c => (c.1, c.2.vacated)).filter fun c => decide (c.2 ≠ Slot.blank)

/-- `ST[c]` (10_state R45). -/
def seqAt (st : List (Nat × ByteSeq)) (c : Nat) : ByteSeq := Sparse.read ByteSeq.blank st c

/-- `ST[c] <- x` (45_decoder R138). -/
def setSeq (st : List (Nat × ByteSeq)) (c : Nat) (x : ByteSeq) : List (Nat × ByteSeq) := Sparse.write ByteSeq.blank st c x

/-! ### Byte sequences (00_scope R13) -/

/-- `len(s)`. -/
def ByteSeq.length (q : ByteSeq) : Nat := q.tail.length + 1

/-- `s ++ [b]`. -/
def ByteSeq.snoc (q : ByteSeq) (b : Byte) : ByteSeq := { q with tail := q.tail ++ [b] }

/-- The bytes of a sequence in order. -/
def ByteSeq.toList (q : ByteSeq) : List Byte := q.head :: q.tail

/-! ### How a rule runs -/

/-- How a rule of the spec ends: it ran to its end with a value, it raised an error with the effects of the statements
before the `raise` in force (00_scope R14), or the model has no next state. -/
inductive Flow (α : Type) where
  | done (a : α) (s : State)
  | raised (e : ErrCode) (s : State)
  | stuck (f : Fault)
  deriving DecidableEq, Repr

/-- Run `k` after a rule that ran to its end; no statement after a `raise` executes (00_scope R14). -/
def Flow.bind {α β : Type} (x : Flow α) (k : α → State → Flow β) : Flow β :=
  match x with
  | .done a s => k a s
  | .raised e s => .raised e s
  | .stuck f => .stuck f

/-- Issue of a decoded command whose rule is `rule` (46_control R148): ignored while BUSY = 1; otherwise the flags are
cleared, the rule runs, and the command is done if the rule raised nothing and did not set BUSY. -/
def runCommand (rule : State → Flow Unit) (s : State) : Host.Outcome State Fault Refusal :=
  if s.status.busy then .next s
  else
    match rule (clearFlags s) with
    | .done _ t => .next (if t.status.busy then t else setDone t)
    | .raised e t => .next (errorStop e t)
    | .stuck f => .fault f

/-- One engine step whose rule is `rule` (46_control R150, 60_exceptions R162). -/
def runStep (rule : State → Flow Unit) (s : State) : Host.Outcome State Fault Refusal :=
  match rule s with
  | .done _ t => .next t
  | .raised e t => .next (errorStop e t)
  | .stuck f => .fault f

/-- An illegal word written to CMD (46_control R155, R152). -/
def illegalCommand (s : State) : Host.Outcome State Fault Refusal :=
  runCommand (fun t => .raised .illegalCmd t) s

/-! ### Engine access to the buffers (20_memory R60) -/

/-- `IBUF[a]`. There is no byte at or past IBUF_CAP (log 11). -/
def ibufRead (a : Nat) (s : State) : Flow Byte :=
  if a < s.params.ibufCap then .done (s.ibuf.read a) s else .stuck .ibufBound

/-- `OBUF[a]`. There is no byte at or past OBUF_CAP (log 11). -/
def obufRead (a : Nat) (s : State) : Flow Byte :=
  if a < s.params.obufCap then .done (s.obuf.read a) s else .stuck .obufBound

/-- `OBUF[a] <- v`. There is no byte at or past OBUF_CAP (log 11). -/
def obufWrite (a : Nat) (v : Byte) (s : State) : Flow Unit :=
  if a < s.params.obufCap then .done () { s with obuf := s.obuf.write a v } else .stuck .obufBound

/-- The bit of byte `b` that holds stream position `p`: bit `7 - (p mod 8)` (20_memory R56). -/
def streamBit (b : Byte) (p : Nat) : Bool := b.getLsbD (7 - p % 8)

/-- Byte `b` with the bit of stream position `p` set to `v` (20_memory R56). -/
def setStreamBit (b : Byte) (p : Nat) (v : Bool) : Byte :=
  if v then b ||| (1#8 <<< (7 - p % 8)) else b &&& ~~~(1#8 <<< (7 - p % 8))

/-! ### Reset -/

/-- SOFT_RESET's effect: every register at its reset value and every `occ` cleared; the buffers, the other slot fields,
ST and PREV are kept (46_control R154, 70_reset R177). -/
def softResetState (s : State) : State :=
  { State.reset with
    params := s.params
    prev := s.prev
    ht := clearOcc s.ht
    st := s.st
    ibuf := s.ibuf
    obuf := s.obuf
    inputs := s.inputs
    readData := s.readData
    freeCount := s.freeCount }

/-- Hardware reset (70_reset R175): every register at its reset value and every `occ` 0; what the spec leaves unspecified
takes the contents drawn in `d`, cut to the indices that exist (93 U5 to U8, log 5). -/
def hardReset (d : Draw) (s : State) : State :=
  { State.reset with
    params := s.params
    prev := d.prev
    ht := clearOcc (Sparse.load Slot.blank 0 Config.hashSlots d.ht)
    st := Sparse.load ByteSeq.blank Config.roots Config.capacity d.st
    ibuf := Sparse.load Memory.blank 0 s.params.ibufCap d.ibuf
    obuf := Sparse.load Memory.blank 0 s.params.obufCap d.obuf
    inputs := s.inputs
    readData := s.readData
    freeCount := s.freeCount }

end Sys2Proof.Machine
end

