-- ==== Sys2Proof/Machine/Control.lean ====
section
/-! DEFINITION. The control commands NOP and SOFT_RESET (46_control). -/

namespace Sys2Proof.Machine

/-- NOP (46_control R153). -/
def execNop (s : State) : Host.Outcome State Fault Refusal := runCommand (fun t => .done () t) s

/-- SOFT_RESET (46_control R154, 70_reset R177). -/
def execSoftReset (s : State) : Host.Outcome State Fault Refusal :=
  runCommand (fun t => .done () (softResetState t)) s

end Sys2Proof.Machine
end

