-- ==== Sys2Proof/Machine/BitReader.lean ====
section
/-! DEFINITION. The BitReader (43_bitreader) and the commands BR_INIT and BR_READ. -/

namespace Sys2Proof.Machine

/-- brRead's loop (43_bitreader R116): `n` bits, the most significant first, shifted into `v`. -/
def brGetBits : (n : Nat) → (v : Code) → State → Flow Code
  | 0, v, s => .done v s
  | n + 1, v, s =>
    (ibufRead (s.rcur.toNat / 8) s).bind fun b t =>
      brGetBits n ((v <<< 1) ||| (BitVec.ofBool (streamBit b t.rcur.toNat)).setWidth 16)
        { t with rcur := t.rcur + 1#32 }

/-- `brRead(w)` (43_bitreader R116): TRUNCATED is raised before RCUR moves; bits that lie behind RCUR count as none. -/
def brRead (w : Nat) (s : State) : Flow Code :=
  if s.inBits.toNat - s.rcur.toNat < w then .raised .truncated s else brGetBits w 0#16 s

/-- `RCUR <- a` (43_bitreader R120, 45_decoder R134). -/
def setRcur (a : Word) (s : State) : State := { s with rcur := a }

/-- BR_INIT (43_bitreader R120). -/
def execBrInit (s : State) : Host.Outcome State Fault Refusal :=
  runCommand (fun t => .done () (setRcur 0#32 t)) s

/-- BR_READ width (43_bitreader R121). -/
def execBrRead (width : BitVec 5) (s : State) : Host.Outcome State Fault Refusal :=
  runCommand
    (fun t =>
      if 8 * t.params.ibufCap < t.inBits.toNat then .raised .configRange t
      else (brRead width.toNat t).bind fun c u => .done () { u with result := c.setWidth 32 }) s

end Sys2Proof.Machine
end

