-- ==== Sys2Proof/Machine/BitWriter.lean ====
section
/-! DEFINITION. The BitWriter (42_bitwriter) and the commands BW_CLEAR, BW_WRITE and BW_FINISH. -/

namespace Sys2Proof.Machine

/-- One round of bwWrite's loop (42_bitwriter R108): the bit `v` goes to position WCUR. A byte the cursor enters is taken
as 0x00, so its store and the bit's store are one (log 19). -/
def bwPutBit (v : Bool) (s : State) : Flow Unit :=
  (obufRead (s.wcur.toNat / 8) s).bind fun old t =>
    (obufWrite (t.wcur.toNat / 8)
        (setStreamBit (if t.wcur.toNat % 8 = 0 then 0#8 else old) t.wcur.toNat v) t).bind fun _ u =>
      .done () { u with wcur := u.wcur + 1#32 }

/-- bwWrite's loop (42_bitwriter R108): the bits `n - 1` down to 0 of `code`. -/
def bwPutBits (code : Code) : (n : Nat) → State → Flow Unit
  | 0, s => .done () s
  | n + 1, s => (bwPutBit (code.getLsbD n) s).bind fun _ t => bwPutBits code n t

/-- `bwWrite(code, w)` (42_bitwriter R108): the overflow check covers the whole code before any bit is written. -/
def bwWrite (code : Code) (w : Nat) (s : State) : Flow Unit :=
  if s.outCap.toNat < ceil8 (s.wcur.toNat + w) then .raised .outputOverflow s else bwPutBits code w s

/-- `0xFF << (8 - r)` cut to 8 bits: the mask that keeps the r first bits of a byte (42_bitwriter R110). -/
def padMask (r : Nat) : Byte := 0xFF#8 <<< (8 - r)

/-- `bwFinish()` (42_bitwriter R110): zero the bits of the last byte after WCUR; WCUR stays. -/
def bwFinish (s : State) : Flow Word :=
  if s.wcur.toNat % 8 = 0 then .done (BitVec.ofNat 32 (ceil8 s.wcur.toNat)) s
  else
    (obufRead (s.wcur.toNat / 8) s).bind fun b t =>
      (obufWrite (t.wcur.toNat / 8) (b &&& padMask (t.wcur.toNat % 8)) t).bind fun _ u =>
        .done (BitVec.ofNat 32 (ceil8 u.wcur.toNat)) u

/-- BW_CLEAR (42_bitwriter R112). -/
def execBwClear (s : State) : Host.Outcome State Fault Refusal :=
  runCommand (fun t => .done () { t with wcur := 0#32 }) s

/-- BW_WRITE code, width (42_bitwriter R113). -/
def execBwWrite (code : Code) (width : BitVec 5) (s : State) : Host.Outcome State Fault Refusal :=
  runCommand
    (fun t => if t.params.obufCap < t.outCap.toNat then .raised .configRange t else bwWrite code width.toNat t) s

/-- BW_FINISH (42_bitwriter R114). -/
def execBwFinish (s : State) : Host.Outcome State Fault Refusal :=
  runCommand
    (fun t => (bwFinish t).bind fun n u => .done () { u with outLen := n, outBits := u.wcur, result := n }) s

end Sys2Proof.Machine
end

