-- ==== Sys2Proof/Machine/Dictionary.lean ====
section
/-! DEFINITION. The dictionary hash table (40_dictionary), the code-width scheduler it drives (41_code_width), and the
commands DICT_RESET, DICT_FIND and DICT_ADD. -/

namespace Sys2Proof.Machine

/-! ### Hashing and probing -/

/-- HASH_H1, the first hash (40_dictionary R82). -/
def hashH1 (p : Code) (e : Byte) : SlotIdx :=
  p.extractLsb' 0 12 ^^^ ((e ++ 0#4 : BitVec 12) ^^^ (p.extractLsb' 12 4).setWidth 12)

/-- HASH_H2, the second hash, forced odd (40_dictionary R83). -/
def hashH2 (p : Code) (e : Byte) : SlotIdx :=
  ((e.extractLsb' 0 4 ++ e : BitVec 12) ^^^ (p.extractLsb' 0 6 ++ p.extractLsb' 6 6 : BitVec 12)) ||| 1#12

/-- The slot holds an entry with the key `(p, e)`: the two comparisons of dictFind (40_dictionary R86). -/
def keyMatches (x : Slot) (p : Code) (e : Byte) : Bool := x.pfx == p && x.ext == e

/-- dictFind's loop (40_dictionary R86) from slot `idx`, `i` slots having been examined: the answer and how many slots
were examined. `none`: `fuel` slots examined and the loop has not ended. -/
def probeFind (ht : List (Nat × Slot)) (p : Code) (e : Byte) (b : SlotIdx) :
    (fuel : Nat) → (idx : SlotIdx) → (i : Nat) → Option (Code × Nat)
  | 0, _, _ => none
  | fuel + 1, idx, i =>
    if (slotAt ht idx).occ = false then some (Config.notFound, i + 1)
    else if keyMatches (slotAt ht idx) p e then some ((slotAt ht idx).code, i + 1)
    else probeFind ht p e b fuel (idx + b) (i + 1)

/-- dictAdd's loop (40_dictionary R88): the first unoccupied slot of the probe sequence and how many slots were
examined. -/
def probeFree (ht : List (Nat × Slot)) (b : SlotIdx) :
    (fuel : Nat) → (idx : SlotIdx) → (i : Nat) → Option (SlotIdx × Nat)
  | 0, _, _ => none
  | fuel + 1, idx, i =>
    if (slotAt ht idx).occ = false then some (idx, i + 1) else probeFree ht b fuel (idx + b) (i + 1)

/-! ### The code-width scheduler -/

/-- `cwsOnAdd()` (41_code_width R97). -/
def cwsOnAdd (s : State) : State :=
  if 2 ^ s.codeWidth.toNat ≤ s.dictSize.toNat ∧ s.codeWidth.toNat < Config.maxWidth then
    { s with codeWidth := s.codeWidth + 1#4 }
  else s

/-- `peekWidth(s, w)`, the look-ahead width (41_code_width R99). -/
def peekWidth (size : BitVec 13) (w : BitVec 4) : BitVec 4 :=
  if size.toNat = Config.capacity then BitVec.ofNat 4 (Config.initWidth + 1)
  else if 2 ^ w.toNat ≤ size.toNat ∧ w.toNat < Config.maxWidth then w + 1#4
  else w

/-! ### The operations -/

/-- `dictReset()` (40_dictionary R85). -/
def dictReset (s : State) : State := { s with ht := clearOcc s.ht, dictSize := 256#13, codeWidth := 8#4 }

/-- DICT_RESETS when it holds `n` and one more capacity-triggered reset is counted (10_state R35, 40_dictionary R88). At
the bound of 10_state R49, which the sum would pass, it is free value number `k` within that bound (log 17). -/
def resetsAfter (n : Word) (k : Nat) : Word :=
  if n.toNat < Config.counterBound then n + 1#32 else BitVec.ofNat 32 (Config.freeResets k).val

/-- How many free values are taken once `resetsAfter` has its value, `k` of them before (log 17). -/
def freeCountAfter (n : Word) (k : Nat) : Nat := if n.toNat < Config.counterBound then k else k + 1

/-- DICT_RESETS counts one more capacity-triggered reset (10_state R35). -/
def countReset (s : State) : State :=
  { s with
    dictResets := resetsAfter s.dictResets s.freeCount
    freeCount := freeCountAfter s.dictResets s.freeCount }

/-- The reset of a full dictionary, which is "not an error", and its count (40_dictionary R88, 45_decoder R139). -/
def resetIfFull (s : State) : State :=
  if s.dictSize.toNat = Config.capacity then countReset (dictReset s) else s

/-- `dictFind(p, e)` (40_dictionary R86). The 4096 probes visit every slot (R84), so a search they do not end never ends
(log 12). -/
def dictFind (p : Code) (e : Byte) (s : State) : Flow Code :=
  if p = Config.invalid then .done (e.setWidth 16) { s with lastProbes := 0#13 }
  else
    match probeFind s.ht p e (hashH2 p e) Config.hashSlots (hashH1 p e) 0 with
    | some (c, n) => .done c { s with lastProbes := BitVec.ofNat 13 n }
    | none => .stuck .probeLoop

/-- dictAdd once the capacity reset and the width growth are done: store the key in the first unoccupied slot of its
probe sequence under the code DICT_SIZE (40_dictionary R88). -/
def dictInsert (p : Code) (e : Byte) (s : State) : Flow Code :=
  match probeFree s.ht (hashH2 p e) Config.hashSlots (hashH1 p e) 0 with
  | some (idx, n) =>
    .done (s.dictSize.setWidth 16)
      { s with
        ht := setSlot s.ht idx { occ := true, pfx := p, ext := e, code := s.dictSize.setWidth 16 }
        lastProbes := BitVec.ofNat 13 n
        dictSize := s.dictSize + 1#13 }
  | none => .stuck .probeLoop

/-- `dictAdd(p, e)` (40_dictionary R88). -/
def dictAdd (p : Code) (e : Byte) (s : State) : Flow Code := dictInsert p e (cwsOnAdd (resetIfFull s))

/-! ### The commands -/

/-- DICT_RESET (40_dictionary R92). -/
def execDictReset (s : State) : Host.Outcome State Fault Refusal := runCommand (fun t => .done () (dictReset t)) s

/-- DICT_FIND prefix, ext (40_dictionary R93). -/
def execDictFind (p : Code) (e : Byte) (s : State) : Host.Outcome State Fault Refusal :=
  runCommand (fun t => (dictFind p e t).bind fun c u => .done () { u with result := c.setWidth 32 }) s

/-- DICT_ADD prefix, ext (40_dictionary R94). -/
def execDictAdd (p : Code) (e : Byte) (s : State) : Host.Outcome State Fault Refusal :=
  runCommand (fun t => (dictAdd p e t).bind fun c u => .done () { u with result := c.setWidth 32 }) s

end Sys2Proof.Machine
end

