-- ==== Sys2Proof/Machine/Encoder.lean ====
section
/-! DEFINITION. The encoder state machine (44_encoder): the command COMPRESS and the steps ENC_MATCH and ENC_FLUSH. -/

namespace Sys2Proof.Machine

/-- The result registers and counters of a pass, and WCUR, become 0 (44_encoder R122, 45_decoder R134). -/
def clearCounters (s : State) : State :=
  { s with outLen := 0#32, outBits := 0#32, codes := 0#32, dictResets := 0#32, wcur := 0#32 }

/-- What COMPRESS and DECOMPRESS both do at issue: a fresh dictionary and a fresh output cursor (44_encoder R122,
45_decoder R134). -/
def passStart (s : State) : State := clearCounters (dictReset s)

/-- `IPOS <- a` (44_encoder R122). -/
def setIpos (a : Word) (s : State) : State := { s with ipos := a }

/-- COMPRESS at issue (44_encoder R122). -/
def compressRule (s : State) : Flow Unit :=
  if s.params.ibufCap < s.inLen.toNat ∨ s.params.obufCap < s.outCap.toNat then .raised .configRange s
  else if s.inLen = 0#32 then .done () (setEmpty (setIpos 0#32 (passStart s)))
  else
    (ibufRead 0 (setIpos 0#32 (passStart s))).bind fun b t =>
      .done () (startEngine .encMatch { t with pfx := b.setWidth 16, ipos := 1#32 })

/-- COMPRESS (44_encoder R122). -/
def execCompress (s : State) : Host.Outcome State Fault Refusal := runCommand compressRule s

/-- The branch of ENC_MATCH whose find failed: write PREFIX, add the key, restart the match at `e` (44_encoder R123). -/
def encMiss (e : Byte) (s : State) : Flow Unit :=
  (bwWrite s.pfx s.codeWidth.toNat s).bind fun _ t =>
    (dictAdd t.pfx e { t with codes := t.codes + 1#32 }).bind fun _ u => .done () { u with pfx := e.setWidth 16 }

/-- The ENC_MATCH step (44_encoder R123). -/
def encMatchRule (s : State) : Flow Unit :=
  if s.ipos.toNat < s.inLen.toNat then
    (ibufRead s.ipos.toNat s).bind fun e t =>
      (dictFind t.pfx e t).bind fun r u =>
        (if r ≠ Config.notFound then .done () { u with pfx := r } else encMiss e u).bind fun _ v =>
          .done () { v with ipos := v.ipos + 1#32 }
  else .done () { s with fsm := .encFlush }

/-- The ENC_FLUSH step (44_encoder R124). -/
def encFlushRule (s : State) : Flow Unit :=
  (bwWrite s.pfx s.codeWidth.toNat s).bind fun _ t =>
    (bwFinish { t with codes := t.codes + 1#32 }).bind fun n u =>
      .done () (complete { u with outLen := n, outBits := u.wcur })

end Sys2Proof.Machine
end

