-- ==== Sys2Proof/Machine/Decoder.lean ====
section
/-! DEFINITION. The decoder state machine (45_decoder): the command DECOMPRESS, the steps DEC_FIRST and DEC_LOOP, and the
KwKwK case. -/

namespace Sys2Proof.Machine

/-- DECOMPRESS at issue (45_decoder R134). -/
def decompressRule (s : State) : Flow Unit :=
  if 8 * s.params.ibufCap < s.inBits.toNat ∨ s.params.obufCap < s.outCap.toNat then .raised .configRange s
  else if s.inBits = 0#32 then .done () (setEmpty (setRcur 0#32 (passStart s)))
  else .done () (startEngine .decFirst (setRcur 0#32 (passStart s)))

/-- DECOMPRESS (45_decoder R134). -/
def execDecompress (s : State) : Host.Outcome State Fault Refusal := runCommand decompressRule s

/-- `decLookup(c)` (45_decoder R135), with the KwKwK case of R136. -/
def decLookup (c : Code) (s : State) : Flow ByteSeq :=
  if c.toNat < Config.roots then .done { head := c.extractLsb' 0 8, tail := [] } s
  else if c.toNat < s.dictSize.toNat then .done (seqAt s.st c.toNat) s
  else if c.toNat = s.dictSize.toNat then .done (s.prev.snoc s.prev.head) s
  else .raised .malformed s

/-- decEmit's loop (45_decoder R137): one byte of OBUF for each byte. -/
def decPutBytes : List Byte → State → Flow Unit
  | [], s => .done () s
  | b :: l, s => (obufWrite (s.wcur.toNat / 8) b s).bind fun _ t => decPutBytes l { t with wcur := t.wcur + 8#32 }

/-- `decEmit(cs)` (45_decoder R137): nothing of a sequence that does not fit is written. -/
def decEmit (q : ByteSeq) (s : State) : Flow Unit :=
  if s.outCap.toNat < s.wcur.toNat / 8 + q.length then .raised .outputOverflow s else decPutBytes q.toList s

/-- The entry of decAdd under the code DICT_SIZE, which then counts it (45_decoder R138). -/
def storeSeq (q : ByteSeq) (s : State) : State :=
  { s with st := setSeq s.st s.dictSize.toNat q, dictSize := s.dictSize + 1#13 }

/-- `decAdd(s)` (45_decoder R138). -/
def decAdd (q : ByteSeq) (s : State) : State := storeSeq q (cwsOnAdd s)

/-- `PREV <- cs` (45_decoder R141). -/
def setPrev (q : ByteSeq) (s : State) : State := { s with prev := q }

/-- The DEC_FIRST step (45_decoder R140). -/
def decFirstRule (s : State) : Flow Unit :=
  (brRead Config.initWidth s).bind fun c t =>
    (decEmit { head := c.extractLsb' 0 8, tail := [] } { t with codes := 1#32 }).bind fun _ u =>
      .done () { u with prev := { head := c.extractLsb' 0 8, tail := [] }, fsm := .decLoop }

/-- The part of DEC_LOOP after a code is read and counted (45_decoder R141). -/
def decCode (c : Code) (s : State) : Flow Unit :=
  (decLookup c (resetIfFull s)).bind fun cs t =>
    if Config.seqMaxLen < t.prev.length + 1 then .raised .seqOverflow t
    else (decEmit cs t).bind fun _ u => .done () (setPrev cs (decAdd (u.prev.snoc cs.head) u))

/-- The DEC_LOOP step (45_decoder R141). -/
def decLoopRule (s : State) : Flow Unit :=
  if s.rcur = s.inBits then .done () (complete { s with outLen := BitVec.ofNat 32 (s.wcur.toNat / 8), outBits := s.wcur })
  else
    (brRead (peekWidth s.dictSize s.codeWidth).toNat s).bind fun c t => decCode c { t with codes := t.codes + 1#32 }

end Sys2Proof.Machine
end

