-- ==== Sys2Proof/Machine/Dispatch.lean ====
section
/-! DEFINITION. The meaning of each command: what its write to CMD does (46_control R148). -/

namespace Sys2Proof.Machine

def exec (i : Instr) (s : State) : Host.Outcome State Fault Refusal :=
  match i with
  | .nop => Sys2Proof.Machine.execNop s
  | .compress => Sys2Proof.Machine.execCompress s
  | .decompress => Sys2Proof.Machine.execDecompress s
  | .dictReset => Sys2Proof.Machine.execDictReset s
  | .dictFind p e => Sys2Proof.Machine.execDictFind p e s
  | .dictAdd p e => Sys2Proof.Machine.execDictAdd p e s
  | .bwClear => Sys2Proof.Machine.execBwClear s
  | .bwWrite code width => Sys2Proof.Machine.execBwWrite code width s
  | .bwFinish => Sys2Proof.Machine.execBwFinish s
  | .brInit => Sys2Proof.Machine.execBrInit s
  | .brRead width => Sys2Proof.Machine.execBrRead width s
  | .softReset => Sys2Proof.Machine.execSoftReset s

end Sys2Proof.Machine
end

