-- ==== Sys2Proof/Machine/Operands.lean ====
section
/-! DEFINITION. What a host access names: the regions of the window (20_memory R51), the register map (10_state R21), and
the value each register reads as. The operand fields of a command are taken out in Decode (30_encoding R70). -/

namespace Sys2Proof.Machine

/-- The registers of 10_state R21. -/
inductive RegName where
  | cmd
  | status
  | inLen
  | inBits
  | outCap
  | outLen
  | outBits
  | result
  | dictSize
  | codeWidth
  | nextWidth
  | wcur
  | rcur
  | dictResets
  | codes
  | lastProbes
  | fsm
  | ipos
  | ident
  | pfx
  deriving DecidableEq, Repr

/-- The register at an offset of the register block; `none` at a reserved offset (10_state R21, R42). -/
def regAt (off : Nat) : Option RegName :=
  match off with
  | 0x00 => some .cmd
  | 0x04 => some .status
  | 0x08 => some .inLen
  | 0x0C => some .inBits
  | 0x10 => some .outCap
  | 0x14 => some .outLen
  | 0x18 => some .outBits
  | 0x1C => some .result
  | 0x20 => some .dictSize
  | 0x24 => some .codeWidth
  | 0x28 => some .nextWidth
  | 0x2C => some .wcur
  | 0x30 => some .rcur
  | 0x34 => some .dictResets
  | 0x38 => some .codes
  | 0x3C => some .lastProbes
  | 0x40 => some .fsm
  | 0x44 => some .ipos
  | 0x48 => some .ident
  | 0x4C => some .pfx
  | _ => none

/-- The value of the ID register (10_state R40). -/
def identValue : Word := 0x4C5A5701#32

/-- The 32-bit value a register reads as: its value zero-extended (10_state R21 to R41). CMD reads 0 (R22), NEXT_WIDTH is
computed (R32), ID is hard-wired (R40). -/
def readReg (r : RegName) (s : State) : Word :=
  match r with
  | .cmd => 0#32
  | .status => s.status.toWord
  | .inLen => s.inLen
  | .inBits => s.inBits
  | .outCap => s.outCap
  | .outLen => s.outLen
  | .outBits => s.outBits
  | .result => s.result
  | .dictSize => s.dictSize.setWidth 32
  | .codeWidth => s.codeWidth.setWidth 32
  | .nextWidth => (peekWidth s.dictSize s.codeWidth).setWidth 32
  | .wcur => s.wcur
  | .rcur => s.rcur
  | .dictResets => s.dictResets
  | .codes => s.codes
  | .lastProbes => s.lastProbes.setWidth 32
  | .fsm => s.fsm.toBits.setWidth 32
  | .ipos => s.ipos
  | .ident => identValue
  | .pfx => s.pfx.setWidth 32

/-- The regions of the window (20_memory R51), with the index inside the region. -/
inductive Region where
  | regs (off : Nat)
  | ibuf (a : Nat)
  | obuf (a : Nat)
  | reserved
  deriving DecidableEq, Repr

/-- The region of a window offset (20_memory R51). -/
def regionOf (off : Nat) : Region :=
  if off < 0x1000 then .regs off
  else if off < 0x1000000 then .reserved
  else if off < 0x2000000 then .ibuf (off - 0x1000000)
  else if off < 0x3000000 then .obuf (off - 0x2000000)
  else .reserved

/-- The offset in the window of an address of the host's address space; `none` outside the window (20_memory R51). -/
def windowOffset (p : Params) (addr : Nat) : Option Nat :=
  if p.base ≤ addr ∧ addr < p.base + Config.windowSize then some (addr - p.base) else none

/-- The four bytes from offset `off` are all reserved (20_memory R52, log 10). -/
def reservedWord (off : Nat) : Bool :=
  decide (regionOf off = .reserved ∧ regionOf (off + 3) = .reserved ∧ off + 3 < Config.windowSize)

end Sys2Proof.Machine
end

