-- ==== Sys2Proof/Machine/Bus.lean ====
section
/-! DEFINITION. Host accesses to the window (20_memory R51 to R55), the issue of a command word (46_control R148), and the
engine's choice of step rule (46_control R150). -/

namespace Sys2Proof.Machine

/-- A word written to CMD (46_control R148): the command it decodes to, or the illegal-command rule. -/
def issue (v : Word) (s : State) : Host.Outcome State Fault Refusal :=
  match decode v with
  | .ok i => exec i s
  | .error _ => illegalCommand s

/-- A write to a register (20_memory R53). CMD issues the word, the RW registers store it unless BUSY = 1 (46_control
R152), and a write to any other register is ignored. -/
def writeReg (r : RegName) (v : Word) (s : State) : Host.Outcome State Fault Refusal :=
  match r with
  | .cmd => issue v s
  | .inLen => .next (if s.status.busy then s else { s with inLen := v })
  | .inBits => .next (if s.status.busy then s else { s with inBits := v })
  | .outCap => .next (if s.status.busy then s else { s with outCap := v })
  | .status => .next s
  | .outLen => .next s
  | .outBits => .next s
  | .result => .next s
  | .dictSize => .next s
  | .codeWidth => .next s
  | .nextWidth => .next s
  | .wcur => .next s
  | .rcur => .next s
  | .dictResets => .next s
  | .codes => .next s
  | .lastProbes => .next s
  | .fsm => .next s
  | .ipos => .next s
  | .ident => .next s
  | .pfx => .next s

/-- What a host load of byte `a` of a buffer returns: 0 at or past the capacity (20_memory R54). -/
def hostByte (m : Memory) (cap a : Nat) : Byte := if a < cap then m.read a else 0#8

/-- The buffer after a host store, which is ignored while BUSY = 1 and at or past the capacity (20_memory R54). -/
def hostStore (busy : Bool) (m : Memory) (cap a : Nat) (v : Byte) : Memory :=
  if a < cap ∧ busy = false then m.write a v else m

/-- An 8-bit load (20_memory R52, R54, R55; log 9). -/
def readByteAt (off : Nat) (s : State) : Host.Outcome State Fault Refusal :=
  match regionOf off with
  | .regs _ => .refused .unsupportedAccess
  | .ibuf a => .next { s with readData := (hostByte s.ibuf s.params.ibufCap a).setWidth 32 }
  | .obuf a => .next { s with readData := (hostByte s.obuf s.params.obufCap a).setWidth 32 }
  | .reserved => .next { s with readData := 0#32 }

/-- An 8-bit store (20_memory R52, R54, R55; log 9). -/
def writeByteAt (off : Nat) (v : Byte) (s : State) : Host.Outcome State Fault Refusal :=
  match regionOf off with
  | .regs _ => .refused .unsupportedAccess
  | .ibuf a => .next { s with ibuf := hostStore s.status.busy s.ibuf s.params.ibufCap a v }
  | .obuf a => .next { s with obuf := hostStore s.status.busy s.obuf s.params.obufCap a v }
  | .reserved => .next s

/-- A 32-bit load (20_memory R52, R53, R55; log 10). A reserved register offset reads 0 (10_state R42). -/
def readWordAt (off : Nat) (s : State) : Host.Outcome State Fault Refusal :=
  match regionOf off with
  | .regs r =>
    if r % 4 = 0 then
      match regAt r with
      | some n => .next { s with readData := readReg n s }
      | none => .next { s with readData := 0#32 }
    else .refused .unsupportedAccess
  | .ibuf _ => .refused .unsupportedAccess
  | .obuf _ => .refused .unsupportedAccess
  | .reserved => if reservedWord off then .next { s with readData := 0#32 } else .refused .unsupportedAccess

/-- A 32-bit store (20_memory R52, R53, R55; log 10). A write to a reserved register offset is ignored (10_state R42). -/
def writeWordAt (off : Nat) (v : Word) (s : State) : Host.Outcome State Fault Refusal :=
  match regionOf off with
  | .regs r =>
    if r % 4 = 0 then
      match regAt r with
      | some n => writeReg n v s
      | none => .next s
    else .refused .unsupportedAccess
  | .ibuf _ => .refused .unsupportedAccess
  | .obuf _ => .refused .unsupportedAccess
  | .reserved => if reservedWord off then .next s else .refused .unsupportedAccess

/-- Run `k` at the window offset of `addr`; an address outside the window is no access to this instance (log 8). -/
def inWindow (addr : Nat) (s : State) (k : Nat → Host.Outcome State Fault Refusal) : Host.Outcome State Fault Refusal :=
  match windowOffset s.params addr with
  | some off => k off
  | none => .refused .outsideWindow

/-- One host access (20_memory R53 to R55). An access of a width other than 8 or 32 bits is one the window does not
take. -/
def hostAccess (a : HostAccess) (s : State) : Host.Outcome State Fault Refusal :=
  match a with
  | .readByte addr => inWindow addr s fun off => readByteAt off s
  | .writeByte addr v => inWindow addr s fun off => writeByteAt off v s
  | .readWord addr => inWindow addr s fun off => readWordAt off s
  | .writeWord addr v => inWindow addr s fun off => writeWordAt off v s
  | .readOther _ addr => inWindow addr s fun _ => .refused .unsupportedAccess
  | .writeOther _ addr _ => inWindow addr s fun _ => .refused .unsupportedAccess

/-- The engine's turn (46_control R150): while BUSY = 1, one step of the rule of the FSM state; while BUSY = 0, nothing. -/
def engineTurn (s : State) : Host.Outcome State Fault Refusal :=
  if s.status.busy then
    match s.fsm with
    | .idle => .fault .noEngineRule
    | .encMatch => runStep encMatchRule s
    | .encFlush => runStep encFlushRule s
    | .decFirst => runStep decFirstRule s
    | .decLoop => runStep decLoopRule s
  else .next s

/-- One entry of the total order of 20_memory R63. -/
def happen (x : Input) (s : State) : Host.Outcome State Fault Refusal :=
  match x with
  | .access a => hostAccess a s
  | .engine => engineTurn s
  | .reset d => .next (hardReset d s)

/-- The store to CMD of the word `v`, put before everything else that is to happen (10_state R22, log 20). -/
def queueCommand (v : Word) (s : State) : State :=
  { s with inputs := .access (.writeWord s.params.base v) :: s.inputs }

end Sys2Proof.Machine
end

