-- ==== Sys2Proof/Machine/Step.lean ====
section
/-! DEFINITION. One step of the machine (00_scope R7): the next entry of the order of host accesses and engine steps, and
the engine alone when no entry is left (20_memory R63, 46_control R150; log 1). -/

namespace Sys2Proof.Machine

/-- One transition. -/
def step (s : State) : Host.Outcome State Fault Refusal :=
  match s.inputs with
  | [] => engineTurn s
  | x :: rest => happen x { s with inputs := rest }

/-- `s` with the command word `w` of `nbits` bits as the next thing the host writes to CMD. -/
def State.withFetchWord (s : State) (nbits w : Nat) : State := queueCommand (tableWord nbits w) s

end Sys2Proof.Machine
end

