-- ==== Sys2Proof/Safety.lean ====
section
/-! DEFINITION. What holds of every state a run reaches (10_state R48, R49, R23 and the bounds the section files derive),
and the notions the statements use: the probe sequence, the bits of a buffer, and how a pass ends. -/

namespace Sys2Proof.Machine

/-! ### Notions of the spec -/

/-- `idx_i = (h1 + i·h2) mod 4096`, slot `i` of the probe sequence of a key (40_dictionary R84). -/
def probeIdx (p : Code) (e : Byte) (i : Nat) : SlotIdx := hashH1 p e + BitVec.ofNat 12 i * hashH2 p e

/-- The bit of a buffer at stream position `q` (20_memory R56). -/
def bufBit (m : Memory) (q : Nat) : Bool := streamBit (m.read (q / 8)) q

/-- The reserved bits of the format that an opcode selects (30_encoding R69); none for the reserved opcodes. -/
def reservedBits (op : BitVec 4) : Word :=
  match op.toNat with
  | 0x4 => 0x0F000000#32
  | 0x5 => 0x0F000000#32
  | 0x7 => 0x0FE00000#32
  | 0xA => 0x0FE0FFFF#32
  | 0xB => 0#32
  | 0xC => 0#32
  | 0xD => 0#32
  | 0xE => 0#32
  | _ => 0x0FFFFFFF#32

/-- `bitlen(n)` for `n ≥ 1`, the number of binary digits (00_scope R11). -/
def bitlen (n : Nat) : Nat := Nat.log2 n + 1

/-- The number of occupied slots. -/
def occCount (ht : List (Nat × Slot)) : Nat := (ht.filter fun c => c.2.occ).length

/-- STATUS after a command that completed without error: 0x02 (10_state R23). -/
def statusDone : Status := { busy := false, done := true, err := false, empty := false, errCode := .none }

/-- STATUS after an error stop (60_exceptions R162). -/
def statusError (e : ErrCode) : Status := { busy := false, done := false, err := true, empty := false, errCode := e }

/-- STATUS during a pass: 0x01 (10_state R23). -/
def statusBusy : Status := { busy := true, done := false, err := false, empty := false, errCode := .none }

/-- STATUS after COMPRESS or DECOMPRESS of an empty input: 0x0A (10_state R23). -/
def statusEmpty : Status := { busy := false, done := true, err := false, empty := true, errCode := .none }

/-! ### The invariant -/

/-- At most one of BUSY, DONE and ERR is 1; ERRCODE is not 0 exactly when ERR = 1; EMPTY stands with DONE
(10_state R23). -/
abbrev Status.Legal (t : Status) : Prop :=
  (t.busy = true → t.done = false ∧ t.err = false) ∧ (t.done = true → t.err = false) ∧
    (t.err = true ↔ t.errCode ≠ .none) ∧ (t.empty = true → t.done = true)

/-- Every table is in its canonical form and lists only indices that exist (10_state R44 to R46). -/
structure TablesOk (s : State) : Prop where
  ibuf_wf : s.ibuf.wf
  ibuf_below : ∀ c ∈ s.ibuf, c.1 < s.params.ibufCap
  obuf_wf : s.obuf.wf
  obuf_below : ∀ c ∈ s.obuf, c.1 < s.params.obufCap
  ht_wf : Sparse.Wf Slot.blank s.ht
  ht_below : ∀ c ∈ s.ht, c.1 < Config.hashSlots
  st_wf : Sparse.Wf ByteSeq.blank s.st
  st_range : ∀ c ∈ s.st, Config.roots ≤ c.1 ∧ c.1 < Config.capacity

/-- The dictionary: 10_state R48 (a) to (d), and every stored code is a live added code. -/
structure DictOk (s : State) : Prop where
  size_ge : 256 ≤ s.dictSize.toNat
  size_le : s.dictSize.toNat ≤ 4096
  width_ge : 8 ≤ s.codeWidth.toNat
  width_le : s.codeWidth.toNat ≤ 12
  fits : s.dictSize.toNat ≤ 2 ^ s.codeWidth.toNat
  tight : 2 ^ (s.codeWidth.toNat - 1) < s.dictSize.toNat
  occupied : occCount s.ht + 256 ≤ s.dictSize.toNat
  live : ∀ c ∈ s.ht, c.2.occ = true → 256 ≤ c.2.code.toNat ∧ c.2.code.toNat < s.dictSize.toNat

/-- Cursors and counters stay within the buffers, and DICT_RESETS within 2^27 (log 17), so none of them wraps
(10_state R49). While a pass runs DICT_RESETS is at most CODES too (`Inv.resets`). -/
structure CursorsOk (s : State) : Prop where
  wcur_le : s.wcur.toNat ≤ 8 * s.params.obufCap
  rcur_le : s.rcur.toNat ≤ 8 * s.params.ibufCap
  ipos_le : s.ipos.toNat ≤ s.params.ibufCap
  codes_le : s.codes.toNat ≤ s.params.ibufCap
  outLen_le : s.outLen.toNat ≤ s.params.obufCap
  outBits_le : s.outBits.toNat ≤ 8 * s.params.obufCap
  probes_le : s.lastProbes.toNat ≤ 4096
  resets_le : s.dictResets.toNat ≤ Config.counterBound

/-- While a COMPRESS pass runs (10_state R48 (e), 44_encoder R122 to R124, R128). -/
structure EncOk (s : State) : Prop where
  inLen_le : s.inLen.toNat ≤ s.params.ibufCap
  outCap_le : s.outCap.toNat ≤ s.params.obufCap
  wcur_le : s.wcur.toNat ≤ 8 * s.outCap.toNat
  ipos_ge : 1 ≤ s.ipos.toNat
  ipos_le : s.ipos.toNat ≤ s.inLen.toNat
  codes_lt : s.codes.toNat < s.ipos.toNat
  pfx_live : s.pfx.toNat < s.dictSize.toNat
  first : s.codes = 0#32 → s.wcur = 0#32 ∧ s.codeWidth = 8#4
  written : s.codes ≠ 0#32 → s.wcur.toNat + 4 ≤ 12 * s.codes.toNat

/-- While a DECOMPRESS pass runs (45_decoder R134, R137, R141; 43_bitreader R117). -/
structure DecOk (s : State) : Prop where
  inBits_ge : 1 ≤ s.inBits.toNat
  inBits_le : s.inBits.toNat ≤ 8 * s.params.ibufCap
  outCap_le : s.outCap.toNat ≤ s.params.obufCap
  rcur_le : s.rcur.toNat ≤ s.inBits.toNat
  wcur_le : s.wcur.toNat ≤ 8 * s.outCap.toNat
  wcur_bytes : s.wcur.toNat % 8 = 0
  codes_le : 8 * s.codes.toNat ≤ s.rcur.toNat

/-- The sequences the decoder may read are no longer than SEQ_MAX_LEN (10_state R43, R45; 45_decoder R141). -/
structure SeqsOk (s : State) : Prop where
  prev_le : s.prev.length ≤ Config.seqMaxLen
  st_le : ∀ c < s.dictSize.toNat, Config.roots ≤ c → (seqAt s.st c).length ≤ Config.seqMaxLen

/-- What holds of every state that a run from hardware reset reaches, and more: it is kept by every step from every
state that meets it. -/
structure Inv (s : State) : Prop where
  params : s.params.Legal
  status : s.status.Legal
  busy_iff : s.status.busy = true ↔ s.fsm ≠ .idle
  tables : TablesOk s
  dict : DictOk s
  cursors : CursorsOk s
  enc : s.fsm = .encMatch ∨ s.fsm = .encFlush → EncOk s
  flush : s.fsm = .encFlush → s.ipos = s.inLen
  dec : s.fsm = .decFirst ∨ s.fsm = .decLoop → DecOk s
  decFirst : s.fsm = .decFirst → s.dictSize = 256#13 ∧ s.codes = 0#32 ∧ s.rcur = 0#32 ∧ s.wcur = 0#32
  seqs : s.fsm = .decLoop → SeqsOk s
  /-- A pass counts at most one capacity reset for each code (10_state R49). -/
  resets : s.fsm ≠ .idle → s.dictResets.toNat ≤ s.codes.toNat

/-- The hash table represents the dictionary (40_dictionary R90, R91): every entry stands on the probe sequence of its
key behind occupied slots only, and behind no entry of the same key with a larger code. -/
def HashOk (ht : List (Nat × Slot)) : Prop :=
  ∀ i : SlotIdx, (slotAt ht i).occ = true →
    ∃ n < 4096, probeIdx (slotAt ht i).pfx (slotAt ht i).ext n = i ∧
      ∀ j < n, (slotAt ht (probeIdx (slotAt ht i).pfx (slotAt ht i).ext j)).occ = true ∧
        (keyMatches (slotAt ht (probeIdx (slotAt ht i).pfx (slotAt ht i).ext j)) (slotAt ht i).pfx (slotAt ht i).ext = true →
          (slotAt ht (probeIdx (slotAt ht i).pfx (slotAt ht i).ext j)).code.toNat < (slotAt ht i).code.toNat)

/-- No two occupied slots hold the same key (40_dictionary R80). -/
def KeysUnique (ht : List (Nat × Slot)) : Prop :=
  ∀ i j : SlotIdx, (slotAt ht i).occ = true → (slotAt ht j).occ = true →
    keyMatches (slotAt ht i) (slotAt ht j).pfx (slotAt ht j).ext = true → i = j

/-! ### How a pass runs and ends -/

/-- `k` turns of the engine, with nothing in between; `none` where a turn has no next state. -/
def engineRun : Nat → State → Option State
  | 0, s => some s
  | k + 1, s =>
    match engineTurn s with
    | .next t => engineRun k t
    | .fault _ => none
    | .refused _ => none

/-- The state of the block, without the order of accesses and what the last of them read. -/
def quiet (s : State) : State := { s with inputs := [], readData := 0#32 }

/-- `inputs` asserts no hardware reset. -/
def noReset (l : List Input) : Prop := ∀ d, Input.reset d ∉ l

/-- The block's state when BUSY is first 0, if that happens within `k` steps (46_control R151). -/
def passEnd : Nat → State → Option State
  | 0, s => if s.status.busy then none else some (quiet s)
  | k + 1, s =>
    if s.status.busy then
      match step s with
      | .next t => passEnd k t
      | .fault _ => none
      | .refused _ => none
    else some (quiet s)

/-! ### Sequences of codes (42_bitwriter R111, 43_bitreader R118) -/

/-- `bwWrite` of each code in turn. -/
def writeAll : List (Code × Nat) → State → Flow Unit
  | [], s => .done () s
  | x :: l, s => (bwWrite x.1 x.2 s).bind fun _ t => writeAll l t

/-- `brRead` at each width in turn. -/
def readAll : List Nat → State → Flow (List Code)
  | [], s => .done [] s
  | w :: l, s => (brRead w s).bind fun c t => (readAll l t).bind fun cs u => .done (c :: cs) u

/-- The `w` low bits of `c`, most significant first (42_bitwriter R111). -/
def codeBits (c : Code) (w : Nat) : List Bool := (List.range w).map fun j => c.getLsbD (w - 1 - j)

/-- The width of code `k` of a pass (41_code_width R102). -/
def streamWidth (k : Nat) : Nat :=
  if k = 0 then 8
  else if (k - 1) % 3840 < 256 then 9
  else if (k - 1) % 3840 < 768 then 10
  else if (k - 1) % 3840 < 1792 then 11
  else 12

/-- The widths of the first `n` codes of a pass. -/
def streamWidths (n : Nat) : List Nat := (List.range n).map streamWidth

/-- Buffer `new` is buffer `old` after the `w` low bits of `c` are appended at bit position `pos` (42_bitwriter R108):
earlier bits are kept, the code's bits follow most significant first, the rest of a byte the cursor entered is 0, and
every other bit is kept. -/
def CodeAppended (old new : Memory) (pos : Nat) (c : Code) (w : Nat) : Prop :=
  ∀ q, bufBit new q =
    if q < pos then bufBit old q
    else if q < pos + w then c.getLsbD (pos + w - 1 - q)
    else if pos ≤ q / 8 * 8 ∧ q / 8 * 8 < pos + w then false
    else bufBit old q

/-- Buffer `new` is buffer `old` after the bits of the byte of position `pos`, from `pos` on, are set to 0; at a whole
byte nothing changes (42_bitwriter R110). -/
def ByteFinished (old new : Memory) (pos : Nat) : Prop :=
  ∀ q, bufBit new q = if pos % 8 ≠ 0 ∧ q / 8 = pos / 8 ∧ pos ≤ q then false else bufBit old q

/-- Buffer `new` is buffer `old` with the bytes `l` from index `a` on (45_decoder R137). -/
def BytesPut (old new : Memory) (a : Nat) (l : List Byte) : Prop :=
  ∀ b, new.read b = if a ≤ b then l.getD (b - a) (old.read b) else old.read b

/-- `S` of 42_bitwriter R111: the bits of the codes one after another. -/
def streamOf : List (Code × Nat) → List Bool
  | [] => []
  | x :: l => codeBits x.1 x.2 ++ streamOf l

end Sys2Proof.Machine
end

