-- ==== Sys2Proof/Certificates/Slice0/Obligations.lean ====
section
/-! DEFINITION. The statements about the model, one for each entry of OBLIGATIONS.json. -/

open Sys2Proof Sys2Proof.Machine

/-! ### Encoding (30_encoding) -/

/-- Decoding the word of a well-formed command gives the command back: no operand bit is dropped (R69 to R72). -/
def Obligations.DecodeInvertsEncode : Prop :=
  ∀ i : Instr, i.wellFormed = true → decode (encode i) = .ok i

/-- Every word that decodes is the one word of a well-formed command (R69 to R72). -/
def Obligations.EncodeInvertsDecode : Prop :=
  ∀ (v : Word) (i : Instr), decode v = .ok i → i.wellFormed = true ∧ encode i = v

/-- R71: a word selects a row when `(v AND mask) = match`; no word selects two rows; BW_WRITE and BR_READ also need W ≤ 16;
every other word is illegal. -/
def Obligations.TableRowSelectsCommand : Prop :=
  ∀ v : Word,
    (∀ i : Instr, decode v = .ok i → v &&& tableMask i = tableMatch i) ∧
    (∀ i j : Instr, v &&& tableMask i = tableMatch i → v &&& tableMask j = tableMatch j →
      tableMatch i = tableMatch j ∧ tableMask i = tableMask j) ∧
    ((∃ i, decode v = .ok i) ↔
      ∃ i : Instr, v &&& tableMask i = tableMatch i ∧
        (opOf v = 0x7#4 ∨ opOf v = 0xA#4 → (widthOf v).toNat ≤ 16))

/-- R73, 46_control R155: which words are illegal, and that such a word changes no state except STATUS, which reads 0x44,
and nothing while BUSY = 1. -/
def Obligations.IllegalWordChangesOnlyStatus : Prop :=
  ∀ v : Word,
    ((∃ e, decode v = .error e) ↔
      (0xB ≤ (opOf v).toNat ∧ (opOf v).toNat ≤ 0xE) ∨ v &&& reservedBits (opOf v) ≠ 0#32 ∨
        ((opOf v = 0x7#4 ∨ opOf v = 0xA#4) ∧ 17 ≤ (widthOf v).toNat)) ∧
    ((∃ i, decode v = .ok i) ∨ ∃ e, decode v = .error e) ∧
    ∀ (e : DecodeError) (s : State), decode v = .error e →
      (s.status.busy = false → s.fsm = .idle → issue v s = .next { s with status := statusError .illegalCmd }) ∧
      (s.status.busy = true → issue v s = .next s) ∧
      (statusError .illegalCmd).toWord = 0x44#32

/-- The words of R78 decode to the commands they stand for, and its illegal words do not decode. -/
def Obligations.EncodedExamplesDecode : Prop :=
  decode 0x00000000#32 = .ok .nop ∧ decode 0x10000000#32 = .ok .compress ∧ decode 0x20000000#32 = .ok .decompress ∧
  decode 0x30000000#32 = .ok .dictReset ∧ decode 0x40004141#32 = .ok (.dictFind 65#16 65#8) ∧
  decode 0x40FFFF41#32 = .ok (.dictFind 0xFFFF#16 0x41#8) ∧ decode 0x50010041#32 = .ok (.dictAdd 256#16 65#8) ∧
  decode 0x60000000#32 = .ok .bwClear ∧ decode 0x70080041#32 = .ok (.bwWrite 65#16 8#5) ∧
  decode 0x70090100#32 = .ok (.bwWrite 256#16 9#5) ∧ decode 0x80000000#32 = .ok .bwFinish ∧
  decode 0x90000000#32 = .ok .brInit ∧ decode 0xA0090000#32 = .ok (.brRead 9#5) ∧
  decode 0xF0000000#32 = .ok .softReset ∧ decode 0xB0000000#32 = .error .reservedOpcode ∧
  decode 0xA0110000#32 = .error .widthRange ∧ decode 0x00000001#32 = .error .reservedBits

/-! ### Steps -/

/-- When the next thing is the host's store of `v` to CMD, the step is `exec` of the decoded command, in the state with
that store taken off `inputs`; an undecodable word runs the illegal-command rule. When the next thing is any host access,
the step is that access (20_memory R63). `withFetchWord` makes a word that next thing. The list `inputs` is the model's own
(log 1), and so is `withFetchWord` (log 20). -/
def Obligations.StepRunsDecodedCommand : Prop :=
  (∀ (s : State) (v : Word) (rest : List Input), s.inputs = .access (.writeWord s.params.base v) :: rest →
    (∀ i, decode v = .ok i → step s = exec i { s with inputs := rest }) ∧
    ∀ e, decode v = .error e → step s = illegalCommand { s with inputs := rest }) ∧
  (∀ (s : State) (a : HostAccess) (rest : List Input), s.inputs = .access a :: rest →
    step s = hostAccess a { s with inputs := rest }) ∧
  ∀ (s : State) (w : Nat) (i : Instr), decodeTableWord 32 w = some i → step (s.withFetchWord 32 w) = exec i s

/-- Which rule an engine turn runs (46_control R150), and when a step is an engine turn (log 1). -/
def Obligations.EngineRunsRuleOfState : Prop :=
  ∀ s : State,
    (s.inputs = [] → step s = engineTurn s) ∧
    (∀ rest, s.inputs = .engine :: rest → step s = engineTurn { s with inputs := rest }) ∧
    (s.status.busy = false → engineTurn s = .next s) ∧
    (s.status.busy = true →
      (s.fsm = .encMatch → engineTurn s = runStep encMatchRule s) ∧
      (s.fsm = .encFlush → engineTurn s = runStep encFlushRule s) ∧
      (s.fsm = .decFirst → engineTurn s = runStep decFirstRule s) ∧
      (s.fsm = .decLoop → engineTurn s = runStep decLoopRule s))

/-- 60_exceptions R162: the error stop writes STATUS and FSM, and keeps every other piece of state as it was when the
error was raised, at issue and in an engine step alike. -/
def Obligations.ErrorStopKeepsOtherState : Prop :=
  ∀ (rule : State → Flow Unit) (s t : State) (e : ErrCode),
    (rule s = .raised e t → runStep rule s = .next { t with status := statusError e, fsm := .idle }) ∧
    (s.status.busy = false → rule (clearFlags s) = .raised e t →
      runCommand rule s = .next { t with status := statusError e, fsm := .idle })

/-- 70_reset_and_hazards R179: a host write made while BUSY = 1 is ignored without any error. -/
def Obligations.BusyIgnoresHostWrites : Prop :=
  ∀ s : State, s.status.busy = true →
    (∀ i, exec i s = .next s) ∧
    (∀ v, hostAccess (.writeWord s.params.base v) s = .next s) ∧
    (∀ v, hostAccess (.writeWord (s.params.base + 0x08) v) s = .next s) ∧
    (∀ v, hostAccess (.writeWord (s.params.base + 0x0C) v) s = .next s) ∧
    (∀ v, hostAccess (.writeWord (s.params.base + 0x10) v) s = .next s) ∧
    (∀ a v, a < 2 ^ 24 → hostAccess (.writeByte (s.params.base + 0x1000000 + a) v) s = .next s) ∧
    ∀ a v, a < 2 ^ 24 → hostAccess (.writeByte (s.params.base + 0x2000000 + a) v) s = .next s

/-! ### Control commands and reset -/

/-- 46_control R153: NOP clears a previous error and sets DONE, and changes nothing else. -/
def Obligations.NopOnlySetsDone : Prop :=
  decode 0x00000000#32 = .ok .nop ∧ statusDone.toWord = 0x02#32 ∧
  ∀ s : State, s.status.busy = false → exec .nop s = .next { s with status := statusDone }

/-- 46_control R154, 70_reset_and_hazards R177: SOFT_RESET puts every register at its reset value and clears every `occ`;
everything else is kept. It is accepted only while BUSY = 0. -/
def Obligations.SoftResetResetsRegisters : Prop :=
  decode 0xF0000000#32 = .ok .softReset ∧
  (∀ s : State, s.status.busy = true → exec .softReset s = .next s) ∧
  ∀ s : State, s.status.busy = false → Sparse.Wf Slot.blank s.ht →
    ∃ ht : List (Nat × Slot),
      exec .softReset s = .next
        { s with
          status := statusDone, inLen := 0#32, inBits := 0#32, outCap := 0#32, outLen := 0#32, outBits := 0#32,
          result := 0#32, dictSize := 256#13, codeWidth := 8#4, wcur := 0#32, rcur := 0#32, dictResets := 0#32,
          codes := 0#32, lastProbes := 0#13, fsm := .idle, ipos := 0#32, pfx := 0#16, ht := ht } ∧
      ∀ i, slotAt ht i = { slotAt s.ht i with occ := false }

/-- 70_reset_and_hazards R175: what a hardware reset leaves, whenever it comes. That the reset is an entry of `inputs` and
that the entries after it are kept is the model's choice (logs 1 and 5), and so is that the parameters stand in the state
(log 2). -/
def Obligations.HardwareResetSetsRegisters : Prop :=
  ∀ (s : State) (d : Draw) (rest : List Input), s.inputs = .reset d :: rest →
    ∃ t : State, step s = .next t ∧
      t.status.toWord = 0#32 ∧ t.inLen = 0#32 ∧ t.inBits = 0#32 ∧ t.outCap = 0#32 ∧ t.outLen = 0#32 ∧
      t.outBits = 0#32 ∧ t.result = 0#32 ∧ t.dictSize = 256#13 ∧ t.codeWidth = 8#4 ∧ readReg .nextWidth t = 9#32 ∧
      t.wcur = 0#32 ∧ t.rcur = 0#32 ∧ t.ipos = 0#32 ∧ t.dictResets = 0#32 ∧ t.codes = 0#32 ∧ t.lastProbes = 0#13 ∧
      t.fsm = .idle ∧ t.pfx = 0#16 ∧ readReg .ident t = 0x4C5A5701#32 ∧ (∀ i, (slotAt t.ht i).occ = false) ∧
      t.params = s.params ∧ t.inputs = rest

/-- 70_reset_and_hazards R175: the contents it calls unspecified may come out as any contents at all (log 5). -/
def Obligations.HardwareResetDrawsAnyContents : Prop :=
  ∀ (s : State) (ibuf obuf : Memory) (ht : List (Nat × Slot)) (st : List (Nat × ByteSeq)) (prev : ByteSeq),
    ibuf.wf → (∀ c ∈ ibuf, c.1 < s.params.ibufCap) → obuf.wf → (∀ c ∈ obuf, c.1 < s.params.obufCap) →
    Sparse.Wf Slot.blank ht → (∀ c ∈ ht, c.1 < 4096 ∧ c.2.occ = false) →
    Sparse.Wf ByteSeq.blank st → (∀ c ∈ st, 256 ≤ c.1 ∧ c.1 < 4096) →
    ∃ (d : Draw) (t : State), happen (.reset d) s = .next t ∧
      t.ibuf = ibuf ∧ t.obuf = obuf ∧ t.ht = ht ∧ t.st = st ∧ t.prev = prev

/-- The values of `State.reset` that 70_reset_and_hazards R175 gives. -/
def Obligations.ResetStateHasSpecValues : Prop :=
  State.reset.status.toWord = 0#32 ∧ State.reset.inLen = 0#32 ∧ State.reset.inBits = 0#32 ∧
  State.reset.outCap = 0#32 ∧ State.reset.outLen = 0#32 ∧ State.reset.outBits = 0#32 ∧ State.reset.result = 0#32 ∧
  State.reset.dictSize = 256#13 ∧ State.reset.codeWidth = 8#4 ∧ readReg .nextWidth State.reset = 9#32 ∧
  State.reset.wcur = 0#32 ∧ State.reset.rcur = 0#32 ∧ State.reset.ipos = 0#32 ∧ State.reset.dictResets = 0#32 ∧
  State.reset.codes = 0#32 ∧ State.reset.lastProbes = 0#13 ∧ State.reset.fsm = .idle ∧ State.reset.pfx = 0#16 ∧
  ∀ i, (slotAt State.reset.ht i).occ = false

/-! ### The dictionary (40_dictionary, 41_code_width) -/

/-- R84: the probe sequence is `(h1 + i·h2) mod 4096`, computed by repeated addition; its first 4096 slots are distinct,
so it visits every slot before it repeats. -/
def Obligations.ProbeSequenceVisitsEverySlot : Prop :=
  ∀ (p : Code) (e : Byte),
    (∀ i, (probeIdx p e i).toNat = ((hashH1 p e).toNat + i * (hashH2 p e).toNat) % 4096) ∧
    probeIdx p e 0 = hashH1 p e ∧
    (∀ i, probeIdx p e (i + 1) = probeIdx p e i + hashH2 p e) ∧
    (∀ i, probeIdx p e (i + 4096) = probeIdx p e i) ∧
    (∀ i j, i < 4096 → j < 4096 → probeIdx p e i = probeIdx p e j → i = j) ∧
    ∀ x : SlotIdx, ∃ i < 4096, probeIdx p e i = x

/-- R92, R85: DICT_RESET clears every `occ`, sets DICT_SIZE to 256 and CODE_WIDTH to 8, and changes nothing else. -/
def Obligations.DictResetClearsOccupancy : Prop :=
  decode 0x30000000#32 = .ok .dictReset ∧
  ∀ s : State, s.status.busy = false → Sparse.Wf Slot.blank s.ht →
    ∃ ht : List (Nat × Slot),
      exec .dictReset s = .next { s with status := statusDone, ht := ht, dictSize := 256#13, codeWidth := 8#4 } ∧
      ∀ i, slotAt ht i = { slotAt s.ht i with occ := false }

/-- R86, R93: DICT_FIND of a root key, of a key whose probes end at an unoccupied slot, and of a key they meet; nothing
but STATUS, RESULT and LAST_PROBES changes. -/
def Obligations.DictFindAnswersWhereProbesEnd : Prop :=
  (∀ v : Word, v.extractLsb' 24 8 = 0x40#8 →
    decode v = .ok (.dictFind (v.extractLsb' 8 16) (v.extractLsb' 0 8))) ∧
  ∀ (s : State) (p : Code) (e : Byte), s.status.busy = false →
    (p = 0xFFFF#16 →
      exec (.dictFind p e) s = .next
        { s with status := statusDone, result := e.setWidth 32, lastProbes := 0#13 }) ∧
    (p ≠ 0xFFFF#16 → ∀ n, n < 4096 →
      (∀ j < n, (slotAt s.ht (probeIdx p e j)).occ = true ∧
        ¬ ((slotAt s.ht (probeIdx p e j)).pfx = p ∧ (slotAt s.ht (probeIdx p e j)).ext = e)) →
      ((slotAt s.ht (probeIdx p e n)).occ = false →
        exec (.dictFind p e) s = .next
          { s with status := statusDone, result := 0x0000FFFF#32, lastProbes := BitVec.ofNat 13 (n + 1) }) ∧
      ((slotAt s.ht (probeIdx p e n)).occ = true → (slotAt s.ht (probeIdx p e n)).pfx = p →
        (slotAt s.ht (probeIdx p e n)).ext = e →
        exec (.dictFind p e) s = .next
          { s with
            status := statusDone, result := (slotAt s.ht (probeIdx p e n)).code.setWidth 32,
            lastProbes := BitVec.ofNat 13 (n + 1) }))

/-- R87: at most 3840 slots are occupied, so the first 3841 slots of every probe sequence hold an unoccupied one, and
dictFind always returns, after at most 3841 probes. -/
def Obligations.DictFindReturnsWithin3841Probes : Prop :=
  ∀ (s : State) (p : Code) (e : Byte), DictOk s → s.status.busy = false →
    occCount s.ht ≤ 3840 ∧ (∃ n < 3841, (slotAt s.ht (probeIdx p e n)).occ = false) ∧
    ∃ (c : Code) (k : BitVec 13), k.toNat ≤ 3841 ∧
      exec (.dictFind p e) s = .next { s with status := statusDone, result := c.setWidth 32, lastProbes := k }

/-- R88, R94: DICT_ADD below capacity stores the key in the first unoccupied slot of its probe sequence under the code
DICT_SIZE, grows the width at a boundary, and counts the code; at capacity the table is reset first, the key becomes
code 256 and DICT_RESETS counts the reset. Nothing else of the block changes. At the bound of 10_state R49 the count is
any value within that bound, the model's reading of R88 beside R49 (log 17). -/
def Obligations.DictAddStoresKeyUnderNextCode : Prop :=
  (∀ v : Word, v.extractLsb' 24 8 = 0x50#8 →
    decode v = .ok (.dictAdd (v.extractLsb' 8 16) (v.extractLsb' 0 8))) ∧
  ∀ (s : State) (p : Code) (e : Byte), s.status.busy = false → Sparse.Wf Slot.blank s.ht →
    (s.dictSize.toNat ≠ 4096 → ∀ n, n < 4096 → (∀ j < n, (slotAt s.ht (probeIdx p e j)).occ = true) →
      (slotAt s.ht (probeIdx p e n)).occ = false →
      ∃ ht : List (Nat × Slot),
        exec (.dictAdd p e) s = .next
          { s with
            status := statusDone, result := s.dictSize.setWidth 32, ht := ht, dictSize := s.dictSize + 1#13,
            codeWidth :=
              if 2 ^ s.codeWidth.toNat ≤ s.dictSize.toNat ∧ s.codeWidth.toNat < 12 then s.codeWidth + 1#4
              else s.codeWidth,
            lastProbes := BitVec.ofNat 13 (n + 1) } ∧
        ∀ i, slotAt ht i =
          if i = probeIdx p e n then { occ := true, pfx := p, ext := e, code := s.dictSize.setWidth 16 }
          else slotAt s.ht i) ∧
    (s.dictSize.toNat = 4096 →
      ∃ (ht : List (Nat × Slot)) (n : Word) (k : Nat),
        exec (.dictAdd p e) s = .next
          { s with
            status := statusDone, result := 256#32, ht := ht, dictSize := 257#13, codeWidth := 9#4,
            lastProbes := 1#13, dictResets := n, freeCount := k } ∧
        (s.dictResets.toNat < 2 ^ 27 → n = s.dictResets + 1#32 ∧ k = s.freeCount) ∧ n.toNat ≤ 2 ^ 27 ∧
        ∀ i, slotAt ht i =
          if i = hashH1 p e then { occ := true, pfx := p, ext := e, code := 256#16 }
          else { slotAt s.ht i with occ := false })

/-- R89: after the reset of a full dictionary at most 3839 slots are occupied, so dictAdd always returns, within 3840
probes, and the code it returns is below 4096. -/
def Obligations.DictAddReturnsWithin3840Probes : Prop :=
  ∀ (s : State) (p : Code) (e : Byte), DictOk s → s.status.busy = false →
    (resetIfFull s).dictSize.toNat ≤ 4095 ∧ occCount (resetIfFull s).ht ≤ 3839 ∧
    ∃ t : State, exec (.dictAdd p e) s = .next t ∧ t.result.toNat < 4096 ∧ 1 ≤ t.lastProbes.toNat ∧
      t.lastProbes.toNat ≤ 3840

/-- R95, R90: in a table built by the operations, DICT_FIND answers what a scan of all entries answers: the smallest code
of an entry with the key, or NOT_FOUND. -/
def Obligations.DictFindIsLinearScan : Prop :=
  ∀ (s : State) (p : Code) (e : Byte), DictOk s → HashOk s.ht → s.status.busy = false →
    (p = 0xFFFF#16 →
      exec (.dictFind p e) s = .next { s with status := statusDone, result := e.setWidth 32, lastProbes := 0#13 }) ∧
    (p ≠ 0xFFFF#16 →
      ∃ (c : Code) (k : BitVec 13),
        exec (.dictFind p e) s = .next { s with status := statusDone, result := c.setWidth 32, lastProbes := k } ∧
        ((c = 0xFFFF#16 ∧ ∀ i, (slotAt s.ht i).occ = true → keyMatches (slotAt s.ht i) p e = false) ∨
          (256 ≤ c.toNat ∧ c.toNat < s.dictSize.toNat ∧
            (∃ i, (slotAt s.ht i).occ = true ∧ keyMatches (slotAt s.ht i) p e = true ∧ (slotAt s.ht i).code = c) ∧
            ∀ i, (slotAt s.ht i).occ = true → keyMatches (slotAt s.ht i) p e = true →
              c.toNat ≤ (slotAt s.ht i).code.toNat)))

/-- Every step keeps the hash table one that probing can search (R90). -/
def Obligations.StepKeepsHashTableSearchable : Prop :=
  ∀ s t : State, Inv s → HashOk s.ht → step s = .next t → HashOk t.ht

/-- R91: adding a key that is in the table already stores it again under the next code and keeps the older entries; a
DICT_FIND then still answers the code of the one added first, the smallest. -/
def Obligations.DuplicateKeyFindsFirstAdded : Prop :=
  ∀ (s : State) (p : Code) (e : Byte), Inv s → HashOk s.ht → s.status.busy = false → s.dictSize.toNat < 4096 →
    p ≠ 0xFFFF#16 → (∃ i, (slotAt s.ht i).occ = true ∧ keyMatches (slotAt s.ht i) p e = true) →
    ∃ t u : State,
      exec (.dictAdd p e) s = .next t ∧ exec (.dictFind p e) t = .next u ∧ t.result.toNat = s.dictSize.toNat ∧
      (∀ i, (slotAt s.ht i).occ = true → slotAt t.ht i = slotAt s.ht i) ∧
      (∃ j, (slotAt s.ht j).occ = false ∧ (slotAt t.ht j).occ = true ∧ keyMatches (slotAt t.ht j) p e = true ∧
        (slotAt t.ht j).code.toNat = s.dictSize.toNat) ∧
      ∃ i, (slotAt s.ht i).occ = true ∧ keyMatches (slotAt s.ht i) p e = true ∧
        u.result = (slotAt s.ht i).code.setWidth 32 ∧
        ∀ k, (slotAt s.ht k).occ = true → keyMatches (slotAt s.ht k) p e = true →
          (slotAt s.ht i).code.toNat ≤ (slotAt s.ht k).code.toNat

/-- R80: a COMPRESS pass starts with no entries, and each of its steps keeps the keys of the entries unique. -/
def Obligations.EncoderKeepsKeysUnique : Prop :=
  (∀ s t : State, s.status.busy = false → exec .compress s = .next t → t.status.busy = true → KeysUnique t.ht) ∧
  ∀ s t : State, Inv s → HashOk s.ht → s.fsm = .encMatch → KeysUnique s.ht → engineTurn s = .next t → KeysUnique t.ht

/-- R99, 10_state R48 (c): CODE_WIDTH is the number of binary digits of DICT_SIZE - 1; NEXT_WIDTH reads that of DICT_SIZE,
or 9 at capacity, and is the width after the next add. -/
def Obligations.NextWidthIsWidthAfterAdd : Prop :=
  ∀ s : State, DictOk s →
    s.codeWidth.toNat = bitlen (s.dictSize.toNat - 1) ∧
    (readReg .nextWidth s).toNat = (if s.dictSize.toNat < 4096 then bitlen s.dictSize.toNat else 9) ∧
    ∀ (p : Code) (e : Byte) (t : State), s.status.busy = false → exec (.dictAdd p e) s = .next t →
      t.codeWidth.toNat = (readReg .nextWidth s).toNat

/-- R103: CODE_WIDTH stays in 8..12; it grows only by 1 and only in an add at DICT_SIZE 256, 512, 1024 or 2048, and drops
only where the dictionary is reset (at capacity the same add then grows it to 9). -/
def Obligations.WidthChangesOnlyAtBoundaries : Prop :=
  ∀ s t : State, Inv s → step s = .next t →
    8 ≤ t.codeWidth.toNat ∧ t.codeWidth.toNat ≤ 12 ∧
    (t.codeWidth = s.codeWidth ∨
      (t.codeWidth.toNat = s.codeWidth.toNat + 1 ∧ t.dictSize.toNat = s.dictSize.toNat + 1 ∧
        (s.dictSize.toNat = 256 ∨ s.dictSize.toNat = 512 ∨ s.dictSize.toNat = 1024 ∨ s.dictSize.toNat = 2048)) ∨
      (t.codeWidth.toNat = 8 ∧ t.dictSize.toNat = 256 ∧ ∀ i, (slotAt t.ht i).occ = false) ∨
      (s.dictSize.toNat = 4096 ∧ t.codeWidth.toNat = 9 ∧ t.dictSize.toNat = 257))

/-! ### The BitWriter (42_bitwriter) -/

/-- R112: BW_CLEAR sets WCUR to 0 and changes nothing else. -/
def Obligations.BwClearZeroesCursor : Prop :=
  decode 0x60000000#32 = .ok .bwClear ∧
  ∀ s : State, s.status.busy = false → exec .bwClear s = .next { s with status := statusDone, wcur := 0#32 }

/-- R113, R108: BW_WRITE appends the low W bits of CODE at WCUR, or raises CONFIG_RANGE or OUTPUT_OVERFLOW with nothing
written; no byte of OBUF but those the code lies in changes. -/
def Obligations.BwWriteAppendsCode : Prop :=
  (∀ v : Word, v.extractLsb' 21 11 = 0x380#11 →
    decode v =
      if (v.extractLsb' 16 5).toNat ≤ 16 then .ok (.bwWrite (v.extractLsb' 0 16) (v.extractLsb' 16 5))
      else .error .widthRange) ∧
  ∀ (s : State) (c : Code) (w : BitVec 5), s.status.busy = false →
    (s.params.obufCap < s.outCap.toNat →
      exec (.bwWrite c w) s = .next { s with status := statusError .configRange, fsm := .idle }) ∧
    (s.outCap.toNat ≤ s.params.obufCap → s.outCap.toNat < ceil8 (s.wcur.toNat + w.toNat) →
      exec (.bwWrite c w) s = .next { s with status := statusError .outputOverflow, fsm := .idle }) ∧
    (s.outCap.toNat ≤ s.params.obufCap → ceil8 (s.wcur.toNat + w.toNat) ≤ s.outCap.toNat → s.params.Legal →
      s.obuf.wf →
      ∃ m : Memory,
        exec (.bwWrite c w) s = .next
          { s with status := statusDone, obuf := m, wcur := s.wcur + BitVec.ofNat 32 w.toNat } ∧
        (s.wcur + BitVec.ofNat 32 w.toNat).toNat = s.wcur.toNat + w.toNat ∧
        CodeAppended s.obuf m s.wcur.toNat c w.toNat ∧
        ∀ a, a < s.wcur.toNat / 8 ∨ ceil8 (s.wcur.toNat + w.toNat) ≤ a → m.read a = s.obuf.read a)

/-- R114, R110: BW_FINISH sets the bits of the last byte after WCUR to 0 and reports the length; WCUR stays, and no other
byte of OBUF changes. -/
def Obligations.BwFinishPadsLastByte : Prop :=
  decode 0x80000000#32 = .ok .bwFinish ∧
  ∀ s : State, s.status.busy = false → s.obuf.wf →
    (s.wcur.toNat % 8 ≠ 0 → s.wcur.toNat / 8 < s.params.obufCap) →
    ∃ m : Memory,
      exec .bwFinish s = .next
        { s with
          status := statusDone, obuf := m, outLen := BitVec.ofNat 32 (ceil8 s.wcur.toNat), outBits := s.wcur,
          result := BitVec.ofNat 32 (ceil8 s.wcur.toNat) } ∧
      ByteFinished s.obuf m s.wcur.toNat ∧
      ∀ a, s.wcur.toNat % 8 = 0 ∨ a ≠ s.wcur.toNat / 8 → m.read a = s.obuf.read a

/-- R111: a sequence of bwWrites from WCUR = 0 and a bwFinish leave the concatenation of the codes' bits in OBUF, padded
with 0 to a whole byte. -/
def Obligations.WrittenStreamIsConcatenation : Prop :=
  ∀ (s : State) (l : List (Code × Nat)), s.params.Legal → s.obuf.wf → s.outCap.toNat ≤ s.params.obufCap →
    s.wcur = 0#32 → ceil8 (l.map Prod.snd).sum ≤ s.outCap.toNat →
    ∃ (t u : State) (n : Word), writeAll l s = .done () t ∧ bwFinish t = .done n u ∧
      t.wcur.toNat = (l.map Prod.snd).sum ∧ u.wcur = t.wcur ∧ n.toNat = ceil8 t.wcur.toNat ∧
      (∀ p < t.wcur.toNat, bufBit u.obuf p = (streamOf l).getD p false) ∧
      ∀ p, t.wcur.toNat ≤ p → p < 8 * ceil8 t.wcur.toNat → bufBit u.obuf p = false

/-! ### The BitReader (43_bitreader) -/

/-- R120: BR_INIT sets RCUR to 0 and changes nothing else. -/
def Obligations.BrInitZeroesCursor : Prop :=
  decode 0x90000000#32 = .ok .brInit ∧
  ∀ s : State, s.status.busy = false → exec .brInit s = .next { s with status := statusDone, rcur := 0#32 }

/-- R121, R116: BR_READ shifts W bits from RCUR on into RESULT, the most significant first, or raises CONFIG_RANGE or
TRUNCATED with RCUR and RESULT unchanged. -/
def Obligations.BrReadExtractsBits : Prop :=
  (∀ v : Word, v.extractLsb' 21 11 = 0x500#11 → v.extractLsb' 0 16 = 0#16 →
    decode v =
      if (v.extractLsb' 16 5).toNat ≤ 16 then .ok (.brRead (v.extractLsb' 16 5)) else .error .widthRange) ∧
  ∀ (s : State) (w : BitVec 5), s.status.busy = false →
    (8 * s.params.ibufCap < s.inBits.toNat →
      exec (.brRead w) s = .next { s with status := statusError .configRange, fsm := .idle }) ∧
    (s.inBits.toNat ≤ 8 * s.params.ibufCap → s.inBits.toNat - s.rcur.toNat < w.toNat →
      exec (.brRead w) s = .next { s with status := statusError .truncated, fsm := .idle }) ∧
    (s.inBits.toNat ≤ 8 * s.params.ibufCap → w.toNat ≤ s.inBits.toNat - s.rcur.toNat →
      ∃ c : Code,
        exec (.brRead w) s = .next
          { s with
            status := statusDone, rcur := s.rcur + BitVec.ofNat 32 w.toNat, result := c.setWidth 32 } ∧
        (s.rcur + BitVec.ofNat 32 w.toNat).toNat = s.rcur.toNat + w.toNat ∧
        ∀ j < 16, c.getLsbD j =
          if j < w.toNat then bufBit s.ibuf (s.rcur.toNat + w.toNat - 1 - j) else false)

/-- R118: reading a written stream back at the same widths returns the codes, and the reader ends at IN_BITS, where a
further read raises TRUNCATED. -/
def Obligations.ReaderInvertsWriter : Prop :=
  ∀ (s t u : State) (l : List (Code × Nat)), s.params.Legal → s.obuf.wf → s.outCap.toNat ≤ s.params.obufCap →
    s.wcur = 0#32 → (∀ x ∈ l, x.2 ≤ 16) → writeAll l s = .done () t →
    u.rcur = 0#32 → u.inBits = t.wcur → u.inBits.toNat ≤ 8 * u.params.ibufCap →
    (∀ a < ceil8 t.wcur.toNat, u.ibuf.read a = t.obuf.read a) →
    readAll (l.map Prod.snd) u
        = .done (l.map fun x => BitVec.ofNat 16 (x.1.toNat % 2 ^ x.2)) { u with rcur := u.inBits } ∧
      ∀ w, 1 ≤ w → brRead w { u with rcur := u.inBits } = .raised .truncated { u with rcur := u.inBits }

/-! ### The encoder (44_encoder) -/

/-- R122: COMPRESS at issue: CONFIG_RANGE before any other change, an empty input done at once, or a pass started on a
fresh dictionary. -/
def Obligations.CompressIssueStartsPass : Prop :=
  ∀ s : State, s.status.busy = false →
    (∀ i, (slotAt (clearOcc s.ht) i).occ = false) ∧
    (s.params.ibufCap < s.inLen.toNat ∨ s.params.obufCap < s.outCap.toNat →
      exec .compress s = .next { s with status := statusError .configRange, fsm := .idle }) ∧
    (s.inLen.toNat ≤ s.params.ibufCap → s.outCap.toNat ≤ s.params.obufCap → s.inLen = 0#32 →
      exec .compress s = .next
        { s with
          status := statusEmpty, outLen := 0#32, outBits := 0#32, codes := 0#32, dictResets := 0#32,
          ht := clearOcc s.ht, dictSize := 256#13, codeWidth := 8#4, wcur := 0#32, ipos := 0#32 }) ∧
    (s.inLen.toNat ≤ s.params.ibufCap → s.outCap.toNat ≤ s.params.obufCap → s.inLen ≠ 0#32 →
      exec .compress s = .next
        { s with
          status := statusBusy, outLen := 0#32, outBits := 0#32, codes := 0#32, dictResets := 0#32,
          ht := clearOcc s.ht, dictSize := 256#13, codeWidth := 8#4, wcur := 0#32, ipos := 1#32,
          pfx := (s.ibuf.read 0).setWidth 16, fsm := .encMatch })

/-- R123: the ENC_MATCH step: extend the match, or write PREFIX at CODE_WIDTH, add the key and restart the match, or raise
OUTPUT_OVERFLOW after the find; at the end of the input, go to ENC_FLUSH. -/
def Obligations.EncMatchStepExtendsOrWrites : Prop :=
  ∀ s : State, Inv s → s.fsm = .encMatch →
    (s.ipos = s.inLen → engineTurn s = .next { s with fsm := .encFlush }) ∧
    (s.ipos ≠ s.inLen →
      ∃ (r : Code) (k : BitVec 13),
        dictFind s.pfx (s.ibuf.read s.ipos.toNat) s = .done r { s with lastProbes := k } ∧
        (r ≠ 0xFFFF#16 → r.toNat < 4096 ∧
          engineTurn s = .next { s with lastProbes := k, pfx := r, ipos := s.ipos + 1#32 }) ∧
        (r = 0xFFFF#16 → s.outCap.toNat < ceil8 (s.wcur.toNat + s.codeWidth.toNat) →
          engineTurn s = .next { s with lastProbes := k, status := statusError .outputOverflow, fsm := .idle }) ∧
        (r = 0xFFFF#16 → ceil8 (s.wcur.toNat + s.codeWidth.toNat) ≤ s.outCap.toNat →
          ∃ (m : Memory) (c : Code) (t : State),
            CodeAppended s.obuf m s.wcur.toNat s.pfx s.codeWidth.toNat ∧
            dictAdd s.pfx (s.ibuf.read s.ipos.toNat)
                { s with
                  lastProbes := k, obuf := m, wcur := s.wcur + BitVec.ofNat 32 s.codeWidth.toNat,
                  codes := s.codes + 1#32 } = .done c t ∧
            engineTurn s = .next
              { t with pfx := (s.ibuf.read s.ipos.toNat).setWidth 16, ipos := s.ipos + 1#32 }))

/-- R124: the ENC_FLUSH step writes the pending code, pads the last byte, reports both lengths and completes the pass, or
raises OUTPUT_OVERFLOW. -/
def Obligations.EncFlushStepCompletesPass : Prop :=
  ∀ s : State, Inv s → s.fsm = .encFlush →
    (s.outCap.toNat < ceil8 (s.wcur.toNat + s.codeWidth.toNat) →
      engineTurn s = .next { s with status := statusError .outputOverflow, fsm := .idle }) ∧
    (ceil8 (s.wcur.toNat + s.codeWidth.toNat) ≤ s.outCap.toNat →
      ∃ m n : Memory,
        CodeAppended s.obuf m s.wcur.toNat s.pfx s.codeWidth.toNat ∧
        ByteFinished m n (s.wcur.toNat + s.codeWidth.toNat) ∧
        engineTurn s = .next
          { s with
            status := statusDone, fsm := .idle, obuf := n, wcur := s.wcur + BitVec.ofNat 32 s.codeWidth.toNat,
            codes := s.codes + 1#32, outLen := BitVec.ofNat 32 (ceil8 (s.wcur.toNat + s.codeWidth.toNat)),
            outBits := s.wcur + BitVec.ofNat 32 s.codeWidth.toNat })

/-- R125: a one-byte input becomes that byte, as one 8-bit code, in two engine steps. -/
def Obligations.OneByteInputIsOneCode : Prop :=
  ∀ s : State, Inv s → s.status.busy = false → s.inLen = 1#32 → 1 ≤ s.outCap.toNat →
    s.outCap.toNat ≤ s.params.obufCap →
    ∃ t u v : State,
      exec .compress s = .next t ∧ t.pfx = (s.ibuf.read 0).setWidth 16 ∧ t.ipos = 1#32 ∧
      engineRun 1 t = some u ∧ u.fsm = .encFlush ∧ engineRun 2 t = some v ∧ v.status = statusDone ∧
      v.obuf.read 0 = s.ibuf.read 0 ∧ v.outLen = 1#32 ∧ v.outBits = 8#32 ∧ v.codes = 1#32 ∧ v.dictSize = 256#13

/-- R126: the FSM values a COMPRESS pass goes through; a pass over n bytes that succeeds takes exactly n + 1 engine steps,
and the only other end is OUTPUT_OVERFLOW. -/
def Obligations.CompressTakesLengthPlusOneSteps : Prop :=
  ∀ s : State, Inv s → s.status.busy = false → s.inLen.toNat ≤ s.params.ibufCap →
    s.outCap.toNat ≤ s.params.obufCap →
    (s.inLen = 0#32 → ∃ t : State, exec .compress s = .next t ∧ t.status = statusEmpty ∧ t.fsm = .idle) ∧
    (s.inLen ≠ 0#32 →
      ∃ (t u : State) (k : Nat), exec .compress s = .next t ∧ k ≤ s.inLen.toNat + 1 ∧ engineRun k t = some u ∧
        (∀ j < k, ∃ x : State, engineRun j t = some x ∧ x.status = statusBusy ∧
          x.fsm = (if j < s.inLen.toNat then Fsm.encMatch else Fsm.encFlush) ∧
          x.ipos.toNat = if j < s.inLen.toNat then j + 1 else s.inLen.toNat) ∧
        u.fsm = .idle ∧
        ((u.status = statusDone ∧ k = s.inLen.toNat + 1) ∨ u.status = statusError .outputOverflow))

/-- R129: OUT_CAP of at least ceil8(8 + 12·(n - 1)) bytes is enough for any input of n bytes, and at most n codes are
written. -/
def Obligations.OutputBoundSuffices : Prop :=
  ∀ s : State, Inv s → s.status.busy = false → s.inLen ≠ 0#32 → s.inLen.toNat ≤ s.params.ibufCap →
    s.outCap.toNat ≤ s.params.obufCap → ceil8 (8 + 12 * (s.inLen.toNat - 1)) ≤ s.outCap.toNat →
    ∃ t u : State, exec .compress s = .next t ∧ engineRun (s.inLen.toNat + 1) t = some u ∧ u.status = statusDone ∧
      u.codes.toNat ≤ s.inLen.toNat ∧ u.outBits.toNat ≤ 8 + 12 * (s.inLen.toNat - 1)

/-- R128, R130, 41_code_width R102: what a successful COMPRESS pass leaves: K = CODES codes, code k at the width of R102,
packed and padded in OBUF; the lengths, DICT_SIZE and DICT_RESETS that K gives; IPOS and PREFIX at the end. Code k is the
PREFIX of the one state whose step raises CODES from k to k + 1: the flush for the last code, a failed find for any
other. It is a live code there, and fits its width. -/
def Obligations.CompressOutputIsPackedCodes : Prop :=
  ∀ s t u : State, Inv s → s.status.busy = false → s.inLen ≠ 0#32 → exec .compress s = .next t →
    engineRun (s.inLen.toNat + 1) t = some u → u.status = statusDone →
    ∃ cs : List Code,
      cs.length = u.codes.toNat ∧ 1 ≤ cs.length ∧ cs.length ≤ s.inLen.toNat ∧
      (∀ k < cs.length, ∃ (j : Nat) (x y : State),
        j ≤ s.inLen.toNat ∧ engineRun j t = some x ∧ engineRun (j + 1) t = some y ∧
        x.codes.toNat = k ∧ y.codes.toNat = k + 1 ∧
        (∀ (i : Nat) (z : State), engineRun i t = some z → (z.codes.toNat ≤ k ↔ i ≤ j)) ∧
        cs[k]? = some x.pfx ∧ x.pfx.toNat < x.dictSize.toNat ∧ x.pfx.toNat < 2 ^ streamWidth k ∧
        x.codeWidth.toNat = streamWidth k ∧
        (k + 1 = cs.length → x.fsm = .encFlush) ∧
        (k + 1 < cs.length → x.fsm = .encMatch ∧
          ∃ v : State, dictFind x.pfx (x.ibuf.read x.ipos.toNat) x = .done 0xFFFF#16 v)) ∧
      u.outBits.toNat = (streamWidths cs.length).sum ∧ u.wcur = u.outBits ∧ u.outLen.toNat = ceil8 u.outBits.toNat ∧
      (∀ p < u.outBits.toNat, bufBit u.obuf p = (streamOf (cs.zip (streamWidths cs.length))).getD p false) ∧
      (∀ p, u.outBits.toNat ≤ p → p < 8 * u.outLen.toNat → bufBit u.obuf p = false) ∧
      u.dictSize.toNat = (if cs.length = 1 then 256 else 257 + (cs.length - 2) % 3840) ∧
      u.dictResets.toNat = (cs.length - 2) / 3840 ∧ u.ipos = s.inLen ∧ cs.getLast? = some u.pfx ∧
      cs.head? = some ((s.ibuf.read 0).setWidth 16)

/-- R131: a COMPRESS pass is a function of IN_LEN, the input bytes and OUT_CAP: at every step two passes over the same
input agree, whatever state they started from, and so do their results. -/
def Obligations.CompressIgnoresEarlierState : Prop :=
  ∀ (s s' t t' u u' : State) (k : Nat), Inv s → Inv s' → s.status.busy = false → s'.status.busy = false →
    s.inLen = s'.inLen → s.inLen ≠ 0#32 → s.outCap = s'.outCap →
    (∀ a < s.inLen.toNat, s.ibuf.read a = s'.ibuf.read a) →
    s.inLen.toNat ≤ s.params.ibufCap → s.inLen.toNat ≤ s'.params.ibufCap →
    s.outCap.toNat ≤ s.params.obufCap → s.outCap.toNat ≤ s'.params.obufCap →
    exec .compress s = .next t → exec .compress s' = .next t' →
    engineRun k t = some u → engineRun k t' = some u' →
    u.status = u'.status ∧ u.fsm = u'.fsm ∧ u.outLen = u'.outLen ∧ u.outBits = u'.outBits ∧ u.codes = u'.codes ∧
      u.dictResets = u'.dictResets ∧ u.dictSize = u'.dictSize ∧ u.codeWidth = u'.codeWidth ∧ u.wcur = u'.wcur ∧
      u.ipos = u'.ipos ∧ u.pfx = u'.pfx ∧
      (u.status = statusDone → ∀ a < u.outLen.toNat, u.obuf.read a = u'.obuf.read a)

/-! ### The decoder (45_decoder) -/

/-- R134: DECOMPRESS at issue: CONFIG_RANGE before any other change, an empty stream done at once, or a pass started on a
fresh dictionary. -/
def Obligations.DecompressIssueStartsPass : Prop :=
  ∀ s : State, s.status.busy = false →
    (∀ i, (slotAt (clearOcc s.ht) i).occ = false) ∧
    (8 * s.params.ibufCap < s.inBits.toNat ∨ s.params.obufCap < s.outCap.toNat →
      exec .decompress s = .next { s with status := statusError .configRange, fsm := .idle }) ∧
    (s.inBits.toNat ≤ 8 * s.params.ibufCap → s.outCap.toNat ≤ s.params.obufCap → s.inBits = 0#32 →
      exec .decompress s = .next
        { s with
          status := statusEmpty, outLen := 0#32, outBits := 0#32, codes := 0#32, dictResets := 0#32,
          ht := clearOcc s.ht, dictSize := 256#13, codeWidth := 8#4, wcur := 0#32, rcur := 0#32 }) ∧
    (s.inBits.toNat ≤ 8 * s.params.ibufCap → s.outCap.toNat ≤ s.params.obufCap → s.inBits ≠ 0#32 →
      exec .decompress s = .next
        { s with
          status := statusBusy, outLen := 0#32, outBits := 0#32, codes := 0#32, dictResets := 0#32,
          ht := clearOcc s.ht, dictSize := 256#13, codeWidth := 8#4, wcur := 0#32, rcur := 0#32,
          fsm := .decFirst })

/-- R140: the DEC_FIRST step reads the first 8 bits, which are the first byte of IBUF, and emits that byte; with fewer bits
it raises TRUNCATED, with OUT_CAP = 0 OUTPUT_OVERFLOW after the read. -/
def Obligations.DecFirstStepEmitsRoot : Prop :=
  ∀ s : State, Inv s → s.fsm = .decFirst →
    (s.inBits.toNat < 8 → engineTurn s = .next { s with status := statusError .truncated, fsm := .idle }) ∧
    (8 ≤ s.inBits.toNat → s.outCap = 0#32 →
      engineTurn s = .next
        { s with rcur := 8#32, codes := 1#32, status := statusError .outputOverflow, fsm := .idle }) ∧
    (8 ≤ s.inBits.toNat → s.outCap ≠ 0#32 →
      engineTurn s = .next
        { s with
          rcur := 8#32, codes := 1#32, obuf := s.obuf.write 0 (s.ibuf.read 0), wcur := 8#32,
          prev := { head := s.ibuf.read 0, tail := [] }, fsm := .decLoop })

/-- R141, R139, R135: the DEC_LOOP step: completion, TRUNCATED, and, after the read and the reset of a full table,
MALFORMED, SEQ_OVERFLOW and OUTPUT_OVERFLOW in this order; otherwise the sequence of the code is emitted, the entry added,
and PREV replaced. The sequence is the one byte of a root, the entry of ST of a live code, and PREV with its first byte
for the code DICT_SIZE. -/
def Obligations.DecLoopStepDecodesOneCode : Prop :=
  ∀ s : State, Inv s → s.fsm = .decLoop →
    (s.rcur = s.inBits →
      engineTurn s = .next
        { s with
          status := statusDone, fsm := .idle, outLen := BitVec.ofNat 32 (s.wcur.toNat / 8), outBits := s.wcur }) ∧
    (s.rcur ≠ s.inBits → s.inBits.toNat - s.rcur.toNat < (peekWidth s.dictSize s.codeWidth).toNat →
      engineTurn s = .next { s with status := statusError .truncated, fsm := .idle }) ∧
    ((peekWidth s.dictSize s.codeWidth).toNat ≤ s.inBits.toNat - s.rcur.toNat →
      ∃ (c : Code) (u : State),
        brRead (peekWidth s.dictSize s.codeWidth).toNat s
          = .done c { s with rcur := s.rcur + BitVec.ofNat 32 (peekWidth s.dictSize s.codeWidth).toNat } ∧
        u = resetIfFull
          { s with
            rcur := s.rcur + BitVec.ofNat 32 (peekWidth s.dictSize s.codeWidth).toNat, codes := s.codes + 1#32 } ∧
        (256 ≤ c.toNat → u.dictSize.toNat < c.toNat →
          engineTurn s = .next { u with status := statusError .malformed, fsm := .idle }) ∧
        ∀ cs : ByteSeq,
          (c.toNat < 256 ∧ cs = { head := c.extractLsb' 0 8, tail := [] }) ∨
            (256 ≤ c.toNat ∧ c.toNat < u.dictSize.toNat ∧ cs = seqAt s.st c.toNat) ∨
            (c.toNat = u.dictSize.toNat ∧ cs = s.prev.snoc s.prev.head) →
          (4096 < s.prev.length + 1 →
            engineTurn s = .next { u with status := statusError .seqOverflow, fsm := .idle }) ∧
          (s.prev.length + 1 ≤ 4096 → s.outCap.toNat < s.wcur.toNat / 8 + cs.length →
            engineTurn s = .next { u with status := statusError .outputOverflow, fsm := .idle }) ∧
          (s.prev.length + 1 ≤ 4096 → s.wcur.toNat / 8 + cs.length ≤ s.outCap.toNat →
            ∃ m : Memory, BytesPut s.obuf m (s.wcur.toNat / 8) cs.toList ∧
              engineTurn s = .next
                { cwsOnAdd u with
                  obuf := m, wcur := s.wcur + BitVec.ofNat 32 (8 * cs.length),
                  st := setSeq s.st u.dictSize.toNat (s.prev.snoc cs.head), dictSize := u.dictSize + 1#13,
                  prev := cs }))

/-- R136: a code equal to DICT_SIZE is decoded as the previous sequence and its first byte; no flag is set, and the entry
the step adds under that code is the same sequence. -/
def Obligations.KwKwKCodeIsSynthesised : Prop :=
  ∀ (s u : State) (c : Code), Inv s → s.fsm = .decLoop →
    brRead (peekWidth s.dictSize s.codeWidth).toNat s
      = .done c { s with rcur := s.rcur + BitVec.ofNat 32 (peekWidth s.dictSize s.codeWidth).toNat } →
    s.rcur ≠ s.inBits → u = resetIfFull s → c.toNat = u.dictSize.toNat → s.prev.length + 1 ≤ 4096 →
    s.wcur.toNat / 8 + (s.prev.length + 1) ≤ s.outCap.toNat →
    ∃ t : State, engineTurn s = .next t ∧ t.status = s.status ∧ t.fsm = .decLoop ∧
      t.prev = s.prev.snoc s.prev.head ∧ seqAt t.st c.toNat = s.prev.snoc s.prev.head ∧
      t.dictSize.toNat = u.dictSize.toNat + 1 ∧
      BytesPut s.obuf t.obuf (s.wcur.toNat / 8) (s.prev.toList ++ [s.prev.head])

/-- R142, R146: every DECOMPRESS pass ends within IN_BITS div 8 + 1 engine steps, with success or with one of four errors;
on success it took CODES + 1 steps and the result registers are as R146 says. -/
def Obligations.DecompressEndsWithinBits : Prop :=
  ∀ s : State, Inv s → s.status.busy = false → s.inBits ≠ 0#32 → s.inBits.toNat ≤ 8 * s.params.ibufCap →
    s.outCap.toNat ≤ s.params.obufCap →
    ∃ (t u : State) (k : Nat), exec .decompress s = .next t ∧ k ≤ s.inBits.toNat / 8 + 1 ∧ engineRun k t = some u ∧
      (∀ j < k, ∃ x : State, engineRun j t = some x ∧ x.status = statusBusy ∧
        x.fsm = if j = 0 then Fsm.decFirst else Fsm.decLoop) ∧
      u.fsm = .idle ∧ u.result = s.result ∧ u.ipos = s.ipos ∧ u.pfx = s.pfx ∧
      ((u.status = statusDone ∧ k = u.codes.toNat + 1 ∧ u.rcur = s.inBits ∧ u.outBits = u.wcur ∧
          u.outBits.toNat = 8 * u.outLen.toNat ∧ u.codes.toNat ≤ s.inBits.toNat / 8) ∨
        ∃ e, e ∈ [ErrCode.truncated, .malformed, .seqOverflow, .outputOverflow] ∧ u.status = statusError e)

/-- R144: DECOMPRESS of the output of a COMPRESS pass with no capacity reset gives the input back. -/
def Obligations.RoundTripWithoutCapacityReset : Prop :=
  ∀ s t u v : State, Inv s → s.status.busy = false → s.inLen ≠ 0#32 → exec .compress s = .next t →
    engineRun (s.inLen.toNat + 1) t = some u → u.status = statusDone → u.dictResets = 0#32 →
    Inv v → v.status.busy = false → v.inBits = u.outBits → u.outBits.toNat ≤ 8 * v.params.ibufCap →
    (∀ a < u.outLen.toNat, v.ibuf.read a = u.obuf.read a) →
    s.inLen.toNat ≤ v.outCap.toNat → v.outCap.toNat ≤ v.params.obufCap →
    ∃ w x : State, exec .decompress v = .next w ∧ engineRun (u.codes.toNat + 1) w = some x ∧ x.status = statusDone ∧
      x.outLen = s.inLen ∧ x.codes = u.codes ∧ x.rcur = x.inBits ∧
      ∀ a < s.inLen.toNat, x.obuf.read a = s.ibuf.read a

/-! ### Whole-machine properties -/

/-- 46_control R151: the state in which a pass ends is a function of the state at its issue, however host accesses and
engine steps interleave, as long as no hardware reset comes. -/
def Obligations.PassIsFunctionOfIssueState : Prop :=
  ∀ (s u u' : State) (l l' : List Input) (k k' : Nat), noReset l → noReset l' →
    passEnd k { s with inputs := l } = some u → passEnd k' { s with inputs := l' } = some u' → u = u'

/-- The invariant holds after reset, for every choice of the platform parameters (log 2). It rests on what `State.reset`
holds where the spec leaves the contents open (logs 3 and 4). -/
def Obligations.ResetMeetsInv : Prop :=
  Inv State.reset ∧ ∀ p : Params, p.Legal → Inv { State.reset with params := p }

/-- 10_state R48, R49, R23: every step keeps the invariant, from every state that meets it. -/
def Obligations.StepKeepsInv : Prop :=
  ∀ s t : State, Inv s → step s = .next t → Inv t

/-- From a state that meets the invariant no step faults, only a host access can be refused, and every command has a next
state. -/
def Obligations.InvExcludesFaults : Prop :=
  ∀ s : State, Inv s →
    (∀ f, step s ≠ .fault f) ∧
    (∀ r, step s = .refused r → ∃ a rest, s.inputs = .access a :: rest) ∧
    ∀ i : Instr, ∃ t : State, exec i s = .next t

/-- 10_state R49: the cursors and counters never pass 2^27. DICT_RESETS is at most CODES during a pass and when the pass
ends. A step keeps it, clears it, or counts one reset of a full dictionary; past 2^24 only a DICT_ADD that the host issues
outside a pass counts it, and at 2^27 that DICT_ADD leaves any value within the bound (the model's reading, log 17). -/
def Obligations.CountersBounded : Prop :=
  (∀ s : State, Inv s →
    s.wcur.toNat ≤ 2 ^ 27 ∧ s.rcur.toNat ≤ 2 ^ 27 ∧ s.ipos.toNat ≤ 2 ^ 27 ∧ s.codes.toNat ≤ 2 ^ 27 ∧
    s.dictResets.toNat ≤ 2 ^ 27 ∧ (s.status.busy = true → s.dictResets.toNat ≤ s.codes.toNat)) ∧
  (∀ s t : State, Inv s → s.status.busy = true → engineTurn s = .next t → t.dictResets.toNat ≤ t.codes.toNat) ∧
  ∀ s t : State, Inv s → step s = .next t →
    t.dictResets = s.dictResets ∨ t.dictResets = 0#32 ∨
      (s.dictSize.toNat = 4096 ∧ t.dictResets = s.dictResets + 1#32 ∧ t.dictResets.toNat ≤ 2 ^ 24) ∨
      (s.dictSize.toNat = 4096 ∧ s.status.busy = false ∧
        (∃ (v : Word) (p : Code) (e : Byte) (rest : List Input),
          s.inputs = .access (.writeWord s.params.base v) :: rest ∧ decode v = .ok (.dictAdd p e)) ∧
        (s.dictResets.toNat < 2 ^ 27 → t.dictResets = s.dictResets + 1#32) ∧ t.dictResets.toNat ≤ 2 ^ 27)

/-- 10_state R23, 60_exceptions R160: the fields of STATUS as the host reads them, the number of each error code in ERRCODE
and the word STATUS holds after each error stop, and that at most one of BUSY, DONE and ERR is 1, with ERRCODE not 0
exactly when ERR = 1, after every step. -/
def Obligations.StatusFlagsExclusive : Prop :=
  (∀ s : State,
    (readReg .status s).getLsbD 0 = s.status.busy ∧ (readReg .status s).getLsbD 1 = s.status.done ∧
    (readReg .status s).getLsbD 2 = s.status.err ∧ (readReg .status s).getLsbD 3 = s.status.empty ∧
    (readReg .status s).extractLsb' 4 4 = s.status.errCode.toBits ∧ (readReg .status s).extractLsb' 8 24 = 0#24 ∧
    ∀ x ∈ [(ErrCode.none, 0#4), (ErrCode.outputOverflow, 1#4), (ErrCode.malformed, 2#4), (ErrCode.truncated, 3#4),
        (ErrCode.illegalCmd, 4#4), (ErrCode.configRange, 5#4), (ErrCode.seqOverflow, 6#4)],
      s.status.errCode = x.1 → (readReg .status s).extractLsb' 4 4 = x.2) ∧
  (∀ x ∈ [(ErrCode.outputOverflow, 0x14#32), (ErrCode.malformed, 0x24#32), (ErrCode.truncated, 0x34#32),
      (ErrCode.illegalCmd, 0x44#32), (ErrCode.configRange, 0x54#32), (ErrCode.seqOverflow, 0x64#32)],
    (statusError x.1).toWord = x.2) ∧
  ∀ s t : State, s.status.Legal → step s = .next t → t.status.Legal

/-- An engine step changes no parameter, no RW register, not RESULT and not IBUF (20_memory R60, 10_state R26, R29). Of
OBUF it changes bytes from WCUR div 8 on only, before the end of the byte that WCUR reaches, and none at or past OUT_CAP;
a step that writes nothing (an ENC_MATCH step at the end of the input or with a hit, the completion in DEC_LOOP, a step
that raises an error) leaves all of OBUF. An encoder step leaves the decoder's registers alone and a decoder step the
encoder's. -/
def Obligations.EngineFrame : Prop :=
  ∀ s t : State, Inv s → s.status.busy = true → engineTurn s = .next t →
    t.params = s.params ∧ t.inLen = s.inLen ∧ t.inBits = s.inBits ∧ t.outCap = s.outCap ∧ t.result = s.result ∧
    t.ibuf = s.ibuf ∧ t.inputs = s.inputs ∧ t.readData = s.readData ∧
    t.freeCount = s.freeCount ∧
    (∀ a, a < s.wcur.toNat / 8 ∨ ceil8 t.wcur.toNat ≤ a ∨ s.outCap.toNat ≤ a → t.obuf.read a = s.obuf.read a) ∧
    (t.wcur = s.wcur → t.obuf = s.obuf) ∧
    ((s.fsm = .encMatch ∧ s.ipos = s.inLen) ∨
      (s.fsm = .encMatch ∧ s.ipos ≠ s.inLen ∧
        ∃ (r : Code) (v : State), dictFind s.pfx (s.ibuf.read s.ipos.toNat) s = .done r v ∧ r ≠ 0xFFFF#16) ∨
      (s.fsm = .decLoop ∧ s.rcur = s.inBits) ∨ t.status.err = true →
      t.wcur = s.wcur ∧ t.obuf = s.obuf) ∧
    (s.fsm = .encMatch ∨ s.fsm = .encFlush → t.rcur = s.rcur ∧ t.prev = s.prev ∧ t.st = s.st) ∧
    (s.fsm = .decFirst ∨ s.fsm = .decLoop →
      t.ipos = s.ipos ∧ t.pfx = s.pfx ∧ t.lastProbes = s.lastProbes ∧
        ∀ i, (slotAt t.ht i).occ = true → slotAt t.ht i = slotAt s.ht i)

/-- Only DICT_FIND, DICT_ADD, BW_FINISH and BR_READ write RESULT (10_state R29), and SOFT_RESET, which resets every
register (46_control R154). -/
def Obligations.OnlyPrimitivesWriteResult : Prop :=
  (∀ s t : State, engineTurn s = .next t → t.result = s.result) ∧
  ∀ (i : Instr) (s t : State), exec i s = .next t → t.result ≠ s.result →
    (∃ p e, i = .dictFind p e) ∨ (∃ p e, i = .dictAdd p e) ∨ i = .bwFinish ∨ (∃ w, i = .brRead w) ∨ i = .softReset

/-! ### Host accesses (20_memory) -/

/-- R53, 10_state R21: a read of a register returns its value and changes nothing of the block; a write stores an RW
register unless BUSY = 1, issues a command at CMD, and is ignored at an RO register. A read of FSM returns the number that
10_state R20 gives the engine state. -/
def Obligations.RegisterAccesses : Prop :=
  ∀ s : State,
    (∀ x ∈ [(0x00, 0#32), (0x04, s.status.toWord), (0x08, s.inLen), (0x0C, s.inBits), (0x10, s.outCap),
        (0x14, s.outLen), (0x18, s.outBits), (0x1C, s.result), (0x20, s.dictSize.setWidth 32),
        (0x24, s.codeWidth.setWidth 32), (0x28, (peekWidth s.dictSize s.codeWidth).setWidth 32), (0x2C, s.wcur),
        (0x30, s.rcur), (0x34, s.dictResets), (0x38, s.codes), (0x3C, s.lastProbes.setWidth 32),
        (0x40, s.fsm.toBits.setWidth 32), (0x44, s.ipos), (0x48, 0x4C5A5701#32), (0x4C, s.pfx.setWidth 32)],
      hostAccess (.readWord (s.params.base + x.1)) s = .next { s with readData := x.2 }) ∧
    (∀ x ∈ [(Fsm.idle, 0#32), (Fsm.encMatch, 1#32), (Fsm.encFlush, 2#32), (Fsm.decFirst, 3#32), (Fsm.decLoop, 4#32)],
      s.fsm = x.1 → hostAccess (.readWord (s.params.base + 0x40)) s = .next { s with readData := x.2 }) ∧
    (∀ v, hostAccess (.writeWord s.params.base v) s = issue v s) ∧
    (∀ v, s.status.busy = false →
      hostAccess (.writeWord (s.params.base + 0x08) v) s = .next { s with inLen := v } ∧
      hostAccess (.writeWord (s.params.base + 0x0C) v) s = .next { s with inBits := v } ∧
      hostAccess (.writeWord (s.params.base + 0x10) v) s = .next { s with outCap := v }) ∧
    (∀ v, s.status.busy = true →
      ∀ off ∈ [0x08, 0x0C, 0x10], hostAccess (.writeWord (s.params.base + off) v) s = .next s) ∧
    ∀ v, ∀ off ∈ [0x04, 0x14, 0x18, 0x1C, 0x20, 0x24, 0x28, 0x2C, 0x30, 0x34, 0x38, 0x3C, 0x40, 0x44, 0x48, 0x4C],
      hostAccess (.writeWord (s.params.base + off) v) s = .next s

/-- 10_state R42, 20_memory R52: reserved register offsets and the reserved regions of the window read 0 and ignore writes.
In a reserved region a word access has any alignment and lies in it whole (log 10); at a reserved register offset only
word accesses are taken (log 9). -/
def Obligations.ReservedOffsetsReadZero : Prop :=
  ∀ (s : State) (off : Nat),
    (0x50 ≤ off → off ≤ 0xFFC → off % 4 = 0 →
      hostAccess (.readWord (s.params.base + off)) s = .next { s with readData := 0#32 } ∧
      ∀ v, hostAccess (.writeWord (s.params.base + off) v) s = .next s) ∧
    ((0x1000 ≤ off ∧ off < 0x1000000) ∨ (0x3000000 ≤ off ∧ off < 0x4000000) →
      hostAccess (.readByte (s.params.base + off)) s = .next { s with readData := 0#32 } ∧
      ∀ v, hostAccess (.writeByte (s.params.base + off) v) s = .next s) ∧
    ((0x1000 ≤ off ∧ off + 4 ≤ 0x1000000) ∨ (0x3000000 ≤ off ∧ off + 4 ≤ 0x4000000) →
      hostAccess (.readWord (s.params.base + off)) s = .next { s with readData := 0#32 } ∧
      ∀ v, hostAccess (.writeWord (s.params.base + off) v) s = .next s)

/-- R54: byte accesses to the buffers: a read returns the byte, or 0 at or past the capacity, and changes nothing of the
block; a write stores the byte while BUSY = 0 below the capacity, and is ignored otherwise. -/
def Obligations.BufferByteAccesses : Prop :=
  ∀ (s : State) (a : Nat) (v : Byte), a < 2 ^ 24 →
    hostAccess (.readByte (s.params.base + 0x1000000 + a)) s
      = .next { s with readData := (if a < s.params.ibufCap then s.ibuf.read a else 0#8).setWidth 32 } ∧
    hostAccess (.readByte (s.params.base + 0x2000000 + a)) s
      = .next { s with readData := (if a < s.params.obufCap then s.obuf.read a else 0#8).setWidth 32 } ∧
    (s.ibuf.wf → ∃ m : Memory,
      hostAccess (.writeByte (s.params.base + 0x1000000 + a) v) s = .next { s with ibuf := m } ∧
      ∀ b, m.read b = if b = a ∧ a < s.params.ibufCap ∧ s.status.busy = false then v else s.ibuf.read b) ∧
    (s.obuf.wf → ∃ m : Memory,
      hostAccess (.writeByte (s.params.base + 0x2000000 + a) v) s = .next { s with obuf := m } ∧
      ∀ b, m.read b = if b = a ∧ a < s.params.obufCap ∧ s.status.busy = false then v else s.obuf.read b)

/-- 20_memory R55: the model refuses an access to the register block that is not 32 bits wide or not 4-aligned (at its
reserved offsets too, log 9), a buffer access that is not 8 bits wide, an access of a width other than 8 or 32 bits
anywhere in the window (in its reserved regions too, log 7), a word access that starts in a reserved region and reaches a
buffer or the end of the window (log 10), and every access outside the window (log 8). -/
def Obligations.UnsupportedAccessesRefused : Prop :=
  ∀ s : State,
    (∀ off, off < 0x1000 → ∀ v,
      hostAccess (.readByte (s.params.base + off)) s = .refused .unsupportedAccess ∧
      hostAccess (.writeByte (s.params.base + off) v) s = .refused .unsupportedAccess) ∧
    (∀ off, off < 0x1000 ∧ off % 4 ≠ 0 ∨ 0x1000000 ≤ off ∧ off < 0x3000000 → ∀ v,
      hostAccess (.readWord (s.params.base + off)) s = .refused .unsupportedAccess ∧
      hostAccess (.writeWord (s.params.base + off) v) s = .refused .unsupportedAccess) ∧
    (∀ off bits, off < 0x4000000 → bits ≠ 8 → bits ≠ 32 → ∀ v,
      hostAccess (.readOther bits (s.params.base + off)) s = .refused .unsupportedAccess ∧
      hostAccess (.writeOther bits (s.params.base + off) v) s = .refused .unsupportedAccess) ∧
    (∀ off, 0xFFFFFD ≤ off ∧ off < 0x1000000 ∨ 0x3FFFFFD ≤ off ∧ off < 0x4000000 → ∀ v,
      hostAccess (.readWord (s.params.base + off)) s = .refused .unsupportedAccess ∧
      hostAccess (.writeWord (s.params.base + off) v) s = .refused .unsupportedAccess) ∧
    ∀ addr, addr < s.params.base ∨ s.params.base + 0x4000000 ≤ addr →
      hostAccess (.readByte addr) s = .refused .outsideWindow ∧
      hostAccess (.readWord addr) s = .refused .outsideWindow ∧
      (∀ v, hostAccess (.writeByte addr v) s = .refused .outsideWindow) ∧
      (∀ v, hostAccess (.writeWord addr v) s = .refused .outsideWindow) ∧
      (∀ bits, hostAccess (.readOther bits addr) s = .refused .outsideWindow) ∧
      ∀ bits v, hostAccess (.writeOther bits addr v) s = .refused .outsideWindow
end

