-- ==== Sys2Proof/Laws/Flow.lean ====
section
/-! SUPPORT. How a rule's ending passes through `Flow.bind`, `runCommand` and `runStep`, said once for each. -/

namespace Sys2Proof.Machine

section
variable {α β : Type}

@[simp] theorem Flow.bind_done (a : α) (s : State) (k : α → State → Flow β) : (Flow.done a s).bind k = k a s := rfl

@[simp] theorem Flow.bind_raised (e : ErrCode) (s : State) (k : α → State → Flow β) :
    (Flow.raised e s : Flow α).bind k = .raised e s := rfl

@[simp] theorem Flow.bind_stuck (f : Fault) (k : α → State → Flow β) : (Flow.stuck f : Flow α).bind k = .stuck f := rfl

/-- A sequence runs to its end exactly when both parts do. -/
theorem Flow.bind_eq_done {x : Flow α} {k : α → State → Flow β} {b : β} {t : State} :
    x.bind k = .done b t ↔ ∃ a s, x = .done a s ∧ k a s = .done b t := by
  cases x <;> simp [Flow.bind]

/-- A sequence raises an error exactly when one of its parts does. -/
theorem Flow.bind_eq_raised {x : Flow α} {k : α → State → Flow β} {e : ErrCode} {t : State} :
    x.bind k = .raised e t ↔ x = .raised e t ∨ ∃ a s, x = .done a s ∧ k a s = .raised e t := by
  cases x <;> simp [Flow.bind]

/-- A sequence has no next state exactly when one of its parts has none. -/
theorem Flow.bind_eq_stuck {x : Flow α} {k : α → State → Flow β} {f : Fault} :
    x.bind k = .stuck f ↔ x = .stuck f ∨ ∃ a s, x = .done a s ∧ k a s = .stuck f := by
  cases x <;> simp [Flow.bind]

end

/-- A command written while BUSY = 1 is ignored (46_control R152). -/
theorem runCommand_busy {rule : State → Flow Unit} {s : State} (h : s.status.busy = true) :
    runCommand rule s = .next s := by simp [runCommand, h]

/-- An accepted command whose rule runs to its end. -/
theorem runCommand_done {rule : State → Flow Unit} {s t : State} (h : s.status.busy = false)
    (hr : rule (clearFlags s) = .done () t) :
    runCommand rule s = .next (if t.status.busy then t else setDone t) := by simp [runCommand, h, hr]

/-- An accepted command whose rule raises an error. -/
theorem runCommand_raised {rule : State → Flow Unit} {s t : State} {e : ErrCode} (h : s.status.busy = false)
    (hr : rule (clearFlags s) = .raised e t) : runCommand rule s = .next (errorStop e t) := by
  simp [runCommand, h, hr]

/-- Every way the issue of a command answers a next state. -/
theorem runCommand_next {rule : State → Flow Unit} {s t : State} (h : runCommand rule s = .next t) :
    (s.status.busy = true ∧ t = s) ∨
    (s.status.busy = false ∧
      ((∃ u, rule (clearFlags s) = .done () u ∧ t = if u.status.busy then u else setDone u) ∨
        ∃ e u, rule (clearFlags s) = .raised e u ∧ t = errorStop e u)) := by
  unfold runCommand at h
  split at h
  · rename_i hb; exact .inl ⟨hb, by simpa using h.symm⟩
  · rename_i hb
    refine .inr ⟨by simpa using hb, ?_⟩
    split at h
    · rename_i a u hu; exact .inl ⟨u, hu, by simpa using h.symm⟩
    · rename_i e u hu; exact .inr ⟨e, u, hu, by simpa using h.symm⟩
    · cases h

/-- The only way the issue of a command has no next state: its rule has none. -/
theorem runCommand_not_next {rule : State → Flow Unit} {s : State} :
    (∀ f, runCommand rule s = .fault f → rule (clearFlags s) = .stuck f) ∧ ∀ r, runCommand rule s ≠ .refused r := by
  unfold runCommand
  constructor
  · intro f h
    split at h
    · cases h
    · split at h
      · cases h
      · cases h
      · rename_i g hg; cases h; exact hg
  · intro r h
    split at h
    · cases h
    · split at h <;> cases h

/-- Every way an engine step answers a next state. -/
theorem runStep_next {rule : State → Flow Unit} {s t : State} (h : runStep rule s = .next t) :
    rule s = .done () t ∨ ∃ e u, rule s = .raised e u ∧ t = errorStop e u := by
  unfold runStep at h
  split at h
  · rename_i a u hu; cases h; exact .inl hu
  · rename_i e u hu; cases h; exact .inr ⟨e, u, hu, rfl⟩
  · cases h

/-- The only way an engine step has no next state: its rule has none. -/
theorem runStep_not_next {rule : State → Flow Unit} {s : State} :
    (∀ f, runStep rule s = .fault f → rule s = .stuck f) ∧ ∀ r, runStep rule s ≠ .refused r := by
  unfold runStep
  constructor
  · intro f h
    split at h
    · cases h
    · cases h
    · rename_i g hg; cases h; exact hg
  · intro r h
    split at h <;> cases h

end Sys2Proof.Machine
end

