-- ==== Sys2Proof/Laws/Memory.lean ====
section
/-! SUPPORT. The laws of sparse tables: what a read gives after a write, that every operation keeps the canonical form,
and that canonical tables with equal reads are equal. -/

namespace Sys2Proof.Machine

section
variable {α : Type} {d : α}

@[simp] theorem Sparse.read_nil (d : α) (a : Nat) : Sparse.read d [] a = d := rfl

theorem Sparse.read_cons (d : α) (c : Nat × α) (m : List (Nat × α)) (a : Nat) :
    Sparse.read d (c :: m) a = if c.1 = a then c.2 else Sparse.read d m a := rfl

theorem Sparse.read_eq_default_of_not_listed {m : List (Nat × α)} {a : Nat} (h : ∀ c ∈ m, c.1 ≠ a) :
    Sparse.read d m a = d := by
  induction m with
  | nil => rfl
  | cons c m ih =>
    rw [Sparse.read_cons, if_neg (h c (by simp)), ih fun x hx => h x (by simp [hx])]

theorem Sparse.wf_nil (d : α) : Sparse.Wf d ([] : List (Nat × α)) :=
  ⟨List.Pairwise.nil, by simp⟩

/-- An index with an entry other than `d` is listed with it. -/
theorem Sparse.mem_of_read_ne {m : List (Nat × α)} {a : Nat} (h : Sparse.read d m a ≠ d) :
    (a, Sparse.read d m a) ∈ m := by
  induction m with
  | nil => exact absurd rfl h
  | cons c m ih =>
    rw [Sparse.read_cons] at h ⊢
    split
    · rename_i hk; subst hk; simp
    · rename_i hk; rw [if_neg hk] at h; exact List.mem_cons_of_mem _ (ih h)

/-- A listed entry is read back. -/
theorem Sparse.read_of_mem {m : List (Nat × α)} (hm : Sparse.Wf d m) {c : Nat × α} (h : c ∈ m) :
    Sparse.read d m c.1 = c.2 := by
  induction m with
  | nil => simp at h
  | cons x m ih =>
    obtain ⟨hs, hd⟩ := hm
    rw [List.pairwise_cons] at hs
    rw [Sparse.read_cons]
    rcases List.mem_cons.1 h with rfl | h
    · simp
    · have := hs.1 c h
      rw [if_neg (by omega), ih ⟨hs.2, fun y hy => hd y (by simp [hy])⟩ h]

/-- Canonical tables that read alike are the same data. -/
theorem Sparse.ext_of_read {m n : List (Nat × α)} (hm : Sparse.Wf d m) (hn : Sparse.Wf d n)
    (h : ∀ a, Sparse.read d m a = Sparse.read d n a) : m = n := by
  have sub : ∀ {m n : List (Nat × α)}, Sparse.Wf d m → Sparse.Wf d n →
      (∀ a, Sparse.read d m a = Sparse.read d n a) → ∀ c ∈ m, c ∈ n := by
    intro m n hm hn h c hc
    have hr := Sparse.read_of_mem hm hc
    have hne : Sparse.read d n c.1 ≠ d := by rw [← h, hr]; exact hm.2 c hc
    have := Sparse.mem_of_read_ne hne
    rwa [← h, hr] at this
  have anti : ∀ a b : Nat × α, a ∈ m → b ∈ n → a.1 < b.1 → b.1 < a.1 → a = b := fun a b _ _ h1 h2 => by omega
  have nd : ∀ {m : List (Nat × α)}, Sparse.Wf d m → m.Nodup := fun hm =>
    hm.1.imp fun h e => by rw [e] at h; omega
  exact List.Perm.eq_of_pairwise anti hm.1 hn.1
    ((List.perm_ext_iff_of_nodup (nd hm) (nd hn)).2 fun c => ⟨sub hm hn h c, sub hn hm (fun a => (h a).symm) c⟩)

end

section
variable {α : Type} [DecidableEq α] {d : α}

/-- The stored value is read back. -/
@[simp] theorem Sparse.read_write_same {m : List (Nat × α)} (hm : Sparse.Wf d m) (a : Nat) (v : α) :
    Sparse.read d (Sparse.write d m a v) a = v := by
  induction m with
  | nil => by_cases hv : v = d <;> simp [Sparse.write, hv, Sparse.read]
  | cons c m ih =>
    obtain ⟨hs, hd⟩ := hm
    rw [List.pairwise_cons] at hs
    have hm : Sparse.Wf d m := ⟨hs.2, fun x hx => hd x (by simp [hx])⟩
    have later : a ≤ c.1 → Sparse.read d m a = d := fun h =>
      Sparse.read_eq_default_of_not_listed fun x hx => by have := hs.1 x hx; omega
    obtain ⟨k, x⟩ := c
    simp only [Sparse.write]
    split
    · rename_i hlt
      split
      · rename_i hv; subst hv
        rw [Sparse.read_cons, if_neg (by simp; omega), later (by simp; omega)]
      · simp [Sparse.read_cons]
    · split
      · rename_i hak; subst hak
        split
        · rename_i hv; subst hv; exact later le_rfl
        · simp [Sparse.read_cons]
      · rename_i h1 h2
        rw [Sparse.read_cons, if_neg (by simp; omega), ih hm]

/-- A write leaves every other index alone. -/
theorem Sparse.read_write_other (m : List (Nat × α)) {a b : Nat} (v : α) (h : b ≠ a) :
    Sparse.read d (Sparse.write d m a v) b = Sparse.read d m b := by
  induction m with
  | nil => by_cases hv : v = d <;> simp [Sparse.write, hv, Sparse.read, Ne.symm h]
  | cons c m ih =>
    obtain ⟨k, x⟩ := c
    simp only [Sparse.write]
    split
    · split <;> simp [Sparse.read_cons, Ne.symm h]
    · split
      · rename_i hak; subst hak
        split <;> simp [Sparse.read_cons, Ne.symm h]
      · simp [Sparse.read_cons, ih]

/-- A read after a write, at any index. -/
theorem Sparse.read_write {m : List (Nat × α)} (hm : Sparse.Wf d m) (a : Nat) (v : α) (b : Nat) :
    Sparse.read d (Sparse.write d m a v) b = if b = a then v else Sparse.read d m b := by
  split
  · rename_i h; rw [h, Sparse.read_write_same hm]
  · rename_i h; exact Sparse.read_write_other m v h

/-- An entry of the table after a write is the written one or an old one. -/
theorem Sparse.mem_write {m : List (Nat × α)} {a : Nat} {v : α} {c : Nat × α} (h : c ∈ Sparse.write d m a v) :
    (c = (a, v) ∧ v ≠ d) ∨ c ∈ m := by
  induction m with
  | nil =>
    by_cases hv : v = d
    · simp [Sparse.write, hv] at h
    · simp only [Sparse.write, hv, if_false, List.mem_singleton] at h; exact .inl ⟨h, hv⟩
  | cons x m ih =>
    obtain ⟨k, y⟩ := x
    simp only [Sparse.write] at h
    split at h
    · split at h
      · exact .inr h
      · rename_i hv
        rcases List.mem_cons.1 h with h | h
        · exact .inl ⟨h, hv⟩
        · exact .inr h
    · split at h
      · split at h
        · exact .inr (by simp [h])
        · rename_i hv
          rcases List.mem_cons.1 h with h | h
          · exact .inl ⟨h, hv⟩
          · exact .inr (by simp [h])
      · rcases List.mem_cons.1 h with h | h
        · exact .inr (by simp [h])
        · rcases ih h with h | h
          · exact .inl h
          · exact .inr (by simp [h])

/-- A write keeps the canonical form. -/
theorem Sparse.write_wf {m : List (Nat × α)} (hm : Sparse.Wf d m) (a : Nat) (v : α) :
    Sparse.Wf d (Sparse.write d m a v) := by
  refine ⟨?_, fun c hc => ?_⟩
  · induction m with
    | nil => by_cases hv : v = d <;> simp [Sparse.write, hv]
    | cons x m ih =>
      obtain ⟨hs, hd⟩ := hm
      have hs' := hs
      rw [List.pairwise_cons] at hs
      have hm : Sparse.Wf d m := ⟨hs.2, fun x hx => hd x (by simp [hx])⟩
      obtain ⟨k, y⟩ := x
      simp only [Sparse.write]
      split
      · split
        · exact hs'
        · rename_i hlt _
          refine List.pairwise_cons.2 ⟨fun z hz => ?_, hs'⟩
          rcases List.mem_cons.1 hz with rfl | hz
          · exact hlt
          · have := hs.1 z hz; simp at this ⊢; omega
      · split
        · rename_i hak; subst hak
          split
          · exact hs.2
          · exact List.pairwise_cons.2 ⟨hs.1, hs.2⟩
        · refine List.pairwise_cons.2 ⟨fun z hz => ?_, ih hm⟩
          rcases Sparse.mem_write hz with ⟨rfl, -⟩ | hz
          · simp; omega
          · exact hs.1 z hz
  · rcases Sparse.mem_write hc with ⟨rfl, hv⟩ | hc
    · exact hv
    · exact hm.2 c hc

/-- `Sparse.load` is canonical. -/
theorem Sparse.load_wf (lo hi : Nat) (l : List (Nat × α)) : Sparse.Wf d (Sparse.load d lo hi l) := by
  have gen : ∀ (l m : List (Nat × α)), Sparse.Wf d m →
      Sparse.Wf d (l.foldl (fun m c => if lo ≤ c.1 ∧ c.1 < hi then Sparse.write d m c.1 c.2 else m) m) := by
    intro l
    induction l with
    | nil => exact fun m hm => hm
    | cons c l ih =>
      intro m hm
      rw [List.foldl_cons]
      apply ih
      split
      · exact Sparse.write_wf hm _ _
      · exact hm
  exact gen l [] (Sparse.wf_nil d)

/-- The entries of `Sparse.load` lie in the range. -/
theorem Sparse.load_range {lo hi : Nat} {l : List (Nat × α)} {c : Nat × α} (h : c ∈ Sparse.load d lo hi l) :
    lo ≤ c.1 ∧ c.1 < hi := by
  have gen : ∀ (l m : List (Nat × α)), (∀ c ∈ m, lo ≤ c.1 ∧ c.1 < hi) →
      ∀ c ∈ l.foldl (fun m c => if lo ≤ c.1 ∧ c.1 < hi then Sparse.write d m c.1 c.2 else m) m,
        lo ≤ c.1 ∧ c.1 < hi := by
    intro l
    induction l with
    | nil => exact fun m hm => hm
    | cons x l ih =>
      intro m hm
      rw [List.foldl_cons]
      apply ih
      split
      · rename_i hx
        intro c hc
        rcases Sparse.mem_write hc with ⟨rfl, -⟩ | hc
        · exact hx
        · exact hm c hc
      · exact hm
  exact gen l [] (by simp) c h

end

/-! ### The two byte buffers -/

@[simp] theorem Memory.read_nil (a : Nat) : Memory.read [] a = Memory.blank := rfl

@[simp] theorem Memory.read_write_same {m : Memory} (hm : m.wf) (a : Nat) (v : Byte) :
    (m.write a v).read a = v := Sparse.read_write_same hm a v

theorem Memory.read_write_other (m : Memory) {a b : Nat} (v : Byte) (h : b ≠ a) :
    (m.write a v).read b = m.read b := Sparse.read_write_other m v h

theorem Memory.read_write {m : Memory} (hm : m.wf) (a : Nat) (v : Byte) (b : Nat) :
    (m.write a v).read b = if b = a then v else m.read b := Sparse.read_write hm a v b

/-- Every store keeps the canonical form. -/
theorem Memory.write_wf {m : Memory} (hm : m.wf) (a : Nat) (v : Byte) : (m.write a v).wf := Sparse.write_wf hm a v

/-- A store below `cap` keeps every index below `cap`. -/
theorem Memory.write_below {m : Memory} {cap a : Nat} {v : Byte} (hm : ∀ c ∈ m, c.1 < cap) (ha : a < cap) :
    ∀ c ∈ m.write a v, c.1 < cap := by
  intro c hc
  rcases Sparse.mem_write hc with ⟨rfl, -⟩ | hc
  · exact ha
  · exact hm c hc

/-! ### Slots and sequences -/

theorem slotAt_setSlot {ht : List (Nat × Slot)} (h : Sparse.Wf Slot.blank ht) (i j : SlotIdx) (x : Slot) :
    slotAt (setSlot ht i x) j = if j = i then x else slotAt ht j := by
  unfold slotAt setSlot
  rw [Sparse.read_write h]
  congr 1
  exact propext (BitVec.toNat_inj)

theorem setSlot_wf {ht : List (Nat × Slot)} (h : Sparse.Wf Slot.blank ht) (i : SlotIdx) (x : Slot) :
    Sparse.Wf Slot.blank (setSlot ht i x) := Sparse.write_wf h _ _

theorem seqAt_setSeq {st : List (Nat × ByteSeq)} (h : Sparse.Wf ByteSeq.blank st) (c b : Nat) (x : ByteSeq) :
    seqAt (setSeq st c x) b = if b = c then x else seqAt st b := Sparse.read_write h c x b

theorem setSeq_wf {st : List (Nat × ByteSeq)} (h : Sparse.Wf ByteSeq.blank st) (c : Nat) (x : ByteSeq) :
    Sparse.Wf ByteSeq.blank (setSeq st c x) := Sparse.write_wf h c x

theorem mem_clearOcc {ht : List (Nat × Slot)} {c : Nat × Slot} (h : c ∈ clearOcc ht) :
    c.2.occ = false ∧ ∃ x ∈ ht, x.1 = c.1 := by
  unfold clearOcc at h
  rw [List.mem_filter] at h
  obtain ⟨x, hx, rfl⟩ := List.mem_map.1 h.1
  exact ⟨rfl, x, hx, rfl⟩

theorem clearOcc_wf {ht : List (Nat × Slot)} (h : Sparse.Wf Slot.blank ht) : Sparse.Wf Slot.blank (clearOcc ht) := by
  refine ⟨?_, fun c hc => ?_⟩
  · exact (List.pairwise_map (f := fun c : Nat × Slot => (c.1, c.2.vacated)).2 h.1).filter _
  · exact of_decide_eq_true (List.mem_filter.1 hc).2

/-- After `clearOcc` no slot is occupied and the other fields are as before. -/
theorem slotAt_clearOcc (ht : List (Nat × Slot)) (i : SlotIdx) (h : Sparse.Wf Slot.blank ht) :
    slotAt (clearOcc ht) i = (slotAt ht i).vacated := by
  obtain ⟨hs, -⟩ := h
  unfold slotAt
  induction ht with
  | nil => rfl
  | cons c ht ih =>
    rw [List.pairwise_cons] at hs
    have skip : ∀ {m : List (Nat × Slot)}, (∀ x ∈ m, c.1 < x.1) → c.1 = i.toNat →
        Sparse.read Slot.blank m i.toNat = Slot.blank := fun hm e =>
      Sparse.read_eq_default_of_not_listed fun x hx => by have := hm x hx; omega
    rw [Sparse.read_cons]
    have later : ∀ x ∈ clearOcc ht, c.1 < x.1 := fun x hx => by
      obtain ⟨-, y, hy, e⟩ := mem_clearOcc hx
      exact e ▸ hs.1 y hy
    have hcons : clearOcc (c :: ht)
        = if c.2.vacated = Slot.blank then clearOcc ht
          else (c.1, c.2.vacated) :: clearOcc ht := by
      unfold clearOcc
      by_cases hb : c.2.vacated = Slot.blank
      · rw [if_pos hb, List.map_cons, List.filter_cons_of_neg]
        simp [hb]
      · rw [if_neg hb, List.map_cons, List.filter_cons_of_pos]
        exact decide_eq_true hb
    rw [hcons]
    by_cases hb : c.2.vacated = Slot.blank
    · rw [if_pos hb]
      split
      · rename_i e; rw [skip later e, hb]
      · exact ih hs.2
    · rw [if_neg hb, Sparse.read_cons]
      split
      · rfl
      · exact ih hs.2

theorem clearOcc_occ (ht : List (Nat × Slot)) (i : SlotIdx) : (slotAt (clearOcc ht) i).occ = false := by
  unfold slotAt
  by_cases h : Sparse.read Slot.blank (clearOcc ht) i.toNat = Slot.blank
  · rw [h]; rfl
  · exact (mem_clearOcc (Sparse.mem_of_read_ne h)).1

end Sys2Proof.Machine
end

