-- ==== Sys2Proof/Laws/Bits.lean ====
section
/-! SUPPORT. The bits of the buffers: what bwWrite, bwFinish and brRead do to them and how they end (42_bitwriter R108 to
R110, 43_bitreader R116). -/

namespace Sys2Proof.Machine

/-! ### One bit of a byte -/

/-- Setting the bit of one stream position of a byte changes no other bit of it (20_memory R56). -/
theorem streamBit_setStreamBit (b : Byte) (p q : Nat) (v : Bool) :
    streamBit (setStreamBit b p v) q = if q % 8 = p % 8 then v else streamBit b q := by
  unfold streamBit setStreamBit
  have hp : 7 - p % 8 < 8 := by omega
  have hq : 7 - q % 8 < 8 := by omega
  have key : (1#8 <<< (7 - p % 8)).getLsbD (7 - q % 8) = decide (q % 8 = p % 8) := by
    rw [BitVec.getLsbD_shiftLeft, BitVec.getLsbD_one]
    by_cases h : q % 8 = p % 8
    · simp [h]; omega
    · simp [h]; intros; omega
  split
  · rename_i hv
    rw [BitVec.getLsbD_or, key]
    split <;> simp_all
  · rename_i hv
    rw [BitVec.getLsbD_and, BitVec.getLsbD_not, key]
    split <;> simp_all

theorem streamBit_zero (q : Nat) : streamBit 0#8 q = false := by simp [streamBit]

/-! ### bwWrite -/

/-- One round of bwWrite's loop inside the buffer: the bit is stored, a byte it enters is 0 elsewhere, and nothing else
changes (42_bitwriter R108). -/
theorem bwPutBit_run {s : State} {v : Bool} (hw : s.obuf.wf) (hcap : s.wcur.toNat / 8 < s.params.obufCap) :
    ∃ m : Memory, bwPutBit v s = .done () { s with obuf := m, wcur := s.wcur + 1#32 } ∧ m.wf ∧
      (∀ a, a ≠ s.wcur.toNat / 8 → m.read a = s.obuf.read a) ∧
      ((∀ c ∈ s.obuf, c.1 < s.params.obufCap) → ∀ c ∈ m, c.1 < s.params.obufCap) ∧
      ∀ q, bufBit m q =
        if q = s.wcur.toNat then v
        else if q / 8 = s.wcur.toNat / 8 ∧ s.wcur.toNat % 8 = 0 then false
        else bufBit s.obuf q := by
  refine ⟨_, by simp [bwPutBit, obufRead, obufWrite, hcap]; rfl, Memory.write_wf hw _ _,
    fun a ha => Memory.read_write_other _ _ ha, fun h => Memory.write_below h hcap, fun q => ?_⟩
  unfold bufBit
  by_cases hq : q / 8 = s.wcur.toNat / 8
  · rw [hq, Memory.read_write_same hw, streamBit_setStreamBit]
    by_cases he : q = s.wcur.toNat
    · simp [he]
    · rw [if_neg (by omega), if_neg he]
      by_cases h0 : s.wcur.toNat % 8 = 0
      · simp [h0, streamBit_zero]
      · simp [h0]
  · rw [Memory.read_write_other _ _ hq, if_neg (by rintro rfl; exact hq rfl), if_neg (by simp [hq])]

/-- bwWrite's loop inside the buffer: the n bits stand at positions WCUR to WCUR + n - 1, a byte the cursor entered is 0
after them, every other bit is as before, and no other state changes (42_bitwriter R108). -/
theorem bwPutBits_run {code : Code} {n : Nat} {s : State} (hw : s.obuf.wf)
    (hcap : s.wcur.toNat + n ≤ 8 * s.params.obufCap) (h32 : s.wcur.toNat + n < 2 ^ 32) :
    ∃ m : Memory, bwPutBits code n s = .done () { s with obuf := m, wcur := s.wcur + BitVec.ofNat 32 n } ∧ m.wf ∧
      (∀ a, (∀ q, s.wcur.toNat ≤ q → q < s.wcur.toNat + n → a ≠ q / 8) → m.read a = s.obuf.read a) ∧
      ((∀ c ∈ s.obuf, c.1 < s.params.obufCap) → ∀ c ∈ m, c.1 < s.params.obufCap) ∧
      ∀ q, bufBit m q =
        if q < s.wcur.toNat then bufBit s.obuf q
        else if q < s.wcur.toNat + n then code.getLsbD (s.wcur.toNat + n - 1 - q)
        else if s.wcur.toNat ≤ q / 8 * 8 ∧ q / 8 * 8 < s.wcur.toNat + n then false
        else bufBit s.obuf q := by
  induction n generalizing s with
  | zero =>
    refine ⟨s.obuf, by simp [bwPutBits], hw, fun _ _ => rfl, fun h => h, fun q => ?_⟩
    split
    · rfl
    · rw [if_neg (by omega), if_neg (by omega)]
  | succ n ih =>
    obtain ⟨m, hm, hmw, hma, hmb, hmq⟩ := bwPutBit_run (v := code.getLsbD n) hw (by omega)
    have h1 : (s.wcur + 1#32).toNat = s.wcur.toNat + 1 := by
      rw [BitVec.toNat_add]; simp; omega
    obtain ⟨k, hk, hkw, hka, hkb, hkq⟩ :=
      ih (s := { s with obuf := m, wcur := s.wcur + 1#32 }) hmw (by simp only [h1]; omega) (by simp only [h1]; omega)
    refine ⟨k, ?_, hkw, fun a ha => ?_, fun h => hkb (hmb h), fun q => ?_⟩
    · simp only [bwPutBits, hm, Flow.bind_done, hk]
      congr 2
      rw [BitVec.add_assoc]
      congr 1
      apply BitVec.eq_of_toNat_eq
      simp only [BitVec.toNat_add, BitVec.toNat_ofNat]
      omega
    · rw [hka a fun q hq hq' => ha q (by simp only [h1] at hq; omega) (by simp only [h1] at hq'; omega)]
      exact hma a (ha _ le_rfl (by omega))
    · rw [hkq q]
      simp only [h1, hmq q]
      split_ifs <;> first | rfl | omega | (congr 1; omega)

/-- Every way bwWrite's loop ends: only OBUF and WCUR change, it raises nothing, and it stops only at the end of OBUF. -/
theorem bwPutBits_cases (code : Code) (n : Nat) (s : State) :
    (∃ m : Memory, bwPutBits code n s = .done () { s with obuf := m, wcur := s.wcur + BitVec.ofNat 32 n }) ∨
      bwPutBits code n s = .stuck .obufBound := by
  induction n generalizing s with
  | zero => exact .inl ⟨s.obuf, by simp [bwPutBits]⟩
  | succ n ih =>
    by_cases hc : s.wcur.toNat / 8 < s.params.obufCap
    · obtain ⟨m, hm⟩ : ∃ m : Memory, bwPutBit (code.getLsbD n) s = .done () { s with obuf := m, wcur := s.wcur + 1#32 } :=
        ⟨_, by simp [bwPutBit, obufRead, obufWrite, hc]; rfl⟩
      rcases ih { s with obuf := m, wcur := s.wcur + 1#32 } with ⟨k, hk⟩ | hk
      · refine .inl ⟨k, ?_⟩
        simp only [bwPutBits, hm, Flow.bind_done, hk]
        congr 2
        rw [BitVec.add_assoc]
        congr 1
        apply BitVec.eq_of_toNat_eq
        simp only [BitVec.toNat_add, BitVec.toNat_ofNat]
        omega
      · exact .inr (by simp only [bwPutBits, hm, Flow.bind_done, hk])
    · exact .inr (by simp [bwPutBits, bwPutBit, obufRead, hc])

/-- Every way `bwWrite` ends (42_bitwriter R108). -/
theorem bwWrite_cases (code : Code) (w : Nat) (s : State) :
    (bwWrite code w s = .raised .outputOverflow s ∧ s.outCap.toNat < ceil8 (s.wcur.toNat + w)) ∨
      (ceil8 (s.wcur.toNat + w) ≤ s.outCap.toNat ∧ bwWrite code w s = bwPutBits code w s) := by
  unfold bwWrite
  by_cases h : s.outCap.toNat < ceil8 (s.wcur.toNat + w)
  · exact .inl ⟨if_pos h, h⟩
  · exact .inr ⟨by omega, if_neg h⟩

/-! ### bwFinish -/

/-- The pad mask keeps the first r bits of a byte (42_bitwriter R110). -/
theorem streamBit_and_padMask (b : Byte) (r q : Nat) :
    streamBit (b &&& padMask r) q = if q % 8 < r then streamBit b q else false := by
  unfold streamBit padMask
  rw [BitVec.getLsbD_and, BitVec.getLsbD_shiftLeft]
  have hff : ∀ i, i < 8 → (0xFF#8).getLsbD i = true := by decide
  by_cases h : q % 8 < r
  · rw [if_pos h, hff _ (by omega)]
    simp; intro _; omega
  · rw [if_neg h]
    simp; intros; omega

/-- `bwFinish` at a whole byte changes nothing (42_bitwriter R110, R114). -/
theorem bwFinish_whole {s : State} (h : s.wcur.toNat % 8 = 0) :
    bwFinish s = .done (BitVec.ofNat 32 (ceil8 s.wcur.toNat)) s := by simp [bwFinish, h]

/-- `bwFinish` inside a byte: the bits of that byte from WCUR on become 0, and no other state changes
(42_bitwriter R110). -/
theorem bwFinish_partial {s : State} (hw : s.obuf.wf) (h : s.wcur.toNat % 8 ≠ 0)
    (hcap : s.wcur.toNat / 8 < s.params.obufCap) :
    ∃ m : Memory, bwFinish s = .done (BitVec.ofNat 32 (ceil8 s.wcur.toNat)) { s with obuf := m } ∧ m.wf ∧
      (∀ a, a ≠ s.wcur.toNat / 8 → m.read a = s.obuf.read a) ∧
      ((∀ c ∈ s.obuf, c.1 < s.params.obufCap) → ∀ c ∈ m, c.1 < s.params.obufCap) ∧
      ∀ q, bufBit m q = if q / 8 = s.wcur.toNat / 8 ∧ s.wcur.toNat ≤ q then false else bufBit s.obuf q := by
  refine ⟨_, by simp [bwFinish, h, obufRead, obufWrite, hcap]; rfl, Memory.write_wf hw _ _,
    fun a ha => Memory.read_write_other _ _ ha, fun hb => Memory.write_below hb hcap, fun q => ?_⟩
  unfold bufBit
  by_cases hq : q / 8 = s.wcur.toNat / 8
  · rw [hq, Memory.read_write_same hw, streamBit_and_padMask]
    by_cases hl : s.wcur.toNat ≤ q
    · rw [if_neg (by omega), if_pos ⟨rfl, hl⟩]
    · rw [if_pos (by omega), if_neg (by omega)]
  · rw [Memory.read_write_other _ _ hq, if_neg (by simp [hq])]

/-- Every way `bwFinish` ends: only OBUF may change. -/
theorem bwFinish_cases (s : State) :
    (∃ m : Memory, bwFinish s = .done (BitVec.ofNat 32 (ceil8 s.wcur.toNat)) { s with obuf := m }) ∨
      (bwFinish s = .stuck .obufBound ∧ s.wcur.toNat % 8 ≠ 0 ∧ s.params.obufCap ≤ s.wcur.toNat / 8) := by
  by_cases h : s.wcur.toNat % 8 = 0
  · exact .inl ⟨s.obuf, bwFinish_whole h⟩
  · by_cases hc : s.wcur.toNat / 8 < s.params.obufCap
    · exact .inl ⟨_, by simp [bwFinish, h, obufRead, obufWrite, hc]; rfl⟩
    · exact .inr ⟨by simp [bwFinish, h, obufRead, hc], h, by omega⟩

/-! ### brRead -/

/-- brRead's loop inside the buffer: the n bits from RCUR on, the most significant first, follow the bits of `v`, and only
RCUR changes (43_bitreader R116). -/
theorem brGetBits_run {n : Nat} {v : Code} {s : State} (hcap : s.rcur.toNat + n ≤ 8 * s.params.ibufCap)
    (h32 : s.rcur.toNat + n < 2 ^ 32) :
    ∃ r : Code, brGetBits n v s = .done r { s with rcur := s.rcur + BitVec.ofNat 32 n } ∧
      ∀ j < 16, r.getLsbD j = if j < n then bufBit s.ibuf (s.rcur.toNat + n - 1 - j) else v.getLsbD (j - n) := by
  induction n generalizing s v with
  | zero => exact ⟨v, by simp [brGetBits], fun j _ => by simp⟩
  | succ n ih =>
    have h1 : (s.rcur + 1#32).toNat = s.rcur.toNat + 1 := by
      rw [BitVec.toNat_add]; simp; omega
    have hlt : s.rcur.toNat / 8 < s.params.ibufCap := by omega
    obtain ⟨r, hr, hbits⟩ :=
      ih (s := { s with rcur := s.rcur + 1#32 })
        (v := (v <<< 1) ||| (BitVec.ofBool (streamBit (s.ibuf.read (s.rcur.toNat / 8)) s.rcur.toNat)).setWidth 16)
        (by simp only [h1]; omega) (by simp only [h1]; omega)
    refine ⟨r, ?_, fun j hj => ?_⟩
    · simp only [brGetBits, ibufRead, hlt, if_true, Flow.bind_done, hr]
      congr 2
      rw [BitVec.add_assoc]
      congr 1
      apply BitVec.eq_of_toNat_eq
      simp only [BitVec.toNat_add, BitVec.toNat_ofNat]
      omega
    · rw [hbits j hj, h1]
      by_cases h : j < n
      · rw [if_pos h, if_pos (by omega)]; congr 1; omega
      · rw [if_neg h]
        by_cases he : j = n
        · subst he
          rw [if_pos (by omega)]
          simp [bufBit]
        · rw [if_neg (by omega), BitVec.getLsbD_or, BitVec.getLsbD_shiftLeft, BitVec.getLsbD_setWidth]
          have : (BitVec.ofBool (streamBit (s.ibuf.read (s.rcur.toNat / 8)) s.rcur.toNat)).getLsbD (j - n) = false :=
            BitVec.getLsbD_of_ge _ _ (by omega)
          rw [this]
          have e : j - (n + 1) = j - n - 1 := by omega
          simp [e]
          intros
          omega

/-- Every way brRead's loop ends: only RCUR changes, it raises nothing, and it stops only at the end of IBUF. -/
theorem brGetBits_cases (n : Nat) (v : Code) (s : State) :
    (∃ r : Code, brGetBits n v s = .done r { s with rcur := s.rcur + BitVec.ofNat 32 n }) ∨
      brGetBits n v s = .stuck .ibufBound := by
  induction n generalizing s v with
  | zero => exact .inl ⟨v, by simp [brGetBits]⟩
  | succ n ih =>
    by_cases hc : s.rcur.toNat / 8 < s.params.ibufCap
    · rcases ih ((v <<< 1) ||| (BitVec.ofBool (streamBit (s.ibuf.read (s.rcur.toNat / 8)) s.rcur.toNat)).setWidth 16)
          { s with rcur := s.rcur + 1#32 } with ⟨k, hk⟩ | hk
      · refine .inl ⟨k, ?_⟩
        simp only [brGetBits, ibufRead, hc, if_true, Flow.bind_done, hk]
        congr 2
        rw [BitVec.add_assoc]
        congr 1
        apply BitVec.eq_of_toNat_eq
        simp only [BitVec.toNat_add, BitVec.toNat_ofNat]
        omega
      · exact .inr (by simp only [brGetBits, ibufRead, hc, if_true, Flow.bind_done, hk])
    · exact .inr (by simp [brGetBits, ibufRead, hc])

/-- Every way `brRead` ends (43_bitreader R116). -/
theorem brRead_cases (w : Nat) (s : State) :
    (brRead w s = .raised .truncated s ∧ s.inBits.toNat - s.rcur.toNat < w) ∨
      (w ≤ s.inBits.toNat - s.rcur.toNat ∧ brRead w s = brGetBits w 0#16 s) := by
  unfold brRead
  by_cases h : s.inBits.toNat - s.rcur.toNat < w
  · exact .inl ⟨if_pos h, h⟩
  · exact .inr ⟨by omega, if_neg h⟩

end Sys2Proof.Machine
end

