-- ==== Sys2Proof/Laws/Bus.lean ====
section
/-! SUPPORT. The window and its regions (20_memory R51), and the shared operations of the bus, one lemma each. -/

namespace Sys2Proof.Machine

/-- An address inside the window is taken at its offset. -/
theorem inWindow_at {s : State} {off : Nat} (h : off < 2 ^ 26) (k : Nat → Host.Outcome State Fault Refusal) :
    inWindow (s.params.base + off) s k = k off := by
  unfold inWindow windowOffset Config.windowSize
  rw [if_pos (by omega), Nat.add_sub_cancel_left]

/-- The first address of the window. -/
theorem inWindow_base (s : State) (k : Nat → Host.Outcome State Fault Refusal) :
    inWindow s.params.base s k = k 0 := inWindow_at (off := 0) (by norm_num) k

/-- An address outside the window is refused. -/
theorem inWindow_outside {s : State} {addr : Nat} (h : addr < s.params.base ∨ s.params.base + 2 ^ 26 ≤ addr)
    (k : Nat → Host.Outcome State Fault Refusal) : inWindow addr s k = .refused .outsideWindow := by
  unfold inWindow windowOffset Config.windowSize
  rw [if_neg (by omega)]

theorem regionOf_regs {off : Nat} (h : off < 0x1000) : regionOf off = .regs off := if_pos h

theorem regionOf_ibuf {a : Nat} (h : a < 2 ^ 24) : regionOf (0x1000000 + a) = .ibuf a := by
  unfold regionOf
  rw [if_neg (by omega), if_neg (by omega), if_pos (by omega), Nat.add_sub_cancel_left]

theorem regionOf_obuf {a : Nat} (h : a < 2 ^ 24) : regionOf (0x2000000 + a) = .obuf a := by
  unfold regionOf
  rw [if_neg (by omega), if_neg (by omega), if_neg (by omega), if_pos (by omega), Nat.add_sub_cancel_left]

theorem regionOf_reserved {off : Nat} (h : (0x1000 ≤ off ∧ off < 0x1000000) ∨ 0x3000000 ≤ off) :
    regionOf off = .reserved := by
  unfold regionOf
  rcases h with h | h
  · rw [if_neg (by omega), if_pos h.2]
  · rw [if_neg (by omega), if_neg (by omega), if_neg (by omega), if_neg (by omega)]

/-- The host's store of a word to CMD issues the word. -/
theorem hostAccess_cmd (v : Word) (s : State) : hostAccess (.writeWord s.params.base v) s = issue v s := by
  show inWindow s.params.base s (fun off => writeWordAt off v s) = _
  rw [inWindow_base]
  rfl

/-- Everything a register write can do (20_memory R53): issue a command at CMD, store an RW register while BUSY = 0, or
nothing. -/
theorem writeReg_cases (r : RegName) (v : Word) (s : State) :
    (r = .cmd ∧ writeReg r v s = issue v s) ∨
    (s.status.busy = false ∧
      ((r = .inLen ∧ writeReg r v s = .next { s with inLen := v }) ∨
        (r = .inBits ∧ writeReg r v s = .next { s with inBits := v }) ∨
        (r = .outCap ∧ writeReg r v s = .next { s with outCap := v }))) ∨
    writeReg r v s = .next s := by
  cases hb : s.status.busy <;> cases r <;> simp [writeReg, hb]

/-- The engine does nothing while BUSY = 0 (46_control R150). -/
theorem engineTurn_idle {s : State} (h : s.status.busy = false) : engineTurn s = .next s := by simp [engineTurn, h]

/-- While BUSY = 1 the engine runs the rule of the FSM state (46_control R150). -/
theorem engineTurn_busy {s : State} (h : s.status.busy = true) :
    (s.fsm = .idle ∧ engineTurn s = .fault .noEngineRule) ∨
    (s.fsm = .encMatch ∧ engineTurn s = runStep encMatchRule s) ∨
    (s.fsm = .encFlush ∧ engineTurn s = runStep encFlushRule s) ∨
    (s.fsm = .decFirst ∧ engineTurn s = runStep decFirstRule s) ∨
    (s.fsm = .decLoop ∧ engineTurn s = runStep decLoopRule s) := by
  cases hf : s.fsm <;> simp [engineTurn, h, hf]

end Sys2Proof.Machine
end

