-- ==== Sys2Proof/Laws/State.lean ====
section
/-! SUPPORT. For each named update of State, what each field holds after it: one lemma a field, true by unfolding the
update once. -/

namespace Sys2Proof.Machine

/-! ### `clearFlags` (46_control R148) -/

@[simp] theorem clearFlags_params (s : State) : (clearFlags s).params = s.params := rfl
@[simp] theorem clearFlags_status (s : State) :
    (clearFlags s).status
      = { busy := s.status.busy, done := false, err := false, empty := false, errCode := .none } := rfl
@[simp] theorem clearFlags_inLen (s : State) : (clearFlags s).inLen = s.inLen := rfl
@[simp] theorem clearFlags_inBits (s : State) : (clearFlags s).inBits = s.inBits := rfl
@[simp] theorem clearFlags_outCap (s : State) : (clearFlags s).outCap = s.outCap := rfl
@[simp] theorem clearFlags_outLen (s : State) : (clearFlags s).outLen = s.outLen := rfl
@[simp] theorem clearFlags_outBits (s : State) : (clearFlags s).outBits = s.outBits := rfl
@[simp] theorem clearFlags_result (s : State) : (clearFlags s).result = s.result := rfl
@[simp] theorem clearFlags_dictSize (s : State) : (clearFlags s).dictSize = s.dictSize := rfl
@[simp] theorem clearFlags_codeWidth (s : State) : (clearFlags s).codeWidth = s.codeWidth := rfl
@[simp] theorem clearFlags_wcur (s : State) : (clearFlags s).wcur = s.wcur := rfl
@[simp] theorem clearFlags_rcur (s : State) : (clearFlags s).rcur = s.rcur := rfl
@[simp] theorem clearFlags_dictResets (s : State) : (clearFlags s).dictResets = s.dictResets := rfl
@[simp] theorem clearFlags_codes (s : State) : (clearFlags s).codes = s.codes := rfl
@[simp] theorem clearFlags_lastProbes (s : State) : (clearFlags s).lastProbes = s.lastProbes := rfl
@[simp] theorem clearFlags_fsm (s : State) : (clearFlags s).fsm = s.fsm := rfl
@[simp] theorem clearFlags_ipos (s : State) : (clearFlags s).ipos = s.ipos := rfl
@[simp] theorem clearFlags_pfx (s : State) : (clearFlags s).pfx = s.pfx := rfl
@[simp] theorem clearFlags_prev (s : State) : (clearFlags s).prev = s.prev := rfl
@[simp] theorem clearFlags_ht (s : State) : (clearFlags s).ht = s.ht := rfl
@[simp] theorem clearFlags_st (s : State) : (clearFlags s).st = s.st := rfl
@[simp] theorem clearFlags_ibuf (s : State) : (clearFlags s).ibuf = s.ibuf := rfl
@[simp] theorem clearFlags_obuf (s : State) : (clearFlags s).obuf = s.obuf := rfl
@[simp] theorem clearFlags_inputs (s : State) : (clearFlags s).inputs = s.inputs := rfl
@[simp] theorem clearFlags_readData (s : State) : (clearFlags s).readData = s.readData := rfl
@[simp] theorem clearFlags_freeCount (s : State) : (clearFlags s).freeCount = s.freeCount := rfl

/-! ### `setDone` (46_control R148) -/

@[simp] theorem setDone_params (s : State) : (setDone s).params = s.params := rfl
@[simp] theorem setDone_status (s : State) :
    (setDone s).status
      = { busy := s.status.busy, done := true, err := s.status.err, empty := s.status.empty, errCode := s.status.errCode } := rfl
@[simp] theorem setDone_inLen (s : State) : (setDone s).inLen = s.inLen := rfl
@[simp] theorem setDone_inBits (s : State) : (setDone s).inBits = s.inBits := rfl
@[simp] theorem setDone_outCap (s : State) : (setDone s).outCap = s.outCap := rfl
@[simp] theorem setDone_outLen (s : State) : (setDone s).outLen = s.outLen := rfl
@[simp] theorem setDone_outBits (s : State) : (setDone s).outBits = s.outBits := rfl
@[simp] theorem setDone_result (s : State) : (setDone s).result = s.result := rfl
@[simp] theorem setDone_dictSize (s : State) : (setDone s).dictSize = s.dictSize := rfl
@[simp] theorem setDone_codeWidth (s : State) : (setDone s).codeWidth = s.codeWidth := rfl
@[simp] theorem setDone_wcur (s : State) : (setDone s).wcur = s.wcur := rfl
@[simp] theorem setDone_rcur (s : State) : (setDone s).rcur = s.rcur := rfl
@[simp] theorem setDone_dictResets (s : State) : (setDone s).dictResets = s.dictResets := rfl
@[simp] theorem setDone_codes (s : State) : (setDone s).codes = s.codes := rfl
@[simp] theorem setDone_lastProbes (s : State) : (setDone s).lastProbes = s.lastProbes := rfl
@[simp] theorem setDone_fsm (s : State) : (setDone s).fsm = s.fsm := rfl
@[simp] theorem setDone_ipos (s : State) : (setDone s).ipos = s.ipos := rfl
@[simp] theorem setDone_pfx (s : State) : (setDone s).pfx = s.pfx := rfl
@[simp] theorem setDone_prev (s : State) : (setDone s).prev = s.prev := rfl
@[simp] theorem setDone_ht (s : State) : (setDone s).ht = s.ht := rfl
@[simp] theorem setDone_st (s : State) : (setDone s).st = s.st := rfl
@[simp] theorem setDone_ibuf (s : State) : (setDone s).ibuf = s.ibuf := rfl
@[simp] theorem setDone_obuf (s : State) : (setDone s).obuf = s.obuf := rfl
@[simp] theorem setDone_inputs (s : State) : (setDone s).inputs = s.inputs := rfl
@[simp] theorem setDone_readData (s : State) : (setDone s).readData = s.readData := rfl
@[simp] theorem setDone_freeCount (s : State) : (setDone s).freeCount = s.freeCount := rfl

/-! ### `setEmpty` (44_encoder R122) -/

@[simp] theorem setEmpty_params (s : State) : (setEmpty s).params = s.params := rfl
@[simp] theorem setEmpty_status (s : State) :
    (setEmpty s).status
      = { busy := s.status.busy, done := s.status.done, err := s.status.err, empty := true, errCode := s.status.errCode } := rfl
@[simp] theorem setEmpty_inLen (s : State) : (setEmpty s).inLen = s.inLen := rfl
@[simp] theorem setEmpty_inBits (s : State) : (setEmpty s).inBits = s.inBits := rfl
@[simp] theorem setEmpty_outCap (s : State) : (setEmpty s).outCap = s.outCap := rfl
@[simp] theorem setEmpty_outLen (s : State) : (setEmpty s).outLen = s.outLen := rfl
@[simp] theorem setEmpty_outBits (s : State) : (setEmpty s).outBits = s.outBits := rfl
@[simp] theorem setEmpty_result (s : State) : (setEmpty s).result = s.result := rfl
@[simp] theorem setEmpty_dictSize (s : State) : (setEmpty s).dictSize = s.dictSize := rfl
@[simp] theorem setEmpty_codeWidth (s : State) : (setEmpty s).codeWidth = s.codeWidth := rfl
@[simp] theorem setEmpty_wcur (s : State) : (setEmpty s).wcur = s.wcur := rfl
@[simp] theorem setEmpty_rcur (s : State) : (setEmpty s).rcur = s.rcur := rfl
@[simp] theorem setEmpty_dictResets (s : State) : (setEmpty s).dictResets = s.dictResets := rfl
@[simp] theorem setEmpty_codes (s : State) : (setEmpty s).codes = s.codes := rfl
@[simp] theorem setEmpty_lastProbes (s : State) : (setEmpty s).lastProbes = s.lastProbes := rfl
@[simp] theorem setEmpty_fsm (s : State) : (setEmpty s).fsm = s.fsm := rfl
@[simp] theorem setEmpty_ipos (s : State) : (setEmpty s).ipos = s.ipos := rfl
@[simp] theorem setEmpty_pfx (s : State) : (setEmpty s).pfx = s.pfx := rfl
@[simp] theorem setEmpty_prev (s : State) : (setEmpty s).prev = s.prev := rfl
@[simp] theorem setEmpty_ht (s : State) : (setEmpty s).ht = s.ht := rfl
@[simp] theorem setEmpty_st (s : State) : (setEmpty s).st = s.st := rfl
@[simp] theorem setEmpty_ibuf (s : State) : (setEmpty s).ibuf = s.ibuf := rfl
@[simp] theorem setEmpty_obuf (s : State) : (setEmpty s).obuf = s.obuf := rfl
@[simp] theorem setEmpty_inputs (s : State) : (setEmpty s).inputs = s.inputs := rfl
@[simp] theorem setEmpty_readData (s : State) : (setEmpty s).readData = s.readData := rfl
@[simp] theorem setEmpty_freeCount (s : State) : (setEmpty s).freeCount = s.freeCount := rfl

/-! ### `startEngine` (44_encoder R122) -/

@[simp] theorem startEngine_params (f : Fsm) (s : State) : (startEngine f s).params = s.params := rfl
@[simp] theorem startEngine_status (f : Fsm) (s : State) :
    (startEngine f s).status
      = { busy := true, done := s.status.done, err := s.status.err, empty := s.status.empty, errCode := s.status.errCode } := rfl
@[simp] theorem startEngine_inLen (f : Fsm) (s : State) : (startEngine f s).inLen = s.inLen := rfl
@[simp] theorem startEngine_inBits (f : Fsm) (s : State) : (startEngine f s).inBits = s.inBits := rfl
@[simp] theorem startEngine_outCap (f : Fsm) (s : State) : (startEngine f s).outCap = s.outCap := rfl
@[simp] theorem startEngine_outLen (f : Fsm) (s : State) : (startEngine f s).outLen = s.outLen := rfl
@[simp] theorem startEngine_outBits (f : Fsm) (s : State) : (startEngine f s).outBits = s.outBits := rfl
@[simp] theorem startEngine_result (f : Fsm) (s : State) : (startEngine f s).result = s.result := rfl
@[simp] theorem startEngine_dictSize (f : Fsm) (s : State) : (startEngine f s).dictSize = s.dictSize := rfl
@[simp] theorem startEngine_codeWidth (f : Fsm) (s : State) : (startEngine f s).codeWidth = s.codeWidth := rfl
@[simp] theorem startEngine_wcur (f : Fsm) (s : State) : (startEngine f s).wcur = s.wcur := rfl
@[simp] theorem startEngine_rcur (f : Fsm) (s : State) : (startEngine f s).rcur = s.rcur := rfl
@[simp] theorem startEngine_dictResets (f : Fsm) (s : State) : (startEngine f s).dictResets = s.dictResets := rfl
@[simp] theorem startEngine_codes (f : Fsm) (s : State) : (startEngine f s).codes = s.codes := rfl
@[simp] theorem startEngine_lastProbes (f : Fsm) (s : State) : (startEngine f s).lastProbes = s.lastProbes := rfl
@[simp] theorem startEngine_fsm (f : Fsm) (s : State) : (startEngine f s).fsm = f := rfl
@[simp] theorem startEngine_ipos (f : Fsm) (s : State) : (startEngine f s).ipos = s.ipos := rfl
@[simp] theorem startEngine_pfx (f : Fsm) (s : State) : (startEngine f s).pfx = s.pfx := rfl
@[simp] theorem startEngine_prev (f : Fsm) (s : State) : (startEngine f s).prev = s.prev := rfl
@[simp] theorem startEngine_ht (f : Fsm) (s : State) : (startEngine f s).ht = s.ht := rfl
@[simp] theorem startEngine_st (f : Fsm) (s : State) : (startEngine f s).st = s.st := rfl
@[simp] theorem startEngine_ibuf (f : Fsm) (s : State) : (startEngine f s).ibuf = s.ibuf := rfl
@[simp] theorem startEngine_obuf (f : Fsm) (s : State) : (startEngine f s).obuf = s.obuf := rfl
@[simp] theorem startEngine_inputs (f : Fsm) (s : State) : (startEngine f s).inputs = s.inputs := rfl
@[simp] theorem startEngine_readData (f : Fsm) (s : State) : (startEngine f s).readData = s.readData := rfl
@[simp] theorem startEngine_freeCount (f : Fsm) (s : State) : (startEngine f s).freeCount = s.freeCount := rfl

/-! ### `complete` (46_control R149) -/

@[simp] theorem complete_params (s : State) : (complete s).params = s.params := rfl
@[simp] theorem complete_status (s : State) :
    (complete s).status
      = { busy := false, done := true, err := s.status.err, empty := s.status.empty, errCode := s.status.errCode } := rfl
@[simp] theorem complete_inLen (s : State) : (complete s).inLen = s.inLen := rfl
@[simp] theorem complete_inBits (s : State) : (complete s).inBits = s.inBits := rfl
@[simp] theorem complete_outCap (s : State) : (complete s).outCap = s.outCap := rfl
@[simp] theorem complete_outLen (s : State) : (complete s).outLen = s.outLen := rfl
@[simp] theorem complete_outBits (s : State) : (complete s).outBits = s.outBits := rfl
@[simp] theorem complete_result (s : State) : (complete s).result = s.result := rfl
@[simp] theorem complete_dictSize (s : State) : (complete s).dictSize = s.dictSize := rfl
@[simp] theorem complete_codeWidth (s : State) : (complete s).codeWidth = s.codeWidth := rfl
@[simp] theorem complete_wcur (s : State) : (complete s).wcur = s.wcur := rfl
@[simp] theorem complete_rcur (s : State) : (complete s).rcur = s.rcur := rfl
@[simp] theorem complete_dictResets (s : State) : (complete s).dictResets = s.dictResets := rfl
@[simp] theorem complete_codes (s : State) : (complete s).codes = s.codes := rfl
@[simp] theorem complete_lastProbes (s : State) : (complete s).lastProbes = s.lastProbes := rfl
@[simp] theorem complete_fsm (s : State) : (complete s).fsm = .idle := rfl
@[simp] theorem complete_ipos (s : State) : (complete s).ipos = s.ipos := rfl
@[simp] theorem complete_pfx (s : State) : (complete s).pfx = s.pfx := rfl
@[simp] theorem complete_prev (s : State) : (complete s).prev = s.prev := rfl
@[simp] theorem complete_ht (s : State) : (complete s).ht = s.ht := rfl
@[simp] theorem complete_st (s : State) : (complete s).st = s.st := rfl
@[simp] theorem complete_ibuf (s : State) : (complete s).ibuf = s.ibuf := rfl
@[simp] theorem complete_obuf (s : State) : (complete s).obuf = s.obuf := rfl
@[simp] theorem complete_inputs (s : State) : (complete s).inputs = s.inputs := rfl
@[simp] theorem complete_readData (s : State) : (complete s).readData = s.readData := rfl
@[simp] theorem complete_freeCount (s : State) : (complete s).freeCount = s.freeCount := rfl

/-! ### `errorStop` (60_exceptions R162) -/

@[simp] theorem errorStop_params (e : ErrCode) (s : State) : (errorStop e s).params = s.params := rfl
@[simp] theorem errorStop_status (e : ErrCode) (s : State) :
    (errorStop e s).status
      = { busy := false, done := false, err := true, empty := false, errCode := e } := rfl
@[simp] theorem errorStop_inLen (e : ErrCode) (s : State) : (errorStop e s).inLen = s.inLen := rfl
@[simp] theorem errorStop_inBits (e : ErrCode) (s : State) : (errorStop e s).inBits = s.inBits := rfl
@[simp] theorem errorStop_outCap (e : ErrCode) (s : State) : (errorStop e s).outCap = s.outCap := rfl
@[simp] theorem errorStop_outLen (e : ErrCode) (s : State) : (errorStop e s).outLen = s.outLen := rfl
@[simp] theorem errorStop_outBits (e : ErrCode) (s : State) : (errorStop e s).outBits = s.outBits := rfl
@[simp] theorem errorStop_result (e : ErrCode) (s : State) : (errorStop e s).result = s.result := rfl
@[simp] theorem errorStop_dictSize (e : ErrCode) (s : State) : (errorStop e s).dictSize = s.dictSize := rfl
@[simp] theorem errorStop_codeWidth (e : ErrCode) (s : State) : (errorStop e s).codeWidth = s.codeWidth := rfl
@[simp] theorem errorStop_wcur (e : ErrCode) (s : State) : (errorStop e s).wcur = s.wcur := rfl
@[simp] theorem errorStop_rcur (e : ErrCode) (s : State) : (errorStop e s).rcur = s.rcur := rfl
@[simp] theorem errorStop_dictResets (e : ErrCode) (s : State) : (errorStop e s).dictResets = s.dictResets := rfl
@[simp] theorem errorStop_codes (e : ErrCode) (s : State) : (errorStop e s).codes = s.codes := rfl
@[simp] theorem errorStop_lastProbes (e : ErrCode) (s : State) : (errorStop e s).lastProbes = s.lastProbes := rfl
@[simp] theorem errorStop_fsm (e : ErrCode) (s : State) : (errorStop e s).fsm = .idle := rfl
@[simp] theorem errorStop_ipos (e : ErrCode) (s : State) : (errorStop e s).ipos = s.ipos := rfl
@[simp] theorem errorStop_pfx (e : ErrCode) (s : State) : (errorStop e s).pfx = s.pfx := rfl
@[simp] theorem errorStop_prev (e : ErrCode) (s : State) : (errorStop e s).prev = s.prev := rfl
@[simp] theorem errorStop_ht (e : ErrCode) (s : State) : (errorStop e s).ht = s.ht := rfl
@[simp] theorem errorStop_st (e : ErrCode) (s : State) : (errorStop e s).st = s.st := rfl
@[simp] theorem errorStop_ibuf (e : ErrCode) (s : State) : (errorStop e s).ibuf = s.ibuf := rfl
@[simp] theorem errorStop_obuf (e : ErrCode) (s : State) : (errorStop e s).obuf = s.obuf := rfl
@[simp] theorem errorStop_inputs (e : ErrCode) (s : State) : (errorStop e s).inputs = s.inputs := rfl
@[simp] theorem errorStop_readData (e : ErrCode) (s : State) : (errorStop e s).readData = s.readData := rfl
@[simp] theorem errorStop_freeCount (e : ErrCode) (s : State) : (errorStop e s).freeCount = s.freeCount := rfl

/-! ### `dictReset` (40_dictionary R85) -/

@[simp] theorem dictReset_params (s : State) : (dictReset s).params = s.params := rfl
@[simp] theorem dictReset_status (s : State) : (dictReset s).status = s.status := rfl
@[simp] theorem dictReset_inLen (s : State) : (dictReset s).inLen = s.inLen := rfl
@[simp] theorem dictReset_inBits (s : State) : (dictReset s).inBits = s.inBits := rfl
@[simp] theorem dictReset_outCap (s : State) : (dictReset s).outCap = s.outCap := rfl
@[simp] theorem dictReset_outLen (s : State) : (dictReset s).outLen = s.outLen := rfl
@[simp] theorem dictReset_outBits (s : State) : (dictReset s).outBits = s.outBits := rfl
@[simp] theorem dictReset_result (s : State) : (dictReset s).result = s.result := rfl
@[simp] theorem dictReset_dictSize (s : State) : (dictReset s).dictSize = 256#13 := rfl
@[simp] theorem dictReset_codeWidth (s : State) : (dictReset s).codeWidth = 8#4 := rfl
@[simp] theorem dictReset_wcur (s : State) : (dictReset s).wcur = s.wcur := rfl
@[simp] theorem dictReset_rcur (s : State) : (dictReset s).rcur = s.rcur := rfl
@[simp] theorem dictReset_dictResets (s : State) : (dictReset s).dictResets = s.dictResets := rfl
@[simp] theorem dictReset_codes (s : State) : (dictReset s).codes = s.codes := rfl
@[simp] theorem dictReset_lastProbes (s : State) : (dictReset s).lastProbes = s.lastProbes := rfl
@[simp] theorem dictReset_fsm (s : State) : (dictReset s).fsm = s.fsm := rfl
@[simp] theorem dictReset_ipos (s : State) : (dictReset s).ipos = s.ipos := rfl
@[simp] theorem dictReset_pfx (s : State) : (dictReset s).pfx = s.pfx := rfl
@[simp] theorem dictReset_prev (s : State) : (dictReset s).prev = s.prev := rfl
@[simp] theorem dictReset_ht (s : State) : (dictReset s).ht = clearOcc s.ht := rfl
@[simp] theorem dictReset_st (s : State) : (dictReset s).st = s.st := rfl
@[simp] theorem dictReset_ibuf (s : State) : (dictReset s).ibuf = s.ibuf := rfl
@[simp] theorem dictReset_obuf (s : State) : (dictReset s).obuf = s.obuf := rfl
@[simp] theorem dictReset_inputs (s : State) : (dictReset s).inputs = s.inputs := rfl
@[simp] theorem dictReset_readData (s : State) : (dictReset s).readData = s.readData := rfl
@[simp] theorem dictReset_freeCount (s : State) : (dictReset s).freeCount = s.freeCount := rfl

/-! ### `countReset` (10_state R35) -/

@[simp] theorem countReset_params (s : State) : (countReset s).params = s.params := rfl
@[simp] theorem countReset_status (s : State) : (countReset s).status = s.status := rfl
@[simp] theorem countReset_inLen (s : State) : (countReset s).inLen = s.inLen := rfl
@[simp] theorem countReset_inBits (s : State) : (countReset s).inBits = s.inBits := rfl
@[simp] theorem countReset_outCap (s : State) : (countReset s).outCap = s.outCap := rfl
@[simp] theorem countReset_outLen (s : State) : (countReset s).outLen = s.outLen := rfl
@[simp] theorem countReset_outBits (s : State) : (countReset s).outBits = s.outBits := rfl
@[simp] theorem countReset_result (s : State) : (countReset s).result = s.result := rfl
@[simp] theorem countReset_dictSize (s : State) : (countReset s).dictSize = s.dictSize := rfl
@[simp] theorem countReset_codeWidth (s : State) : (countReset s).codeWidth = s.codeWidth := rfl
@[simp] theorem countReset_wcur (s : State) : (countReset s).wcur = s.wcur := rfl
@[simp] theorem countReset_rcur (s : State) : (countReset s).rcur = s.rcur := rfl
@[simp] theorem countReset_dictResets (s : State) :
    (countReset s).dictResets = resetsAfter s.dictResets s.freeCount := rfl
@[simp] theorem countReset_codes (s : State) : (countReset s).codes = s.codes := rfl
@[simp] theorem countReset_lastProbes (s : State) : (countReset s).lastProbes = s.lastProbes := rfl
@[simp] theorem countReset_fsm (s : State) : (countReset s).fsm = s.fsm := rfl
@[simp] theorem countReset_ipos (s : State) : (countReset s).ipos = s.ipos := rfl
@[simp] theorem countReset_pfx (s : State) : (countReset s).pfx = s.pfx := rfl
@[simp] theorem countReset_prev (s : State) : (countReset s).prev = s.prev := rfl
@[simp] theorem countReset_ht (s : State) : (countReset s).ht = s.ht := rfl
@[simp] theorem countReset_st (s : State) : (countReset s).st = s.st := rfl
@[simp] theorem countReset_ibuf (s : State) : (countReset s).ibuf = s.ibuf := rfl
@[simp] theorem countReset_obuf (s : State) : (countReset s).obuf = s.obuf := rfl
@[simp] theorem countReset_inputs (s : State) : (countReset s).inputs = s.inputs := rfl
@[simp] theorem countReset_readData (s : State) : (countReset s).readData = s.readData := rfl
@[simp] theorem countReset_freeCount (s : State) :
    (countReset s).freeCount = freeCountAfter s.dictResets s.freeCount := rfl

/-! ### `cwsOnAdd` (41_code_width R97) -/

@[simp] theorem cwsOnAdd_params (s : State) : (cwsOnAdd s).params = s.params := by unfold cwsOnAdd; split <;> rfl
@[simp] theorem cwsOnAdd_status (s : State) : (cwsOnAdd s).status = s.status := by unfold cwsOnAdd; split <;> rfl
@[simp] theorem cwsOnAdd_inLen (s : State) : (cwsOnAdd s).inLen = s.inLen := by unfold cwsOnAdd; split <;> rfl
@[simp] theorem cwsOnAdd_inBits (s : State) : (cwsOnAdd s).inBits = s.inBits := by unfold cwsOnAdd; split <;> rfl
@[simp] theorem cwsOnAdd_outCap (s : State) : (cwsOnAdd s).outCap = s.outCap := by unfold cwsOnAdd; split <;> rfl
@[simp] theorem cwsOnAdd_outLen (s : State) : (cwsOnAdd s).outLen = s.outLen := by unfold cwsOnAdd; split <;> rfl
@[simp] theorem cwsOnAdd_outBits (s : State) : (cwsOnAdd s).outBits = s.outBits := by unfold cwsOnAdd; split <;> rfl
@[simp] theorem cwsOnAdd_result (s : State) : (cwsOnAdd s).result = s.result := by unfold cwsOnAdd; split <;> rfl
@[simp] theorem cwsOnAdd_dictSize (s : State) : (cwsOnAdd s).dictSize = s.dictSize := by unfold cwsOnAdd; split <;> rfl
@[simp] theorem cwsOnAdd_wcur (s : State) : (cwsOnAdd s).wcur = s.wcur := by unfold cwsOnAdd; split <;> rfl
@[simp] theorem cwsOnAdd_rcur (s : State) : (cwsOnAdd s).rcur = s.rcur := by unfold cwsOnAdd; split <;> rfl
@[simp] theorem cwsOnAdd_dictResets (s : State) :
    (cwsOnAdd s).dictResets = s.dictResets := by unfold cwsOnAdd; split <;> rfl
@[simp] theorem cwsOnAdd_codes (s : State) : (cwsOnAdd s).codes = s.codes := by unfold cwsOnAdd; split <;> rfl
@[simp] theorem cwsOnAdd_lastProbes (s : State) :
    (cwsOnAdd s).lastProbes = s.lastProbes := by unfold cwsOnAdd; split <;> rfl
@[simp] theorem cwsOnAdd_fsm (s : State) : (cwsOnAdd s).fsm = s.fsm := by unfold cwsOnAdd; split <;> rfl
@[simp] theorem cwsOnAdd_ipos (s : State) : (cwsOnAdd s).ipos = s.ipos := by unfold cwsOnAdd; split <;> rfl
@[simp] theorem cwsOnAdd_pfx (s : State) : (cwsOnAdd s).pfx = s.pfx := by unfold cwsOnAdd; split <;> rfl
@[simp] theorem cwsOnAdd_prev (s : State) : (cwsOnAdd s).prev = s.prev := by unfold cwsOnAdd; split <;> rfl
@[simp] theorem cwsOnAdd_ht (s : State) : (cwsOnAdd s).ht = s.ht := by unfold cwsOnAdd; split <;> rfl
@[simp] theorem cwsOnAdd_st (s : State) : (cwsOnAdd s).st = s.st := by unfold cwsOnAdd; split <;> rfl
@[simp] theorem cwsOnAdd_ibuf (s : State) : (cwsOnAdd s).ibuf = s.ibuf := by unfold cwsOnAdd; split <;> rfl
@[simp] theorem cwsOnAdd_obuf (s : State) : (cwsOnAdd s).obuf = s.obuf := by unfold cwsOnAdd; split <;> rfl
@[simp] theorem cwsOnAdd_inputs (s : State) : (cwsOnAdd s).inputs = s.inputs := by unfold cwsOnAdd; split <;> rfl
@[simp] theorem cwsOnAdd_readData (s : State) : (cwsOnAdd s).readData = s.readData := by unfold cwsOnAdd; split <;> rfl
@[simp] theorem cwsOnAdd_freeCount (s : State) : (cwsOnAdd s).freeCount = s.freeCount := by unfold cwsOnAdd; split <;> rfl

/-! ### `resetIfFull` (40_dictionary R88) -/

@[simp] theorem resetIfFull_params (s : State) :
    (resetIfFull s).params = s.params := by unfold resetIfFull; split <;> rfl
@[simp] theorem resetIfFull_status (s : State) :
    (resetIfFull s).status = s.status := by unfold resetIfFull; split <;> rfl
@[simp] theorem resetIfFull_inLen (s : State) : (resetIfFull s).inLen = s.inLen := by unfold resetIfFull; split <;> rfl
@[simp] theorem resetIfFull_inBits (s : State) :
    (resetIfFull s).inBits = s.inBits := by unfold resetIfFull; split <;> rfl
@[simp] theorem resetIfFull_outCap (s : State) :
    (resetIfFull s).outCap = s.outCap := by unfold resetIfFull; split <;> rfl
@[simp] theorem resetIfFull_outLen (s : State) :
    (resetIfFull s).outLen = s.outLen := by unfold resetIfFull; split <;> rfl
@[simp] theorem resetIfFull_outBits (s : State) :
    (resetIfFull s).outBits = s.outBits := by unfold resetIfFull; split <;> rfl
@[simp] theorem resetIfFull_result (s : State) :
    (resetIfFull s).result = s.result := by unfold resetIfFull; split <;> rfl
@[simp] theorem resetIfFull_wcur (s : State) : (resetIfFull s).wcur = s.wcur := by unfold resetIfFull; split <;> rfl
@[simp] theorem resetIfFull_rcur (s : State) : (resetIfFull s).rcur = s.rcur := by unfold resetIfFull; split <;> rfl
@[simp] theorem resetIfFull_codes (s : State) : (resetIfFull s).codes = s.codes := by unfold resetIfFull; split <;> rfl
@[simp] theorem resetIfFull_lastProbes (s : State) :
    (resetIfFull s).lastProbes = s.lastProbes := by unfold resetIfFull; split <;> rfl
@[simp] theorem resetIfFull_fsm (s : State) : (resetIfFull s).fsm = s.fsm := by unfold resetIfFull; split <;> rfl
@[simp] theorem resetIfFull_ipos (s : State) : (resetIfFull s).ipos = s.ipos := by unfold resetIfFull; split <;> rfl
@[simp] theorem resetIfFull_pfx (s : State) : (resetIfFull s).pfx = s.pfx := by unfold resetIfFull; split <;> rfl
@[simp] theorem resetIfFull_prev (s : State) : (resetIfFull s).prev = s.prev := by unfold resetIfFull; split <;> rfl
@[simp] theorem resetIfFull_st (s : State) : (resetIfFull s).st = s.st := by unfold resetIfFull; split <;> rfl
@[simp] theorem resetIfFull_ibuf (s : State) : (resetIfFull s).ibuf = s.ibuf := by unfold resetIfFull; split <;> rfl
@[simp] theorem resetIfFull_obuf (s : State) : (resetIfFull s).obuf = s.obuf := by unfold resetIfFull; split <;> rfl
@[simp] theorem resetIfFull_inputs (s : State) :
    (resetIfFull s).inputs = s.inputs := by unfold resetIfFull; split <;> rfl
@[simp] theorem resetIfFull_readData (s : State) :
    (resetIfFull s).readData = s.readData := by unfold resetIfFull; split <;> rfl

/-! ### `clearCounters` (44_encoder R122) -/

@[simp] theorem clearCounters_params (s : State) : (clearCounters s).params = s.params := rfl
@[simp] theorem clearCounters_status (s : State) : (clearCounters s).status = s.status := rfl
@[simp] theorem clearCounters_inLen (s : State) : (clearCounters s).inLen = s.inLen := rfl
@[simp] theorem clearCounters_inBits (s : State) : (clearCounters s).inBits = s.inBits := rfl
@[simp] theorem clearCounters_outCap (s : State) : (clearCounters s).outCap = s.outCap := rfl
@[simp] theorem clearCounters_outLen (s : State) : (clearCounters s).outLen = 0#32 := rfl
@[simp] theorem clearCounters_outBits (s : State) : (clearCounters s).outBits = 0#32 := rfl
@[simp] theorem clearCounters_result (s : State) : (clearCounters s).result = s.result := rfl
@[simp] theorem clearCounters_dictSize (s : State) : (clearCounters s).dictSize = s.dictSize := rfl
@[simp] theorem clearCounters_codeWidth (s : State) : (clearCounters s).codeWidth = s.codeWidth := rfl
@[simp] theorem clearCounters_wcur (s : State) : (clearCounters s).wcur = 0#32 := rfl
@[simp] theorem clearCounters_rcur (s : State) : (clearCounters s).rcur = s.rcur := rfl
@[simp] theorem clearCounters_dictResets (s : State) : (clearCounters s).dictResets = 0#32 := rfl
@[simp] theorem clearCounters_codes (s : State) : (clearCounters s).codes = 0#32 := rfl
@[simp] theorem clearCounters_lastProbes (s : State) : (clearCounters s).lastProbes = s.lastProbes := rfl
@[simp] theorem clearCounters_fsm (s : State) : (clearCounters s).fsm = s.fsm := rfl
@[simp] theorem clearCounters_ipos (s : State) : (clearCounters s).ipos = s.ipos := rfl
@[simp] theorem clearCounters_pfx (s : State) : (clearCounters s).pfx = s.pfx := rfl
@[simp] theorem clearCounters_prev (s : State) : (clearCounters s).prev = s.prev := rfl
@[simp] theorem clearCounters_ht (s : State) : (clearCounters s).ht = s.ht := rfl
@[simp] theorem clearCounters_st (s : State) : (clearCounters s).st = s.st := rfl
@[simp] theorem clearCounters_ibuf (s : State) : (clearCounters s).ibuf = s.ibuf := rfl
@[simp] theorem clearCounters_obuf (s : State) : (clearCounters s).obuf = s.obuf := rfl
@[simp] theorem clearCounters_inputs (s : State) : (clearCounters s).inputs = s.inputs := rfl
@[simp] theorem clearCounters_readData (s : State) : (clearCounters s).readData = s.readData := rfl
@[simp] theorem clearCounters_freeCount (s : State) : (clearCounters s).freeCount = s.freeCount := rfl

/-! ### `setIpos` (44_encoder R122) -/

@[simp] theorem setIpos_params (a : Word) (s : State) : (setIpos a s).params = s.params := rfl
@[simp] theorem setIpos_status (a : Word) (s : State) : (setIpos a s).status = s.status := rfl
@[simp] theorem setIpos_inLen (a : Word) (s : State) : (setIpos a s).inLen = s.inLen := rfl
@[simp] theorem setIpos_inBits (a : Word) (s : State) : (setIpos a s).inBits = s.inBits := rfl
@[simp] theorem setIpos_outCap (a : Word) (s : State) : (setIpos a s).outCap = s.outCap := rfl
@[simp] theorem setIpos_outLen (a : Word) (s : State) : (setIpos a s).outLen = s.outLen := rfl
@[simp] theorem setIpos_outBits (a : Word) (s : State) : (setIpos a s).outBits = s.outBits := rfl
@[simp] theorem setIpos_result (a : Word) (s : State) : (setIpos a s).result = s.result := rfl
@[simp] theorem setIpos_dictSize (a : Word) (s : State) : (setIpos a s).dictSize = s.dictSize := rfl
@[simp] theorem setIpos_codeWidth (a : Word) (s : State) : (setIpos a s).codeWidth = s.codeWidth := rfl
@[simp] theorem setIpos_wcur (a : Word) (s : State) : (setIpos a s).wcur = s.wcur := rfl
@[simp] theorem setIpos_rcur (a : Word) (s : State) : (setIpos a s).rcur = s.rcur := rfl
@[simp] theorem setIpos_dictResets (a : Word) (s : State) : (setIpos a s).dictResets = s.dictResets := rfl
@[simp] theorem setIpos_codes (a : Word) (s : State) : (setIpos a s).codes = s.codes := rfl
@[simp] theorem setIpos_lastProbes (a : Word) (s : State) : (setIpos a s).lastProbes = s.lastProbes := rfl
@[simp] theorem setIpos_fsm (a : Word) (s : State) : (setIpos a s).fsm = s.fsm := rfl
@[simp] theorem setIpos_ipos (a : Word) (s : State) : (setIpos a s).ipos = a := rfl
@[simp] theorem setIpos_pfx (a : Word) (s : State) : (setIpos a s).pfx = s.pfx := rfl
@[simp] theorem setIpos_prev (a : Word) (s : State) : (setIpos a s).prev = s.prev := rfl
@[simp] theorem setIpos_ht (a : Word) (s : State) : (setIpos a s).ht = s.ht := rfl
@[simp] theorem setIpos_st (a : Word) (s : State) : (setIpos a s).st = s.st := rfl
@[simp] theorem setIpos_ibuf (a : Word) (s : State) : (setIpos a s).ibuf = s.ibuf := rfl
@[simp] theorem setIpos_obuf (a : Word) (s : State) : (setIpos a s).obuf = s.obuf := rfl
@[simp] theorem setIpos_inputs (a : Word) (s : State) : (setIpos a s).inputs = s.inputs := rfl
@[simp] theorem setIpos_readData (a : Word) (s : State) : (setIpos a s).readData = s.readData := rfl
@[simp] theorem setIpos_freeCount (a : Word) (s : State) : (setIpos a s).freeCount = s.freeCount := rfl

/-! ### `setRcur` (43_bitreader R120) -/

@[simp] theorem setRcur_params (a : Word) (s : State) : (setRcur a s).params = s.params := rfl
@[simp] theorem setRcur_status (a : Word) (s : State) : (setRcur a s).status = s.status := rfl
@[simp] theorem setRcur_inLen (a : Word) (s : State) : (setRcur a s).inLen = s.inLen := rfl
@[simp] theorem setRcur_inBits (a : Word) (s : State) : (setRcur a s).inBits = s.inBits := rfl
@[simp] theorem setRcur_outCap (a : Word) (s : State) : (setRcur a s).outCap = s.outCap := rfl
@[simp] theorem setRcur_outLen (a : Word) (s : State) : (setRcur a s).outLen = s.outLen := rfl
@[simp] theorem setRcur_outBits (a : Word) (s : State) : (setRcur a s).outBits = s.outBits := rfl
@[simp] theorem setRcur_result (a : Word) (s : State) : (setRcur a s).result = s.result := rfl
@[simp] theorem setRcur_dictSize (a : Word) (s : State) : (setRcur a s).dictSize = s.dictSize := rfl
@[simp] theorem setRcur_codeWidth (a : Word) (s : State) : (setRcur a s).codeWidth = s.codeWidth := rfl
@[simp] theorem setRcur_wcur (a : Word) (s : State) : (setRcur a s).wcur = s.wcur := rfl
@[simp] theorem setRcur_rcur (a : Word) (s : State) : (setRcur a s).rcur = a := rfl
@[simp] theorem setRcur_dictResets (a : Word) (s : State) : (setRcur a s).dictResets = s.dictResets := rfl
@[simp] theorem setRcur_codes (a : Word) (s : State) : (setRcur a s).codes = s.codes := rfl
@[simp] theorem setRcur_lastProbes (a : Word) (s : State) : (setRcur a s).lastProbes = s.lastProbes := rfl
@[simp] theorem setRcur_fsm (a : Word) (s : State) : (setRcur a s).fsm = s.fsm := rfl
@[simp] theorem setRcur_ipos (a : Word) (s : State) : (setRcur a s).ipos = s.ipos := rfl
@[simp] theorem setRcur_pfx (a : Word) (s : State) : (setRcur a s).pfx = s.pfx := rfl
@[simp] theorem setRcur_prev (a : Word) (s : State) : (setRcur a s).prev = s.prev := rfl
@[simp] theorem setRcur_ht (a : Word) (s : State) : (setRcur a s).ht = s.ht := rfl
@[simp] theorem setRcur_st (a : Word) (s : State) : (setRcur a s).st = s.st := rfl
@[simp] theorem setRcur_ibuf (a : Word) (s : State) : (setRcur a s).ibuf = s.ibuf := rfl
@[simp] theorem setRcur_obuf (a : Word) (s : State) : (setRcur a s).obuf = s.obuf := rfl
@[simp] theorem setRcur_inputs (a : Word) (s : State) : (setRcur a s).inputs = s.inputs := rfl
@[simp] theorem setRcur_readData (a : Word) (s : State) : (setRcur a s).readData = s.readData := rfl
@[simp] theorem setRcur_freeCount (a : Word) (s : State) : (setRcur a s).freeCount = s.freeCount := rfl

/-! ### `setPrev` (45_decoder R141) -/

@[simp] theorem setPrev_params (q : ByteSeq) (s : State) : (setPrev q s).params = s.params := rfl
@[simp] theorem setPrev_status (q : ByteSeq) (s : State) : (setPrev q s).status = s.status := rfl
@[simp] theorem setPrev_inLen (q : ByteSeq) (s : State) : (setPrev q s).inLen = s.inLen := rfl
@[simp] theorem setPrev_inBits (q : ByteSeq) (s : State) : (setPrev q s).inBits = s.inBits := rfl
@[simp] theorem setPrev_outCap (q : ByteSeq) (s : State) : (setPrev q s).outCap = s.outCap := rfl
@[simp] theorem setPrev_outLen (q : ByteSeq) (s : State) : (setPrev q s).outLen = s.outLen := rfl
@[simp] theorem setPrev_outBits (q : ByteSeq) (s : State) : (setPrev q s).outBits = s.outBits := rfl
@[simp] theorem setPrev_result (q : ByteSeq) (s : State) : (setPrev q s).result = s.result := rfl
@[simp] theorem setPrev_dictSize (q : ByteSeq) (s : State) : (setPrev q s).dictSize = s.dictSize := rfl
@[simp] theorem setPrev_codeWidth (q : ByteSeq) (s : State) : (setPrev q s).codeWidth = s.codeWidth := rfl
@[simp] theorem setPrev_wcur (q : ByteSeq) (s : State) : (setPrev q s).wcur = s.wcur := rfl
@[simp] theorem setPrev_rcur (q : ByteSeq) (s : State) : (setPrev q s).rcur = s.rcur := rfl
@[simp] theorem setPrev_dictResets (q : ByteSeq) (s : State) : (setPrev q s).dictResets = s.dictResets := rfl
@[simp] theorem setPrev_codes (q : ByteSeq) (s : State) : (setPrev q s).codes = s.codes := rfl
@[simp] theorem setPrev_lastProbes (q : ByteSeq) (s : State) : (setPrev q s).lastProbes = s.lastProbes := rfl
@[simp] theorem setPrev_fsm (q : ByteSeq) (s : State) : (setPrev q s).fsm = s.fsm := rfl
@[simp] theorem setPrev_ipos (q : ByteSeq) (s : State) : (setPrev q s).ipos = s.ipos := rfl
@[simp] theorem setPrev_pfx (q : ByteSeq) (s : State) : (setPrev q s).pfx = s.pfx := rfl
@[simp] theorem setPrev_prev (q : ByteSeq) (s : State) : (setPrev q s).prev = q := rfl
@[simp] theorem setPrev_ht (q : ByteSeq) (s : State) : (setPrev q s).ht = s.ht := rfl
@[simp] theorem setPrev_st (q : ByteSeq) (s : State) : (setPrev q s).st = s.st := rfl
@[simp] theorem setPrev_ibuf (q : ByteSeq) (s : State) : (setPrev q s).ibuf = s.ibuf := rfl
@[simp] theorem setPrev_obuf (q : ByteSeq) (s : State) : (setPrev q s).obuf = s.obuf := rfl
@[simp] theorem setPrev_inputs (q : ByteSeq) (s : State) : (setPrev q s).inputs = s.inputs := rfl
@[simp] theorem setPrev_readData (q : ByteSeq) (s : State) : (setPrev q s).readData = s.readData := rfl
@[simp] theorem setPrev_freeCount (q : ByteSeq) (s : State) : (setPrev q s).freeCount = s.freeCount := rfl

/-! ### `storeSeq` (45_decoder R138) -/

@[simp] theorem storeSeq_params (q : ByteSeq) (s : State) : (storeSeq q s).params = s.params := rfl
@[simp] theorem storeSeq_status (q : ByteSeq) (s : State) : (storeSeq q s).status = s.status := rfl
@[simp] theorem storeSeq_inLen (q : ByteSeq) (s : State) : (storeSeq q s).inLen = s.inLen := rfl
@[simp] theorem storeSeq_inBits (q : ByteSeq) (s : State) : (storeSeq q s).inBits = s.inBits := rfl
@[simp] theorem storeSeq_outCap (q : ByteSeq) (s : State) : (storeSeq q s).outCap = s.outCap := rfl
@[simp] theorem storeSeq_outLen (q : ByteSeq) (s : State) : (storeSeq q s).outLen = s.outLen := rfl
@[simp] theorem storeSeq_outBits (q : ByteSeq) (s : State) : (storeSeq q s).outBits = s.outBits := rfl
@[simp] theorem storeSeq_result (q : ByteSeq) (s : State) : (storeSeq q s).result = s.result := rfl
@[simp] theorem storeSeq_dictSize (q : ByteSeq) (s : State) : (storeSeq q s).dictSize = s.dictSize + 1#13 := rfl
@[simp] theorem storeSeq_codeWidth (q : ByteSeq) (s : State) : (storeSeq q s).codeWidth = s.codeWidth := rfl
@[simp] theorem storeSeq_wcur (q : ByteSeq) (s : State) : (storeSeq q s).wcur = s.wcur := rfl
@[simp] theorem storeSeq_rcur (q : ByteSeq) (s : State) : (storeSeq q s).rcur = s.rcur := rfl
@[simp] theorem storeSeq_dictResets (q : ByteSeq) (s : State) : (storeSeq q s).dictResets = s.dictResets := rfl
@[simp] theorem storeSeq_codes (q : ByteSeq) (s : State) : (storeSeq q s).codes = s.codes := rfl
@[simp] theorem storeSeq_lastProbes (q : ByteSeq) (s : State) : (storeSeq q s).lastProbes = s.lastProbes := rfl
@[simp] theorem storeSeq_fsm (q : ByteSeq) (s : State) : (storeSeq q s).fsm = s.fsm := rfl
@[simp] theorem storeSeq_ipos (q : ByteSeq) (s : State) : (storeSeq q s).ipos = s.ipos := rfl
@[simp] theorem storeSeq_pfx (q : ByteSeq) (s : State) : (storeSeq q s).pfx = s.pfx := rfl
@[simp] theorem storeSeq_prev (q : ByteSeq) (s : State) : (storeSeq q s).prev = s.prev := rfl
@[simp] theorem storeSeq_ht (q : ByteSeq) (s : State) : (storeSeq q s).ht = s.ht := rfl
@[simp] theorem storeSeq_st (q : ByteSeq) (s : State) : (storeSeq q s).st = setSeq s.st s.dictSize.toNat q := rfl
@[simp] theorem storeSeq_ibuf (q : ByteSeq) (s : State) : (storeSeq q s).ibuf = s.ibuf := rfl
@[simp] theorem storeSeq_obuf (q : ByteSeq) (s : State) : (storeSeq q s).obuf = s.obuf := rfl
@[simp] theorem storeSeq_inputs (q : ByteSeq) (s : State) : (storeSeq q s).inputs = s.inputs := rfl
@[simp] theorem storeSeq_readData (q : ByteSeq) (s : State) : (storeSeq q s).readData = s.readData := rfl
@[simp] theorem storeSeq_freeCount (q : ByteSeq) (s : State) : (storeSeq q s).freeCount = s.freeCount := rfl

/-! ### `softResetState` (46_control R154) -/

@[simp] theorem softResetState_params (s : State) : (softResetState s).params = s.params := rfl
@[simp] theorem softResetState_status (s : State) : (softResetState s).status = State.reset.status := rfl
@[simp] theorem softResetState_inLen (s : State) : (softResetState s).inLen = State.reset.inLen := rfl
@[simp] theorem softResetState_inBits (s : State) : (softResetState s).inBits = State.reset.inBits := rfl
@[simp] theorem softResetState_outCap (s : State) : (softResetState s).outCap = State.reset.outCap := rfl
@[simp] theorem softResetState_outLen (s : State) : (softResetState s).outLen = State.reset.outLen := rfl
@[simp] theorem softResetState_outBits (s : State) : (softResetState s).outBits = State.reset.outBits := rfl
@[simp] theorem softResetState_result (s : State) : (softResetState s).result = State.reset.result := rfl
@[simp] theorem softResetState_dictSize (s : State) : (softResetState s).dictSize = State.reset.dictSize := rfl
@[simp] theorem softResetState_codeWidth (s : State) : (softResetState s).codeWidth = State.reset.codeWidth := rfl
@[simp] theorem softResetState_wcur (s : State) : (softResetState s).wcur = State.reset.wcur := rfl
@[simp] theorem softResetState_rcur (s : State) : (softResetState s).rcur = State.reset.rcur := rfl
@[simp] theorem softResetState_dictResets (s : State) : (softResetState s).dictResets = State.reset.dictResets := rfl
@[simp] theorem softResetState_codes (s : State) : (softResetState s).codes = State.reset.codes := rfl
@[simp] theorem softResetState_lastProbes (s : State) : (softResetState s).lastProbes = State.reset.lastProbes := rfl
@[simp] theorem softResetState_fsm (s : State) : (softResetState s).fsm = State.reset.fsm := rfl
@[simp] theorem softResetState_ipos (s : State) : (softResetState s).ipos = State.reset.ipos := rfl
@[simp] theorem softResetState_pfx (s : State) : (softResetState s).pfx = State.reset.pfx := rfl
@[simp] theorem softResetState_prev (s : State) : (softResetState s).prev = s.prev := rfl
@[simp] theorem softResetState_ht (s : State) : (softResetState s).ht = clearOcc s.ht := rfl
@[simp] theorem softResetState_st (s : State) : (softResetState s).st = s.st := rfl
@[simp] theorem softResetState_ibuf (s : State) : (softResetState s).ibuf = s.ibuf := rfl
@[simp] theorem softResetState_obuf (s : State) : (softResetState s).obuf = s.obuf := rfl
@[simp] theorem softResetState_inputs (s : State) : (softResetState s).inputs = s.inputs := rfl
@[simp] theorem softResetState_readData (s : State) : (softResetState s).readData = s.readData := rfl
@[simp] theorem softResetState_freeCount (s : State) : (softResetState s).freeCount = s.freeCount := rfl

/-! ### `passStart` (44_encoder R122, 45_decoder R134) -/

theorem passStart_eq (s : State) : passStart s = clearCounters (dictReset s) := rfl

@[simp] theorem passStart_params (s : State) : (passStart s).params = s.params := rfl
@[simp] theorem passStart_status (s : State) : (passStart s).status = s.status := rfl
@[simp] theorem passStart_inLen (s : State) : (passStart s).inLen = s.inLen := rfl
@[simp] theorem passStart_inBits (s : State) : (passStart s).inBits = s.inBits := rfl
@[simp] theorem passStart_outCap (s : State) : (passStart s).outCap = s.outCap := rfl
@[simp] theorem passStart_outLen (s : State) : (passStart s).outLen = 0#32 := rfl
@[simp] theorem passStart_outBits (s : State) : (passStart s).outBits = 0#32 := rfl
@[simp] theorem passStart_result (s : State) : (passStart s).result = s.result := rfl
@[simp] theorem passStart_dictSize (s : State) : (passStart s).dictSize = 256#13 := rfl
@[simp] theorem passStart_codeWidth (s : State) : (passStart s).codeWidth = 8#4 := rfl
@[simp] theorem passStart_wcur (s : State) : (passStart s).wcur = 0#32 := rfl
@[simp] theorem passStart_rcur (s : State) : (passStart s).rcur = s.rcur := rfl
@[simp] theorem passStart_dictResets (s : State) : (passStart s).dictResets = 0#32 := rfl
@[simp] theorem passStart_codes (s : State) : (passStart s).codes = 0#32 := rfl
@[simp] theorem passStart_lastProbes (s : State) : (passStart s).lastProbes = s.lastProbes := rfl
@[simp] theorem passStart_fsm (s : State) : (passStart s).fsm = s.fsm := rfl
@[simp] theorem passStart_ipos (s : State) : (passStart s).ipos = s.ipos := rfl
@[simp] theorem passStart_pfx (s : State) : (passStart s).pfx = s.pfx := rfl
@[simp] theorem passStart_prev (s : State) : (passStart s).prev = s.prev := rfl
@[simp] theorem passStart_ht (s : State) : (passStart s).ht = clearOcc s.ht := rfl
@[simp] theorem passStart_st (s : State) : (passStart s).st = s.st := rfl
@[simp] theorem passStart_ibuf (s : State) : (passStart s).ibuf = s.ibuf := rfl
@[simp] theorem passStart_obuf (s : State) : (passStart s).obuf = s.obuf := rfl
@[simp] theorem passStart_inputs (s : State) : (passStart s).inputs = s.inputs := rfl
@[simp] theorem passStart_readData (s : State) : (passStart s).readData = s.readData := rfl
@[simp] theorem passStart_freeCount (s : State) : (passStart s).freeCount = s.freeCount := rfl

/-! ### `decAdd` (45_decoder R138) -/

@[simp] theorem decAdd_params (q : ByteSeq) (s : State) : (decAdd q s).params = s.params := by simp [decAdd]
@[simp] theorem decAdd_status (q : ByteSeq) (s : State) : (decAdd q s).status = s.status := by simp [decAdd]
@[simp] theorem decAdd_inLen (q : ByteSeq) (s : State) : (decAdd q s).inLen = s.inLen := by simp [decAdd]
@[simp] theorem decAdd_inBits (q : ByteSeq) (s : State) : (decAdd q s).inBits = s.inBits := by simp [decAdd]
@[simp] theorem decAdd_outCap (q : ByteSeq) (s : State) : (decAdd q s).outCap = s.outCap := by simp [decAdd]
@[simp] theorem decAdd_outLen (q : ByteSeq) (s : State) : (decAdd q s).outLen = s.outLen := by simp [decAdd]
@[simp] theorem decAdd_outBits (q : ByteSeq) (s : State) : (decAdd q s).outBits = s.outBits := by simp [decAdd]
@[simp] theorem decAdd_result (q : ByteSeq) (s : State) : (decAdd q s).result = s.result := by simp [decAdd]
@[simp] theorem decAdd_dictSize (q : ByteSeq) (s : State) : (decAdd q s).dictSize = s.dictSize + 1#13 := by simp [decAdd]
@[simp] theorem decAdd_codeWidth (q : ByteSeq) (s : State) : (decAdd q s).codeWidth = (cwsOnAdd s).codeWidth := by simp [decAdd]
@[simp] theorem decAdd_wcur (q : ByteSeq) (s : State) : (decAdd q s).wcur = s.wcur := by simp [decAdd]
@[simp] theorem decAdd_rcur (q : ByteSeq) (s : State) : (decAdd q s).rcur = s.rcur := by simp [decAdd]
@[simp] theorem decAdd_dictResets (q : ByteSeq) (s : State) : (decAdd q s).dictResets = s.dictResets := by simp [decAdd]
@[simp] theorem decAdd_codes (q : ByteSeq) (s : State) : (decAdd q s).codes = s.codes := by simp [decAdd]
@[simp] theorem decAdd_lastProbes (q : ByteSeq) (s : State) : (decAdd q s).lastProbes = s.lastProbes := by simp [decAdd]
@[simp] theorem decAdd_fsm (q : ByteSeq) (s : State) : (decAdd q s).fsm = s.fsm := by simp [decAdd]
@[simp] theorem decAdd_ipos (q : ByteSeq) (s : State) : (decAdd q s).ipos = s.ipos := by simp [decAdd]
@[simp] theorem decAdd_pfx (q : ByteSeq) (s : State) : (decAdd q s).pfx = s.pfx := by simp [decAdd]
@[simp] theorem decAdd_prev (q : ByteSeq) (s : State) : (decAdd q s).prev = s.prev := by simp [decAdd]
@[simp] theorem decAdd_ht (q : ByteSeq) (s : State) : (decAdd q s).ht = s.ht := by simp [decAdd]
@[simp] theorem decAdd_st (q : ByteSeq) (s : State) : (decAdd q s).st = setSeq s.st s.dictSize.toNat q := by simp [decAdd]
@[simp] theorem decAdd_ibuf (q : ByteSeq) (s : State) : (decAdd q s).ibuf = s.ibuf := by simp [decAdd]
@[simp] theorem decAdd_obuf (q : ByteSeq) (s : State) : (decAdd q s).obuf = s.obuf := by simp [decAdd]
@[simp] theorem decAdd_inputs (q : ByteSeq) (s : State) : (decAdd q s).inputs = s.inputs := by simp [decAdd]
@[simp] theorem decAdd_readData (q : ByteSeq) (s : State) : (decAdd q s).readData = s.readData := by simp [decAdd]
@[simp] theorem decAdd_freeCount (q : ByteSeq) (s : State) : (decAdd q s).freeCount = s.freeCount := by simp [decAdd]

end Sys2Proof.Machine
end

