-- ==== Sys2Proof/Laws/Decoder.lean ====
section
/-! SUPPORT. The decoder's operations, each said once: decLookup, decEmit (45_decoder R135 to R137). -/

namespace Sys2Proof.Machine

@[simp] theorem ByteSeq.length_snoc (q : ByteSeq) (b : Byte) : (q.snoc b).length = q.length + 1 := by
  simp [ByteSeq.length, ByteSeq.snoc]

@[simp] theorem ByteSeq.toList_snoc (q : ByteSeq) (b : Byte) : (q.snoc b).toList = q.toList ++ [b] := by
  simp [ByteSeq.toList, ByteSeq.snoc]

@[simp] theorem ByteSeq.length_toList (q : ByteSeq) : q.toList.length = q.length := by
  simp [ByteSeq.length, ByteSeq.toList]

@[simp] theorem ByteSeq.head_snoc (q : ByteSeq) (b : Byte) : (q.snoc b).head = q.head := rfl

/-- Every way `decLookup` ends; it changes no state (45_decoder R135, R136). -/
theorem decLookup_cases (c : Code) (s : State) :
    (c.toNat < 256 ∧ decLookup c s = .done { head := c.extractLsb' 0 8, tail := [] } s) ∨
    (256 ≤ c.toNat ∧ c.toNat < s.dictSize.toNat ∧ decLookup c s = .done (seqAt s.st c.toNat) s) ∨
    (256 ≤ c.toNat ∧ c.toNat = s.dictSize.toNat ∧ decLookup c s = .done (s.prev.snoc s.prev.head) s) ∨
    (256 ≤ c.toNat ∧ s.dictSize.toNat < c.toNat ∧ decLookup c s = .raised .malformed s) := by
  unfold decLookup Config.roots
  by_cases h1 : c.toNat < 256
  · exact .inl ⟨h1, if_pos h1⟩
  · rw [if_neg h1]
    by_cases h2 : c.toNat < s.dictSize.toNat
    · exact .inr (.inl ⟨by omega, h2, if_pos h2⟩)
    · rw [if_neg h2]
      by_cases h3 : c.toNat = s.dictSize.toNat
      · exact .inr (.inr (.inl ⟨by omega, h3, if_pos h3⟩))
      · exact .inr (.inr (.inr ⟨by omega, by omega, if_neg h3⟩))

/-- decEmit's loop inside the buffer: the bytes stand from byte WCUR div 8 on, every other byte is as before, and only
OBUF and WCUR change (45_decoder R137). -/
theorem decPutBytes_run {l : List Byte} {s : State} (hw : s.obuf.wf)
    (hcap : s.wcur.toNat / 8 + l.length ≤ s.params.obufCap) (h32 : s.wcur.toNat + 8 * l.length < 2 ^ 32) :
    ∃ m : Memory, decPutBytes l s = .done () { s with obuf := m, wcur := s.wcur + BitVec.ofNat 32 (8 * l.length) } ∧
      m.wf ∧ ((∀ c ∈ s.obuf, c.1 < s.params.obufCap) → ∀ c ∈ m, c.1 < s.params.obufCap) ∧
      ∀ a, m.read a =
        if s.wcur.toNat / 8 ≤ a then l.getD (a - s.wcur.toNat / 8) (s.obuf.read a) else s.obuf.read a := by
  induction l generalizing s with
  | nil => exact ⟨s.obuf, by simp [decPutBytes], hw, fun h => h, fun a => by simp⟩
  | cons b l ih =>
    rw [List.length_cons] at hcap h32
    have h8 : (s.wcur + 8#32).toNat = s.wcur.toNat + 8 := by
      rw [BitVec.toNat_add]; simp; omega
    have hd : (s.wcur.toNat + 8) / 8 = s.wcur.toNat / 8 + 1 := by omega
    have hlt : s.wcur.toNat / 8 < s.params.obufCap := by omega
    obtain ⟨m, hm, hmw, hmb, hmr⟩ :=
      ih (s := { s with obuf := s.obuf.write (s.wcur.toNat / 8) b, wcur := s.wcur + 8#32 }) (Memory.write_wf hw _ _)
        (by simp only [h8]; omega) (by simp only [h8]; omega)
    refine ⟨m, ?_, hmw, fun h => hmb (Memory.write_below h hlt), fun a => ?_⟩
    · simp only [decPutBytes, obufWrite, hlt, if_true, Flow.bind_done, hm]
      congr 2
      rw [BitVec.add_assoc]
      congr 1
      apply BitVec.eq_of_toNat_eq
      simp only [BitVec.toNat_add, BitVec.toNat_ofNat, List.length_cons]
      omega
    · rw [hmr a]
      simp only [h8, hd, Memory.read_write hw]
      by_cases ha : s.wcur.toNat / 8 ≤ a
      · by_cases he : a = s.wcur.toNat / 8
        · subst he; simp
        · have e : a - s.wcur.toNat / 8 = (a - (s.wcur.toNat / 8 + 1)) + 1 := by omega
          rw [if_pos (by omega), if_pos ha, if_neg he, e, List.getD_cons_succ]
      · rw [if_neg (by omega), if_neg ha, if_neg (by omega)]

/-- Every way decEmit's loop ends: only OBUF and WCUR change, it raises nothing, and it stops only at the end of OBUF. -/
theorem decPutBytes_cases (l : List Byte) (s : State) :
    (∃ m : Memory, decPutBytes l s = .done () { s with obuf := m, wcur := s.wcur + BitVec.ofNat 32 (8 * l.length) }) ∨
      decPutBytes l s = .stuck .obufBound := by
  induction l generalizing s with
  | nil => exact .inl ⟨s.obuf, by simp [decPutBytes]⟩
  | cons b l ih =>
    by_cases hc : s.wcur.toNat / 8 < s.params.obufCap
    · rcases ih { s with obuf := s.obuf.write (s.wcur.toNat / 8) b, wcur := s.wcur + 8#32 } with ⟨m, hm⟩ | hm
      · refine .inl ⟨m, ?_⟩
        simp only [decPutBytes, obufWrite, hc, if_true, Flow.bind_done, hm]
        congr 2
        rw [BitVec.add_assoc]
        congr 1
        apply BitVec.eq_of_toNat_eq
        simp only [BitVec.toNat_add, BitVec.toNat_ofNat, List.length_cons]
        omega
      · exact .inr (by simp only [decPutBytes, obufWrite, hc, if_true, Flow.bind_done, hm])
    · exact .inr (by simp [decPutBytes, obufWrite, hc])

/-- Every way `decEmit` ends (45_decoder R137). -/
theorem decEmit_cases (q : ByteSeq) (s : State) :
    (decEmit q s = .raised .outputOverflow s ∧ s.outCap.toNat < s.wcur.toNat / 8 + q.length) ∨
      (s.wcur.toNat / 8 + q.length ≤ s.outCap.toNat ∧ decEmit q s = decPutBytes q.toList s) := by
  unfold decEmit
  by_cases h : s.outCap.toNat < s.wcur.toNat / 8 + q.length
  · exact .inl ⟨if_pos h, h⟩
  · exact .inr ⟨by omega, if_neg h⟩

end Sys2Proof.Machine
end

