-- ==== Sys2Proof/Laws/Dictionary.lean ====
section
/-! SUPPORT. The dictionary's operations, each said once: what dictFind and dictAdd do and how they end (40_dictionary R86,
R88), and the code-width scheduler (41_code_width R97). -/

namespace Sys2Proof.Machine

/-! ### The probe loops -/

/-- Hardware computes the probe sequence by repeated addition (40_dictionary R84). -/
theorem probeIdx_succ (p : Code) (e : Byte) (i : Nat) : probeIdx p e (i + 1) = probeIdx p e i + hashH2 p e := by
  unfold probeIdx
  rw [BitVec.ofNat_add, BitVec.add_mul, BitVec.add_assoc]
  congr 2
  simp

@[simp] theorem probeIdx_zero (p : Code) (e : Byte) : probeIdx p e 0 = hashH1 p e := by simp [probeIdx]

/-- dictFind's loop ends at the first slot of the sequence that is unoccupied or holds the key. -/
theorem probeFind_eq_some {ht : List (Nat × Slot)} {p : Code} {e : Byte} {fuel i n : Nat} {c : Code} :
    probeFind ht p e (hashH2 p e) fuel (probeIdx p e i) i = some (c, n) ↔
      ∃ k, k < fuel ∧ n = i + k + 1 ∧
        (∀ j < k, (slotAt ht (probeIdx p e (i + j))).occ = true ∧
          keyMatches (slotAt ht (probeIdx p e (i + j))) p e = false) ∧
        (((slotAt ht (probeIdx p e (i + k))).occ = false ∧ c = Config.notFound) ∨
          ((slotAt ht (probeIdx p e (i + k))).occ = true ∧ keyMatches (slotAt ht (probeIdx p e (i + k))) p e = true ∧
            c = (slotAt ht (probeIdx p e (i + k))).code)) := by
  induction fuel generalizing i with
  | zero => simp [probeFind]
  | succ fuel ih =>
    rw [probeFind]
    by_cases ho : (slotAt ht (probeIdx p e i)).occ = false
    · rw [if_pos ho]
      constructor
      · rintro h
        obtain ⟨rfl, rfl⟩ : c = Config.notFound ∧ n = i + 1 := by simpa [eq_comm] using h
        exact ⟨0, by omega, rfl, by simp, .inl ⟨ho, rfl⟩⟩
      · rintro ⟨k, -, rfl, hj, hk⟩
        rcases Nat.eq_zero_or_pos k with rfl | hpos
        · rcases hk with ⟨-, rfl⟩ | ⟨h, -⟩
          · rfl
          · rw [Nat.add_zero] at h; simp [ho] at h
        · have := (hj 0 hpos).1; rw [Nat.add_zero] at this; simp [ho] at this
    · rw [if_neg ho]
      have ho' : (slotAt ht (probeIdx p e i)).occ = true := by simpa using ho
      by_cases hm : keyMatches (slotAt ht (probeIdx p e i)) p e = true
      · rw [if_pos hm]
        constructor
        · rintro h
          obtain ⟨rfl, rfl⟩ : c = (slotAt ht (probeIdx p e i)).code ∧ n = i + 1 := by simpa [eq_comm] using h
          exact ⟨0, by omega, rfl, by simp, .inr ⟨ho', hm, rfl⟩⟩
        · rintro ⟨k, -, rfl, hj, hk⟩
          rcases Nat.eq_zero_or_pos k with rfl | hpos
          · rcases hk with ⟨h, -⟩ | ⟨-, -, rfl⟩
            · rw [Nat.add_zero] at h; simp [ho'] at h
            · rfl
          · have := (hj 0 hpos).2; rw [Nat.add_zero] at this; simp [hm] at this
      · rw [if_neg hm, ← probeIdx_succ, ih]
        have shift : ∀ j, i + (j + 1) = i + 1 + j := fun j => by omega
        constructor
        · rintro ⟨k, hk, rfl, hj, he⟩
          refine ⟨k + 1, by omega, by omega, fun j hjk => ?_, by rw [shift]; exact he⟩
          rcases j with _ | j
          · exact ⟨ho', by simpa using hm⟩
          · rw [shift]; exact hj j (by omega)
        · rintro ⟨k, hk, rfl, hj, he⟩
          rcases k with _ | k
          · rcases he with ⟨h, -⟩ | ⟨-, h, -⟩
            · rw [Nat.add_zero] at h; exact absurd h ho
            · rw [Nat.add_zero] at h; exact absurd h hm
          · refine ⟨k, by omega, by omega, fun j hjk => ?_, by rw [← shift]; exact he⟩
            rw [← shift]; exact hj (j + 1) (by omega)

/-- dictFind's loop does not end within `fuel` slots exactly when all of them are occupied by other keys. -/
theorem probeFind_eq_none {ht : List (Nat × Slot)} {p : Code} {e : Byte} {fuel i : Nat} :
    probeFind ht p e (hashH2 p e) fuel (probeIdx p e i) i = none ↔
      ∀ j < fuel, (slotAt ht (probeIdx p e (i + j))).occ = true ∧
        keyMatches (slotAt ht (probeIdx p e (i + j))) p e = false := by
  induction fuel generalizing i with
  | zero => simp [probeFind]
  | succ fuel ih =>
    have shift : ∀ j, i + (j + 1) = i + 1 + j := fun j => by omega
    rw [probeFind]
    split
    · rename_i ho
      refine iff_of_false (by simp) fun h => ?_
      have := (h 0 (by omega)).1; rw [Nat.add_zero] at this; simp [ho] at this
    · rename_i ho
      split
      · rename_i hm
        refine iff_of_false (by simp) fun h => ?_
        have := (h 0 (by omega)).2; rw [Nat.add_zero] at this; simp [hm] at this
      · rename_i hm
        rw [← probeIdx_succ, ih]
        constructor
        · rintro h (_ | j) hj
          · exact ⟨by simpa using ho, by simpa using hm⟩
          · rw [shift]; exact h j (by omega)
        · intro h j hj
          rw [← shift]; exact h (j + 1) (by omega)

/-- dictAdd's loop ends at the first unoccupied slot of the sequence. -/
theorem probeFree_eq_some {ht : List (Nat × Slot)} {p : Code} {e : Byte} {fuel i n : Nat} {x : SlotIdx} :
    probeFree ht (hashH2 p e) fuel (probeIdx p e i) i = some (x, n) ↔
      ∃ k, k < fuel ∧ n = i + k + 1 ∧ x = probeIdx p e (i + k) ∧
        (∀ j < k, (slotAt ht (probeIdx p e (i + j))).occ = true) ∧ (slotAt ht (probeIdx p e (i + k))).occ = false := by
  induction fuel generalizing i with
  | zero => simp [probeFree]
  | succ fuel ih =>
    have shift : ∀ j, i + (j + 1) = i + 1 + j := fun j => by omega
    rw [probeFree]
    by_cases ho : (slotAt ht (probeIdx p e i)).occ = false
    · rw [if_pos ho]
      constructor
      · rintro h
        obtain ⟨rfl, rfl⟩ : x = probeIdx p e i ∧ n = i + 1 := by simpa [eq_comm] using h
        exact ⟨0, by omega, rfl, rfl, by simp, ho⟩
      · rintro ⟨k, -, rfl, rfl, hj, hk⟩
        rcases Nat.eq_zero_or_pos k with rfl | hpos
        · rfl
        · have := hj 0 hpos; rw [Nat.add_zero] at this; simp [ho] at this
    · rw [if_neg ho, ← probeIdx_succ, ih]
      constructor
      · rintro ⟨k, hk, rfl, rfl, hj, he⟩
        refine ⟨k + 1, by omega, by omega, by rw [shift k], fun j hjk => ?_, by rw [shift]; exact he⟩
        rcases j with _ | j
        · simpa using ho
        · rw [shift]; exact hj j (by omega)
      · rintro ⟨k, hk, rfl, rfl, hj, he⟩
        rcases k with _ | k
        · rw [Nat.add_zero] at he; exact absurd he ho
        · refine ⟨k, by omega, by omega, by rw [shift k], fun j hjk => ?_, by rw [← shift]; exact he⟩
          rw [← shift]; exact hj (j + 1) (by omega)

/-- dictAdd's loop does not end within `fuel` slots exactly when all of them are occupied. -/
theorem probeFree_eq_none {ht : List (Nat × Slot)} {p : Code} {e : Byte} {fuel i : Nat} :
    probeFree ht (hashH2 p e) fuel (probeIdx p e i) i = none ↔
      ∀ j < fuel, (slotAt ht (probeIdx p e (i + j))).occ = true := by
  induction fuel generalizing i with
  | zero => simp [probeFree]
  | succ fuel ih =>
    have shift : ∀ j, i + (j + 1) = i + 1 + j := fun j => by omega
    rw [probeFree]
    split
    · rename_i ho
      refine iff_of_false (by simp) fun h => ?_
      have := h 0 (by omega); rw [Nat.add_zero] at this; simp [ho] at this
    · rename_i ho
      rw [← probeIdx_succ, ih]
      constructor
      · rintro h (_ | j) hj
        · simpa using ho
        · rw [shift]; exact h j (by omega)
      · intro h j hj
        rw [← shift]; exact h (j + 1) (by omega)

/-! ### dictFind -/

/-- dictFind of a root key answers without probing (40_dictionary R86). -/
theorem dictFind_root (e : Byte) (s : State) :
    dictFind Config.invalid e s = .done (e.setWidth 16) { s with lastProbes := 0#13 } := by simp [dictFind]

/-- Every way dictFind of another key ends: at the first slot of the probe sequence that is unoccupied or holds the key;
only LAST_PROBES changes (40_dictionary R86). -/
theorem dictFind_cases {p : Code} (hp : p ≠ Config.invalid) (e : Byte) (s : State) :
    (∃ c n, n < 4096 ∧
      (∀ j < n, (slotAt s.ht (probeIdx p e j)).occ = true ∧ keyMatches (slotAt s.ht (probeIdx p e j)) p e = false) ∧
      (((slotAt s.ht (probeIdx p e n)).occ = false ∧ c = Config.notFound) ∨
        ((slotAt s.ht (probeIdx p e n)).occ = true ∧ keyMatches (slotAt s.ht (probeIdx p e n)) p e = true ∧
          c = (slotAt s.ht (probeIdx p e n)).code)) ∧
      dictFind p e s = .done c { s with lastProbes := BitVec.ofNat 13 (n + 1) }) ∨
    (dictFind p e s = .stuck .probeLoop ∧ ∀ j < 4096, (slotAt s.ht (probeIdx p e j)).occ = true) := by
  unfold dictFind
  rw [if_neg hp, ← probeIdx_zero]
  cases h : probeFind s.ht p e (hashH2 p e) Config.hashSlots (probeIdx p e 0) 0 with
  | none =>
    refine .inr ⟨rfl, fun j hj => ?_⟩
    have := (probeFind_eq_none.1 h j hj).1
    rwa [Nat.zero_add] at this
  | some r =>
    obtain ⟨c, n⟩ := r
    obtain ⟨k, hk, hn, hj, he⟩ := probeFind_eq_some.1 h
    simp only [Nat.zero_add] at hn hj he
    exact .inl ⟨c, k, hk, hj, he, by rw [hn]⟩

/-- dictFind, given where its probes end. -/
theorem dictFind_at {p : Code} (hp : p ≠ Config.invalid) {e : Byte} {s : State} {n : Nat} (hn : n < 4096)
    (hj : ∀ j < n, (slotAt s.ht (probeIdx p e j)).occ = true ∧ keyMatches (slotAt s.ht (probeIdx p e j)) p e = false)
    {c : Code}
    (he : ((slotAt s.ht (probeIdx p e n)).occ = false ∧ c = Config.notFound) ∨
      ((slotAt s.ht (probeIdx p e n)).occ = true ∧ keyMatches (slotAt s.ht (probeIdx p e n)) p e = true ∧
        c = (slotAt s.ht (probeIdx p e n)).code)) :
    dictFind p e s = .done c { s with lastProbes := BitVec.ofNat 13 (n + 1) } := by
  have h : probeFind s.ht p e (hashH2 p e) Config.hashSlots (probeIdx p e 0) 0 = some (c, n + 1) :=
    probeFind_eq_some.2 ⟨n, hn, by omega, by simpa using hj, by simpa using he⟩
  rw [probeIdx_zero] at h
  unfold dictFind
  rw [if_neg hp, h]

/-! ### dictAdd -/

/-- Every way dictInsert ends: the key is stored in the first unoccupied slot of its probe sequence under the code
DICT_SIZE (40_dictionary R88). -/
theorem dictInsert_cases (p : Code) (e : Byte) (s : State) :
    (∃ n, n < 4096 ∧ (∀ j < n, (slotAt s.ht (probeIdx p e j)).occ = true) ∧
      (slotAt s.ht (probeIdx p e n)).occ = false ∧
      dictInsert p e s = .done (s.dictSize.setWidth 16)
        { s with
          ht := setSlot s.ht (probeIdx p e n) { occ := true, pfx := p, ext := e, code := s.dictSize.setWidth 16 }
          lastProbes := BitVec.ofNat 13 (n + 1)
          dictSize := s.dictSize + 1#13 }) ∨
    (dictInsert p e s = .stuck .probeLoop ∧ ∀ j < 4096, (slotAt s.ht (probeIdx p e j)).occ = true) := by
  unfold dictInsert
  rw [← probeIdx_zero]
  cases h : probeFree s.ht (hashH2 p e) Config.hashSlots (probeIdx p e 0) 0 with
  | none =>
    refine .inr ⟨rfl, fun j hj => ?_⟩
    have := probeFree_eq_none.1 h j hj
    rwa [Nat.zero_add] at this
  | some r =>
    obtain ⟨x, n⟩ := r
    obtain ⟨k, hk, hn, hx, hj, he⟩ := probeFree_eq_some.1 h
    simp only [Nat.zero_add] at hn hx hj he
    exact .inl ⟨k, hk, hj, he, by rw [hn, hx]⟩

/-- dictInsert, given the first unoccupied slot. -/
theorem dictInsert_at {p : Code} {e : Byte} {s : State} {n : Nat} (hn : n < 4096)
    (hj : ∀ j < n, (slotAt s.ht (probeIdx p e j)).occ = true) (he : (slotAt s.ht (probeIdx p e n)).occ = false) :
    dictInsert p e s = .done (s.dictSize.setWidth 16)
      { s with
        ht := setSlot s.ht (probeIdx p e n) { occ := true, pfx := p, ext := e, code := s.dictSize.setWidth 16 }
        lastProbes := BitVec.ofNat 13 (n + 1)
        dictSize := s.dictSize + 1#13 } := by
  have h : probeFree s.ht (hashH2 p e) Config.hashSlots (probeIdx p e 0) 0 = some (probeIdx p e n, n + 1) :=
    probeFree_eq_some.2 ⟨n, hn, by omega, by simp, by simpa using hj, by simpa using he⟩
  rw [probeIdx_zero] at h
  unfold dictInsert
  rw [h]

/-! ### The scheduler and the reset at capacity -/

/-- Every way `cwsOnAdd` ends (41_code_width R97). -/
theorem cwsOnAdd_cases (s : State) :
    (cwsOnAdd s = { s with codeWidth := s.codeWidth + 1#4 } ∧ 2 ^ s.codeWidth.toNat ≤ s.dictSize.toNat ∧
        s.codeWidth.toNat < 12) ∨
      (cwsOnAdd s = s ∧ (s.dictSize.toNat < 2 ^ s.codeWidth.toNat ∨ 12 ≤ s.codeWidth.toNat)) := by
  unfold cwsOnAdd Config.maxWidth
  split
  · rename_i h; exact .inl ⟨rfl, h.1, h.2⟩
  · rename_i h
    refine .inr ⟨rfl, ?_⟩
    by_cases h1 : 2 ^ s.codeWidth.toNat ≤ s.dictSize.toNat
    · exact .inr (by by_contra h2; exact h ⟨h1, by omega⟩)
    · exact .inl (by omega)

/-- Every way `resetIfFull` ends (40_dictionary R88, 45_decoder R139). -/
theorem resetIfFull_cases (s : State) :
    (resetIfFull s = countReset (dictReset s) ∧ s.dictSize.toNat = 4096) ∨
      (resetIfFull s = s ∧ s.dictSize.toNat ≠ 4096) := by
  unfold resetIfFull Config.capacity
  split
  · rename_i h; exact .inl ⟨rfl, h⟩
  · rename_i h; exact .inr ⟨rfl, h⟩

/-- Below the bound of 10_state R49 DICT_RESETS counts one more. -/
theorem resetsAfter_below {n : Word} (h : n.toNat < Config.counterBound) (k : Nat) : resetsAfter n k = n + 1#32 := if_pos h

/-- No count passes the bound of 10_state R49. -/
theorem resetsAfter_le (n : Word) (k : Nat) : (resetsAfter n k).toNat ≤ Config.counterBound := by
  unfold resetsAfter Config.counterBound
  split
  · rw [BitVec.toNat_add, BitVec.toNat_ofNat]; omega
  · rw [BitVec.toNat_ofNat]
    exact le_trans (Nat.mod_le _ _) (Nat.le_of_lt_succ (Config.freeResets k).isLt)

/-- Everything `countReset` can do: count one more below the bound of 10_state R49, or take a free value within it. -/
theorem countReset_cases (s : State) :
    (s.dictResets.toNat < Config.counterBound ∧ countReset s = { s with dictResets := s.dictResets + 1#32 }) ∨
    (Config.counterBound ≤ s.dictResets.toNat ∧ ∃ n : Word, n.toNat ≤ Config.counterBound ∧
      countReset s = { s with dictResets := n, freeCount := s.freeCount + 1 }) := by
  by_cases h : s.dictResets.toNat < Config.counterBound
  · exact .inl ⟨h, by simp [countReset, resetsAfter, freeCountAfter, h]⟩
  · exact .inr ⟨by omega, _, resetsAfter_le s.dictResets s.freeCount, by simp [countReset, freeCountAfter, h]⟩

/-- What `resetIfFull` does to DICT_RESETS: it counts one reset of a full dictionary, or nothing (10_state R35). -/
theorem resetIfFull_dictResets (s : State) :
    ((resetIfFull s).dictResets = resetsAfter s.dictResets s.freeCount ∧ s.dictSize.toNat = 4096) ∨
      ((resetIfFull s).dictResets = s.dictResets ∧ s.dictSize.toNat ≠ 4096) := by
  rcases resetIfFull_cases s with ⟨e, h⟩ | ⟨e, h⟩ <;> rw [e]
  · exact .inl ⟨rfl, h⟩
  · exact .inr ⟨rfl, h⟩

/-- Below the bound of 10_state R49 DICT_RESETS grows by at most one, and no free value is taken. -/
theorem resetIfFull_below {s : State} (h : s.dictResets.toNat < Config.counterBound) :
    (resetIfFull s).dictResets.toNat ≤ s.dictResets.toNat + 1 ∧ (resetIfFull s).freeCount = s.freeCount := by
  rcases resetIfFull_cases s with ⟨e, -⟩ | ⟨e, -⟩ <;> rw [e]
  · simp only [countReset_dictResets, countReset_freeCount, dictReset_dictResets, dictReset_freeCount]
    rw [resetsAfter_below h, BitVec.toNat_add]
    exact ⟨Nat.mod_le _ _, if_pos h⟩
  · exact ⟨Nat.le_succ _, rfl⟩

/-- After dictAdd DICT_RESETS and the count of free values are what the reset at capacity left (40_dictionary R88). -/
theorem dictAdd_dictResets {p c : Code} {e : Byte} {s t : State} (h : dictAdd p e s = .done c t) :
    t.dictResets = (resetIfFull s).dictResets ∧ t.freeCount = (resetIfFull s).freeCount := by
  unfold dictAdd dictInsert at h
  split at h
  · cases h; simp
  · cases h

/-- A stored code is read back as DICT_SIZE's number. -/
theorem size_code_toNat (n : BitVec 13) : (n.setWidth 16 : Code).toNat = n.toNat := by
  rw [BitVec.toNat_setWidth]
  exact Nat.mod_eq_of_lt (by have := n.isLt; omega)

end Sys2Proof.Machine
end

