-- ==== Sys2Proof/Laws/Encoding.lean ====
section
/-! SUPPORT. The fields of the words the encoder writes (30_encoding R69, R70), one lemma a field. -/

namespace Sys2Proof

/-- A field taken out of the high part of a concatenation. -/
theorem extract_append_high {m n start len : Nat} (a : BitVec m) (b : BitVec n) (h : n ≤ start) :
    (a ++ b).extractLsb' start len = a.extractLsb' (start - n) len := by
  apply BitVec.eq_of_getLsbD_eq
  intro i hi
  simp only [BitVec.getLsbD_extractLsb', BitVec.getLsbD_append, hi, decide_true, Bool.true_and]
  rw [if_neg (by omega)]
  congr 1
  omega

/-- A field taken out of the low part of a concatenation. -/
theorem extract_append_low {m n start len : Nat} (a : BitVec m) (b : BitVec n) (h : start + len ≤ n) :
    (a ++ b).extractLsb' start len = b.extractLsb' start len := by
  apply BitVec.eq_of_getLsbD_eq
  intro i hi
  simp only [BitVec.getLsbD_extractLsb', BitVec.getLsbD_append, hi, decide_true, Bool.true_and]
  rw [if_pos (by omega)]

/-- A field that is a whole bit vector. -/
theorem extract_whole {n : Nat} (a : BitVec n) : a.extractLsb' 0 n = a := by
  apply BitVec.eq_of_getLsbD_eq
  intro i hi
  simp [hi]

@[simp] theorem opOf_encodeN (op : BitVec 4) : opOf (encodeN op) = op := by
  unfold opOf encodeN
  rw [extract_append_high _ _ (by omega)]
  exact extract_whole op

@[simp] theorem reserved_encodeN (op : BitVec 4) : (encodeN op).extractLsb' 0 28 = 0#28 := by
  unfold encodeN
  rw [extract_append_low _ _ (by omega)]
  exact extract_whole _

@[simp] theorem opOf_encodeK (op : BitVec 4) (p : Code) (e : Byte) : opOf (encodeK op p e) = op := by
  unfold opOf encodeK
  rw [extract_append_high _ _ (by omega), extract_append_high _ _ (by omega), extract_append_high _ _ (by omega)]
  exact extract_whole op

@[simp] theorem reserved_encodeK (op : BitVec 4) (p : Code) (e : Byte) :
    (encodeK op p e).extractLsb' 24 4 = 0#4 := by
  unfold encodeK
  rw [extract_append_high _ _ (by omega), extract_append_high _ _ (by omega), extract_append_low _ _ (by omega)]
  exact extract_whole _

@[simp] theorem prefixOf_encodeK (op : BitVec 4) (p : Code) (e : Byte) : prefixOf (encodeK op p e) = p := by
  unfold prefixOf encodeK
  rw [extract_append_high _ _ (by omega), extract_append_low _ _ (by omega)]
  exact extract_whole p

@[simp] theorem extOf_encodeK (op : BitVec 4) (p : Code) (e : Byte) : extOf (encodeK op p e) = e := by
  unfold extOf encodeK
  rw [extract_append_low _ _ (by omega)]
  exact extract_whole e

/-- The fields of a word of format W, and of format R, whose CODE bits are 0. -/
theorem fields_formatW (op : BitVec 4) (w : BitVec 5) (c : Code) :
    opOf (op ++ 0#7 ++ w ++ c) = op ∧ (op ++ 0#7 ++ w ++ c : Word).extractLsb' 21 7 = 0#7 ∧
      widthOf (op ++ 0#7 ++ w ++ c) = w ∧ codeOf (op ++ 0#7 ++ w ++ c) = c := by
  refine ⟨?_, ?_, ?_, ?_⟩
  · unfold opOf
    rw [extract_append_high _ _ (by omega), extract_append_high _ _ (by omega), extract_append_high _ _ (by omega)]
    exact extract_whole op
  · rw [extract_append_high _ _ (by omega), extract_append_high _ _ (by omega), extract_append_low _ _ (by omega)]
    exact extract_whole _
  · unfold widthOf
    rw [extract_append_high _ _ (by omega), extract_append_low _ _ (by omega)]
    exact extract_whole w
  · unfold codeOf
    rw [extract_append_low _ _ (by omega)]
    exact extract_whole c

end Sys2Proof
end

