-- ==== Sys2Proof/Laws/PerInstr.lean ====
section
/-! SUPPORT. Facts about every command as syntax, one lemma for each constructor: its word selects its own row of the
opcode map (30_encoding R71). -/

namespace Sys2Proof.Laws.TableRow

/-- The word of the command agrees with the match column of its row wherever the mask column is 1. -/
def Statement (i : Instr) : Prop := encode i &&& tableMask i = tableMatch i

theorem nop : Statement .nop := rfl

theorem compress : Statement .compress := rfl

theorem decompress : Statement .decompress := rfl

theorem dictReset : Statement .dictReset := rfl

/-- The mask of format K keeps the opcode and the reserved bits. -/
theorem encodeK_and (op : BitVec 4) (p : Code) (e : Byte) :
    encodeK op p e &&& 0xFF000000#32 = op ++ 0#4 ++ 0#16 ++ 0#8 := by
  rw [show 0xFF000000#32 = 0xF#4 ++ 0xF#4 ++ 0#16 ++ 0#8 from rfl]
  unfold encodeK
  rw [BitVec.and_append, BitVec.and_append, BitVec.and_append, BitVec.and_zero, BitVec.and_zero,
    BitVec.zero_and, show (0xF#4 : BitVec 4) = BitVec.allOnes 4 from rfl, BitVec.and_allOnes]

theorem dictFind (p : Code) (e : Byte) : Statement (.dictFind p e) := encodeK_and 0x4#4 p e

theorem dictAdd (p : Code) (e : Byte) : Statement (.dictAdd p e) := encodeK_and 0x5#4 p e

theorem bwClear : Statement .bwClear := rfl

theorem bwWrite (code : Code) (width : BitVec 5) : Statement (.bwWrite code width) := by
  show (0x7#4 ++ 0#7 ++ width ++ code) &&& 0xFFE00000#32 = 0x70000000#32
  rw [show 0xFFE00000#32 = 0xF#4 ++ 0x7F#7 ++ 0#5 ++ 0#16 from rfl, BitVec.and_append,
    BitVec.and_append, BitVec.and_zero, BitVec.and_zero]
  rfl

theorem bwFinish : Statement .bwFinish := rfl

theorem brInit : Statement .brInit := rfl

theorem brRead (width : BitVec 5) : Statement (.brRead width) := by
  show (0xA#4 ++ 0#7 ++ width ++ 0#16) &&& 0xFFE0FFFF#32 = 0xA0000000#32
  rw [show 0xFFE0FFFF#32 = 0xF#4 ++ 0x7F#7 ++ 0#5 ++ 0xFFFF#16 from rfl, BitVec.and_append,
    BitVec.and_append, BitVec.and_zero]
  rfl

theorem softReset : Statement .softReset := rfl

end Sys2Proof.Laws.TableRow
end

