-- ==== Sys2Proof/Tests/Slice0.lean ====
section
/-! SUPPORT. The model's own tests (expected values from 95_test_vectors, 30_encoding R78 and hand calculation from the
rules), and for every statement that has hypotheses states and operands that meet them. -/

namespace Sys2Proof.Tests

set_option Elab.async false

open Sys2Proof.Machine

/-! ### Helpers -/

/-- A value of the next state, if there is one. -/
def after {α : Type} (o : Host.Outcome State Fault Refusal) (f : State → α) : Option α :=
  match o with
  | .next t => some (f t)
  | .fault _ => none
  | .refused _ => none

/-- A value of the state `k` engine steps later, if there is one. -/
def afterRun {α : Type} (k : Nat) (s : State) (f : State → α) : Option α := (engineRun k s).map f

/-- A buffer that holds the bytes `l` from index 0 on. -/
def buffer (l : List Byte) : Memory := l.zipIdx.map fun x => (x.2, x.1)

/-- A machine right after reset, with small buffers and a window that is not at 0. -/
def fresh : State := { State.reset with params := { base := 0x4000000, ibufCap := 16, obufCap := 16 } }

/-- "AAAA" to compress. -/
def aaaa : State := { fresh with ibuf := buffer [0x41#8, 0x41#8, 0x41#8, 0x41#8], inLen := 4#32, outCap := 4#32 }

/-- The stream of "AAAA" to decompress. -/
def packed : State := { fresh with ibuf := buffer [0x41#8, 0x80#8, 0x10#8, 0x40#8], inBits := 26#32, outCap := 4#32 }

/-- The entry (65, 65) under the code 256, in its slot 1105. -/
def entryAA : Nat × Slot := (1105, { occ := true, pfx := 65#16, ext := 65#8, code := 256#16 })

/-- One entry in the dictionary. -/
def held : State := { fresh with ht := [entryAA], dictSize := 257#13, codeWidth := 9#4 }

/-- A full dictionary whose codes were added by a decoder, so that no slot is occupied. -/
def full : State := { fresh with dictSize := 4096#13, codeWidth := 12#4 }

/-- Trace R133 at issue. -/
def enc0 : State := { aaaa with status := statusBusy, fsm := .encMatch, ipos := 1#32, pfx := 65#16 }

/-- Trace R133 after step 1. -/
def enc1 : State :=
  { enc0 with
    ht := [entryAA], dictSize := 257#13, codeWidth := 9#4, lastProbes := 1#13, ipos := 2#32, codes := 1#32, wcur := 8#32,
    obuf := [(0, 0x41#8)] }

/-- Trace R133 after step 2. -/
def enc2 : State := { enc1 with pfx := 256#16, ipos := 3#32 }

/-- Trace R133 after step 4. -/
def enc4 : State :=
  { enc1 with
    fsm := .encFlush, ht := [entryAA, (1296, { occ := true, pfx := 256#16, ext := 65#8, code := 257#16 })],
    dictSize := 258#13, ipos := 4#32, codes := 2#32, wcur := 17#32, obuf := [(0, 0x41#8), (1, 0x80#8)] }

/-- Trace R147 at issue. -/
def dec0 : State := { packed with status := statusBusy, fsm := .decFirst }

/-- Trace R147 after step 1. -/
def dec1 : State :=
  { dec0 with
    fsm := .decLoop, rcur := 8#32, codes := 1#32, wcur := 8#32, obuf := [(0, 0x41#8)],
    prev := { head := 0x41#8, tail := [] } }

/-- Trace R147 after step 2. -/
def dec2 : State :=
  { dec1 with
    rcur := 17#32, codes := 2#32, wcur := 24#32, obuf := buffer [0x41#8, 0x41#8, 0x41#8],
    st := [(256, { head := 0x41#8, tail := [0x41#8] })], dictSize := 257#13, codeWidth := 9#4,
    prev := { head := 0x41#8, tail := [0x41#8] } }

/-- `dec2` with a stream whose third code is 256 again. -/
def dec2Again : State := { dec2 with ibuf := buffer [0x41#8, 0x80#8, 0x40#8], outCap := 5#32 }

/-- Trace R147 after step 3. -/
def dec3 : State :=
  { dec1 with
    rcur := 26#32, codes := 3#32, wcur := 32#32, obuf := buffer [0x41#8, 0x41#8, 0x41#8, 0x41#8],
    st := [(256, { head := 0x41#8, tail := [0x41#8] }), (257, { head := 0x41#8, tail := [0x41#8, 0x41#8] })],
    dictSize := 258#13, codeWidth := 9#4 }

/-- `dec1` with a previous sequence of SEQ_MAX_LEN bytes. -/
def decLong : State := { dec1 with prev := { head := 0x41#8, tail := List.replicate 4095 0x41#8 } }

/-! ### Well-formedness: one ill-formed term for each check -/

theorem test_bwWrite_width_17_refused : Instr.wellFormed (.bwWrite 0x0041#16 17#5) = false := by decide

theorem test_brRead_width_31_refused : Instr.wellFormed (.brRead 31#5) = false := by decide

/-! ### Decoding: words written out from the formats of 30_encoding R69, opcode first -/

theorem test_decode_nop : decode 0b0000_0000_0000_0000_0000_0000_0000_0000#32 = .ok .nop := rfl
theorem test_decode_compress : decode 0b0001_0000_0000_0000_0000_0000_0000_0000#32 = .ok .compress := rfl
theorem test_decode_decompress : decode 0b0010_0000_0000_0000_0000_0000_0000_0000#32 = .ok .decompress := rfl
theorem test_decode_dictReset : decode 0b0011_0000_0000_0000_0000_0000_0000_0000#32 = .ok .dictReset := rfl
theorem test_decode_dictFind :
    decode 0b0100_0000_0001_0010_0011_0100_1010_1011#32 = .ok (.dictFind 0x1234#16 0xAB#8) := rfl
theorem test_decode_dictAdd :
    decode 0b0101_0000_0000_0001_0000_0000_0100_0001#32 = .ok (.dictAdd 256#16 65#8) := rfl
theorem test_decode_bwClear : decode 0b0110_0000_0000_0000_0000_0000_0000_0000#32 = .ok .bwClear := rfl
theorem test_decode_bwWrite :
    decode 0b0111_0000_0000_1001_0000_0001_0000_0000#32 = .ok (.bwWrite 256#16 9#5) := rfl
theorem test_decode_bwFinish : decode 0b1000_0000_0000_0000_0000_0000_0000_0000#32 = .ok .bwFinish := rfl
theorem test_decode_brInit : decode 0b1001_0000_0000_0000_0000_0000_0000_0000#32 = .ok .brInit := rfl
theorem test_decode_brRead : decode 0b1010_0000_0001_0000_0000_0000_0000_0000#32 = .ok (.brRead 16#5) := rfl
theorem test_decode_softReset : decode 0b1111_0000_0000_0000_0000_0000_0000_0000#32 = .ok .softReset := rfl
theorem test_decode_op_C : decode 0xC0000000#32 = .error .reservedOpcode := rfl
theorem test_decode_dictFind_reserved_bit : decode 0x41000000#32 = .error .reservedBits := rfl
theorem test_decode_bwWrite_reserved_bit : decode 0x70200000#32 = .error .reservedBits := rfl
theorem test_decode_brRead_reserved_bit : decode 0xA0090001#32 = .error .reservedBits := rfl

/-! ### The command meanings -/

/-- 46_control R153: STATUS 0x34 becomes 0x02. -/
theorem test_nop_clears_error :
    after (exec .nop { fresh with status := statusError .truncated }) (·.status.toWord) = some 0x02#32 := by decide

/-- 95_test_vectors 2.1: an illegal word gives STATUS 0x44. -/
theorem test_illegal_status : after (issue 0xB0000000#32 fresh) (·.status.toWord) = some 0x44#32 := by decide

/-- 95_test_vectors K3. -/
theorem test_softReset_keeps_obuf :
    after (exec .softReset { enc4 with status := statusDone, fsm := .idle }) (fun t => (t.wcur, t.dictSize, t.obuf.read 1))
      = some (0#32, 256#13, 0x80#8) := by decide

/-- 95_test_vectors 2.2 row 13. -/
theorem test_dictReset_frees_the_slot :
    after (exec .dictReset held) (fun t => (t.dictSize, t.codeWidth, (slotAt t.ht 1105#12).occ, (slotAt t.ht 1105#12).code))
      = some (256#13, 8#4, false, 256#16) := by decide

/-- 95_test_vectors 2.2: the hashes of (0x1234, 0xAB). -/
theorem test_hash_1234_AB : hashH1 0x1234#16 0xAB#8 = 0x885#12 ∧ hashH2 0x1234#16 0xAB#8 = 0x6A3#12 := by decide

/-- 95_test_vectors 2.2: slots 1 to 3 of (258, 65). -/
theorem test_probe_sequence :
    (probeIdx 258#16 65#8 1, probeIdx 258#16 65#8 2, probeIdx 258#16 65#8 3) = (1751#12, 2204#12, 2657#12) := by decide

/-- 95_test_vectors 2.2 row 6. -/
theorem test_dictFind_hit :
    after (exec (.dictFind 65#16 65#8) held) (fun t => (t.result, t.lastProbes)) = some (0x100#32, 1#13) := by decide

/-- 95_test_vectors 2.2 row 7. -/
theorem test_dictFind_root :
    after (exec (.dictFind 0xFFFF#16 0x41#8) held) (fun t => (t.result, t.lastProbes)) = some (0x41#32, 0#13) := by decide

/-- 95_test_vectors 2.2 row 3: the collision goes to slot 1110. -/
theorem test_dictAdd_collision :
    after (exec (.dictAdd 17#16 68#8) held)
        (fun t => (t.result, t.lastProbes, t.dictSize, t.codeWidth, (slotAt t.ht 1110#12).code))
      = some (0x101#32, 2#13, 258#13, 9#4, 0x101#16) := by decide

/-- 95_test_vectors 2.2, add 3841. -/
theorem test_dictAdd_at_capacity :
    after (exec (.dictAdd 5#16 9#8) full) (fun t => (t.result, t.dictSize, t.codeWidth, t.dictResets, t.lastProbes))
      = some (0x100#32, 257#13, 9#4, 1#32, 1#13) := by decide

theorem test_bwClear : after (exec .bwClear { fresh with wcur := 26#32 }) (·.wcur) = some 0#32 := by decide

/-- 95_test_vectors W3, from the state after the three writes of W1. -/
theorem test_bwWrite_fills_the_buffer :
    after (exec (.bwWrite 0x3F#16 6#5)
        { fresh with outCap := 4#32, wcur := 26#32, obuf := buffer [0x41#8, 0x80#8, 0x10#8, 0x40#8] })
      (fun t => (t.wcur, t.obuf.read 3, t.status.toWord)) = some (32#32, 0x7F#8, 0x02#32) := by decide

/-- 95_test_vectors W5. -/
theorem test_bwWrite_overflow :
    after (exec (.bwWrite 65#16 9#5) { fresh with outCap := 1#32 }) (fun t => (t.wcur, t.obuf, t.status.toWord))
      = some (0#32, [], 0x14#32) := by decide

/-- 95_test_vectors W9: the pad bits are cleared. -/
theorem test_bwFinish_pads :
    after (exec .bwFinish { fresh with outCap := 1#32, wcur := 6#32, obuf := [(0, 0xFF#8)] })
      (fun t => (t.obuf.read 0, t.result, t.outLen, t.outBits, t.wcur)) = some (0xFC#8, 1#32, 1#32, 6#32, 6#32) := by decide

theorem test_brInit : after (exec .brInit { packed with rcur := 17#32 }) (·.rcur) = some 0#32 := by decide

/-- 95_test_vectors B9. -/
theorem test_brRead_nine_bits :
    after (exec (.brRead 9#5) packed) (fun t => (t.result, t.rcur)) = some (0x83#32, 9#32) := by decide

/-- 95_test_vectors B10: IN_BITS below RCUR. -/
theorem test_brRead_truncated :
    after (exec (.brRead 1#5) { packed with rcur := 9#32, inBits := 5#32 }) (fun t => (t.status.toWord, t.rcur))
      = some (0x34#32, 9#32) := by decide

/-- 44_encoder R122, the example. -/
theorem test_compress_issue :
    after (exec .compress aaaa) (fun t => (t.status.toWord, t.fsm, t.pfx, t.ipos)) = some (0x01#32, .encMatch, 65#16, 1#32) := by
  decide

/-- 44_encoder R133, step 3: write 256 at width 9 and add (256, 65). -/
theorem test_encMatch_miss :
    after (engineTurn enc2) (fun t => (t.pfx, t.ipos, t.dictSize, t.wcur, t.obuf.read 1, (slotAt t.ht 1296#12).code))
      = some (65#16, 4#32, 258#13, 17#32, 0x80#8, 257#16) := by decide

/-- 44_encoder R133, step 5. -/
theorem test_encFlush :
    after (engineTurn enc4) (fun t => (t.outLen, t.outBits, t.codes, t.obuf.read 2, t.obuf.read 3, t.status.toWord))
      = some (4#32, 26#32, 3#32, 0x10#8, 0x40#8, 0x02#32) := by decide

/-- 45_decoder R134: the empty stream. -/
theorem test_decompress_empty :
    after (exec .decompress { packed with inBits := 0#32 }) (fun t => (t.status.toWord, t.fsm)) = some (0x0A#32, .idle) := by
  decide

/-- 45_decoder R147, step 2: the KwKwK case. -/
theorem test_decLoop_kwkwk :
    after (engineTurn dec1) (fun t => (t.obuf.read 2, t.rcur, t.wcur, t.dictSize, seqAt t.st 256))
      = some (0x41#8, 17#32, 24#32, 257#13, { head := 0x41#8, tail := [0x41#8] }) := by decide

/-- 95_test_vectors X6: 257 is not the next code. -/
theorem test_decLoop_malformed :
    after (engineTurn { dec1 with ibuf := buffer [0x41#8, 0x80#8, 0x80#8], inBits := 17#32 })
      (fun t => (t.status.toWord, t.codes, t.rcur, t.wcur)) = some (0x24#32, 2#32, 17#32, 8#32) := by decide

/-! ### Host accesses -/

/-- 10_state R40. -/
theorem test_read_id :
    after (hostAccess (.readWord 0x4000048) fresh) (·.readData) = some 0x4C5A5701#32 := by decide

/-- 20_memory R54: the byte at the capacity is not stored. -/
theorem test_write_past_capacity : after (hostAccess (.writeByte 0x5000010 0x55#8) fresh) (·.ibuf) = some [] := by decide

/-- A word written to CMD through the window runs the command (46_control R148). -/
theorem test_withFetchWord_runs :
    after (step (State.reset.withFetchWord 32 0x00000000)) (·.status.toWord) = some 0x02#32 := by decide

/-! ### The invariant of the states above -/

/-- `Inv`, part by part as evaluation decides it, with the sequences bounded entry by entry. -/
theorem inv_of (s : State)
    (h1 : s.params.Legal := by decide) (h2 : s.status.Legal := by decide)
    (h3 : s.status.busy = true ↔ s.fsm ≠ .idle := by decide)
    (b1 : s.ibuf.wf ∧ s.obuf.wf := by decide)
    (b2 : (∀ c ∈ s.ibuf, c.1 < s.params.ibufCap) ∧ ∀ c ∈ s.obuf, c.1 < s.params.obufCap := by decide)
    (b3 : Sparse.Wf Slot.blank s.ht ∧ ∀ c ∈ s.ht, c.1 < 4096 := by decide)
    (b4 : Sparse.Wf ByteSeq.blank s.st ∧ ∀ c ∈ s.st, (256 ≤ c.1 ∧ c.1 < 4096) ∧ c.2.length ≤ 4096 := by decide)
    (c1 : 256 ≤ s.dictSize.toNat ∧ s.dictSize.toNat ≤ 4096 ∧ 8 ≤ s.codeWidth.toNat ∧ s.codeWidth.toNat ≤ 12 := by decide)
    (c2 : s.dictSize.toNat ≤ 2 ^ s.codeWidth.toNat ∧ 2 ^ (s.codeWidth.toNat - 1) < s.dictSize.toNat := by decide)
    (c3 : occCount s.ht + 256 ≤ s.dictSize.toNat ∧
      ∀ c ∈ s.ht, c.2.occ = true → 256 ≤ c.2.code.toNat ∧ c.2.code.toNat < s.dictSize.toNat := by decide)
    (d1 : s.wcur.toNat ≤ 8 * s.params.obufCap ∧ s.rcur.toNat ≤ 8 * s.params.ibufCap ∧ s.ipos.toNat ≤ s.params.ibufCap ∧
      s.codes.toNat ≤ s.params.ibufCap ∧ s.outLen.toNat ≤ s.params.obufCap ∧
      s.outBits.toNat ≤ 8 * s.params.obufCap ∧ s.lastProbes.toNat ≤ 4096 ∧ s.dictResets.toNat ≤ 2 ^ 27 := by decide)
    (e1 : s.fsm = .encMatch ∨ s.fsm = .encFlush →
      s.inLen.toNat ≤ s.params.ibufCap ∧ s.outCap.toNat ≤ s.params.obufCap ∧ s.wcur.toNat ≤ 8 * s.outCap.toNat ∧
      1 ≤ s.ipos.toNat ∧ s.ipos.toNat ≤ s.inLen.toNat ∧ s.codes.toNat < s.ipos.toNat ∧
      s.pfx.toNat < s.dictSize.toNat := by decide)
    (e2 : s.fsm = .encMatch ∨ s.fsm = .encFlush →
      (s.codes = 0#32 → s.wcur = 0#32 ∧ s.codeWidth = 8#4) ∧
      (s.codes ≠ 0#32 → s.wcur.toNat + 4 ≤ 12 * s.codes.toNat) := by decide)
    (f1 : s.fsm = .encFlush → s.ipos = s.inLen := by decide)
    (g1 : s.fsm = .decFirst ∨ s.fsm = .decLoop →
      1 ≤ s.inBits.toNat ∧ s.inBits.toNat ≤ 8 * s.params.ibufCap ∧ s.outCap.toNat ≤ s.params.obufCap ∧
      s.rcur.toNat ≤ s.inBits.toNat ∧ s.wcur.toNat ≤ 8 * s.outCap.toNat ∧ s.wcur.toNat % 8 = 0 ∧
      8 * s.codes.toNat ≤ s.rcur.toNat := by decide)
    (i1 : s.fsm = .decFirst → s.dictSize = 256#13 ∧ s.codes = 0#32 ∧ s.rcur = 0#32 ∧ s.wcur = 0#32 := by decide)
    (j1 : s.prev.length ≤ 4096 := by decide)
    (k1 : s.fsm ≠ .idle → s.dictResets.toNat ≤ s.codes.toNat := by decide) : Inv s := by
  obtain ⟨d1, d2, d3, d4, d5, d6, d7, d8⟩ := d1
  refine ⟨h1, h2, h3, ⟨b1.1, b2.1, b1.2, b2.2, b3.1, b3.2, b4.1, fun c h => (b4.2 c h).1⟩,
    ⟨c1.1, c1.2.1, c1.2.2.1, c1.2.2.2, c2.1, c2.2, c3.1, c3.2⟩, ⟨d1, d2, d3, d4, d5, d6, d7, d8⟩,
    fun h => ?_, f1, fun h => ?_, i1, fun _ => ⟨j1, fun c _ _ => ?_⟩, k1⟩
  · obtain ⟨x1, x2, x3, x4, x5, x6, x7⟩ := e1 h
    exact ⟨x1, x2, x3, x4, x5, x6, x7, (e2 h).1, (e2 h).2⟩
  · obtain ⟨x1, x2, x3, x4, x5, x6, x7⟩ := g1 h
    exact ⟨x1, x2, x3, x4, x5, x6, x7⟩
  · by_cases hb : seqAt s.st c = ByteSeq.blank
    · rw [hb]; decide
    · exact (b4.2 _ (Sparse.mem_of_read_ne hb)).2

/-- A table with one entry, in the first slot of its probe sequence, is one that probing can search. -/
theorem hashOk_single {x : Slot} : HashOk [((hashH1 x.pfx x.ext).toNat, x)] := by
  intro i ho
  have hi : hashH1 x.pfx x.ext = i := by
    by_contra hne
    have : (hashH1 x.pfx x.ext).toNat ≠ i.toNat := fun h => hne (BitVec.eq_of_toNat_eq h)
    simp [slotAt, Sparse.read, this, Slot.blank] at ho
  subst hi
  refine ⟨0, by omega, ?_, fun j hj => absurd hj (by omega)⟩
  simp [slotAt, Sparse.read]

theorem inv_fresh : Inv fresh := inv_of _
theorem inv_aaaa : Inv aaaa := inv_of _
theorem inv_packed : Inv packed := inv_of _
theorem inv_held : Inv held := inv_of _
theorem inv_full : Inv full := inv_of _
theorem inv_enc0 : Inv enc0 := inv_of _
theorem inv_enc1 : Inv enc1 := inv_of _
theorem inv_enc4 : Inv enc4 := inv_of _
theorem inv_dec0 : Inv dec0 := inv_of _
theorem inv_dec1 : Inv dec1 := inv_of _
theorem inv_dec2 : Inv dec2 := inv_of _
theorem inv_dec2Again : Inv dec2Again := inv_of _
theorem inv_dec3 : Inv dec3 := inv_of _
theorem inv_decLong : Inv decLong := inv_of _ (j1 := by rw [show decLong.prev.length = (List.replicate 4095 0x41#8).length + 1 from rfl, List.length_replicate])
theorem hashOk_fresh : HashOk fresh.ht := fun i h => absurd h (by simp [fresh, State.reset, slotAt, Slot.blank])
theorem hashOk_held : HashOk held.ht := hashOk_single (x := entryAA.2)
theorem hashOk_enc1 : HashOk enc1.ht := hashOk_single (x := entryAA.2)

/-! ### Witnesses: the hypotheses of each statement can be met together

One theorem for each statement, or for each of its clauses, at a boundary value where there is one. The name is that of
the statement. -/

theorem witness_DecodeInvertsEncode : Instr.wellFormed (.bwWrite 0xFFFF#16 16#5) = true := by decide

theorem witness_EncodeInvertsDecode : decode 0x7010FFFF#32 = .ok (.bwWrite 0xFFFF#16 16#5) := rfl

theorem witness_TableRowSelectsCommand :
    decode 0xA0100000#32 = .ok (.brRead 16#5) ∧
    0xA0100000#32 &&& tableMask (.brRead 16#5) = tableMatch (.brRead 16#5) ∧
    (opOf 0xA0100000#32 = 0x7#4 ∨ opOf 0xA0100000#32 = 0xA#4 → (widthOf 0xA0100000#32).toNat ≤ 16) := by
  exact ⟨rfl, by decide, by decide⟩

theorem witness_IllegalWordChangesOnlyStatus_idle :
    decode 0xA0110000#32 = .error .widthRange ∧ fresh.status.busy = false ∧ fresh.fsm = .idle := ⟨rfl, rfl, rfl⟩

theorem witness_IllegalWordChangesOnlyStatus_busy :
    decode 0xE0000000#32 = .error .reservedOpcode ∧ enc0.status.busy = true := ⟨rfl, rfl⟩

theorem witness_StepRunsDecodedCommand :
    ({ fresh with inputs := [.access (.writeWord fresh.params.base 0x40004141#32)] } : State).inputs
      = .access (.writeWord fresh.params.base 0x40004141#32) :: [] ∧
    decode 0x40004141#32 = .ok (.dictFind 65#16 65#8) ∧ decode 0x00000001#32 = .error .reservedBits ∧
    decodeTableWord 32 0x40004141 = some (.dictFind 65#16 65#8) ∧
    ({ fresh with inputs := [.access (.writeByte (fresh.params.base + 0x1000000) 7#8), .engine] } : State).inputs
      = .access (.writeByte (fresh.params.base + 0x1000000) 7#8) :: [.engine] := ⟨rfl, rfl, rfl, rfl, rfl⟩

/-- A host byte store that is next in the order is made by the step. -/
theorem test_step_makes_the_access :
    after (step { fresh with inputs := [.access (.writeByte (fresh.params.base + 0x1000000) 7#8)] })
      (fun t => (t.ibuf.read 0, t.inputs)) = some (7#8, []) := by decide

theorem witness_EngineRunsRuleOfState :
    enc0.inputs = [] ∧ ({ enc0 with inputs := [.engine] } : State).inputs = .engine :: [] ∧
    fresh.status.busy = false ∧ (enc0.status.busy = true ∧ enc0.fsm = .encMatch) ∧
    (enc4.status.busy = true ∧ enc4.fsm = .encFlush) ∧ (dec0.status.busy = true ∧ dec0.fsm = .decFirst) ∧
    dec1.status.busy = true ∧ dec1.fsm = .decLoop := by decide

theorem witness_ErrorStopKeepsOtherState :
    decFirstRule { dec0 with inBits := 7#32 } = .raised .truncated { dec0 with inBits := 7#32 } ∧
    aaaa.status.busy = false ∧
    compressRule (clearFlags { aaaa with inLen := 17#32 })
      = .raised .configRange (clearFlags { aaaa with inLen := 17#32 }) := by decide

theorem witness_BusyIgnoresHostWrites : dec1.status.busy = true ∧ 0xFFFFFF < 2 ^ 24 := by decide

theorem witness_NopOnlySetsDone : fresh.status.busy = false := rfl

theorem witness_SoftResetResetsRegisters :
    held.status.busy = false ∧ Sparse.Wf Slot.blank held.ht ∧ enc0.status.busy = true := by decide

theorem witness_HardwareResetSetsRegisters :
    ({ enc1 with inputs := [.reset { ibuf := [], obuf := [], ht := [], st := [], prev := ByteSeq.blank }] } : State).inputs
      = .reset { ibuf := [], obuf := [], ht := [], st := [], prev := ByteSeq.blank } :: [] := rfl

theorem witness_HardwareResetDrawsAnyContents :
    Memory.wf [(0, 1#8), (15, 0xFF#8)] ∧ (∀ c ∈ [(0, 1#8), (15, 0xFF#8)], c.1 < fresh.params.ibufCap) ∧
    Sparse.Wf Slot.blank [(4095, { occ := false, pfx := 1#16, ext := 2#8, code := 3#16 })] ∧
    (∀ c ∈ [(4095, { occ := false, pfx := 1#16, ext := 2#8, code := 3#16 : Slot })], c.1 < 4096 ∧ c.2.occ = false) ∧
    Sparse.Wf ByteSeq.blank [(256, { head := 1#8, tail := [] }), (4095, { head := 0#8, tail := [0#8] })] ∧
    ∀ c ∈ [(256, { head := 1#8, tail := [] : ByteSeq }), (4095, { head := 0#8, tail := [0#8] })],
      256 ≤ c.1 ∧ c.1 < 4096 := by decide

theorem witness_ProbeSequenceVisitsEverySlot :
    0 < 4096 ∧ 4095 < 4096 ∧ probeIdx 0#16 0#8 4095 = probeIdx 0#16 0#8 4095 := ⟨by decide, by decide, rfl⟩

theorem witness_DictResetClearsOccupancy : held.status.busy = false ∧ Sparse.Wf Slot.blank held.ht := by decide

theorem witness_DictFindAnswersWhereProbesEnd_miss :
    (0x40FFFE41#32 : Word).extractLsb' 24 8 = 0x40#8 ∧ held.status.busy = false ∧ 17#16 ≠ 0xFFFF#16 ∧
    (∀ j < 1, (slotAt held.ht (probeIdx 17#16 68#8 j)).occ = true ∧
      ¬ ((slotAt held.ht (probeIdx 17#16 68#8 j)).pfx = 17#16 ∧ (slotAt held.ht (probeIdx 17#16 68#8 j)).ext = 68#8)) ∧
    (slotAt held.ht (probeIdx 17#16 68#8 1)).occ = false := by decide

theorem witness_DictFindAnswersWhereProbesEnd_hit :
    65#16 ≠ 0xFFFF#16 ∧ (∀ j < 0, (slotAt held.ht (probeIdx 65#16 65#8 j)).occ = true) ∧
    (slotAt held.ht (probeIdx 65#16 65#8 0)).occ = true ∧ (slotAt held.ht (probeIdx 65#16 65#8 0)).pfx = 65#16 ∧
    (slotAt held.ht (probeIdx 65#16 65#8 0)).ext = 65#8 := by decide

theorem witness_DictFindReturnsWithin3841Probes : DictOk full ∧ full.status.busy = false := ⟨inv_full.dict, rfl⟩

theorem witness_DictAddStoresKeyUnderNextCode_room :
    (0x50FFFF41#32 : Word).extractLsb' 24 8 = 0x50#8 ∧ held.status.busy = false ∧ Sparse.Wf Slot.blank held.ht ∧
    held.dictSize.toNat ≠ 4096 ∧
    (∀ j < 1, (slotAt held.ht (probeIdx 17#16 68#8 j)).occ = true) ∧
    (slotAt held.ht (probeIdx 17#16 68#8 1)).occ = false := by decide

theorem witness_DictAddStoresKeyUnderNextCode_full :
    full.status.busy = false ∧ Sparse.Wf Slot.blank full.ht ∧ full.dictSize.toNat = 4096 ∧
    full.dictResets.toNat < 2 ^ 27 := by decide

theorem witness_DictAddReturnsWithin3840Probes : DictOk held ∧ held.status.busy = false := ⟨inv_held.dict, rfl⟩

theorem witness_DictFindIsLinearScan : DictOk held ∧ HashOk held.ht ∧ held.status.busy = false :=
  ⟨inv_held.dict, hashOk_held, rfl⟩

theorem witness_StepKeepsHashTableSearchable : ∃ t, Inv enc1 ∧ HashOk enc1.ht ∧ step enc1 = .next t :=
  ⟨_, inv_enc1, hashOk_enc1, rfl⟩

theorem witness_DuplicateKeyFindsFirstAdded :
    Inv held ∧ HashOk held.ht ∧ held.status.busy = false ∧ held.dictSize.toNat < 4096 ∧ 65#16 ≠ 0xFFFF#16 ∧
    ∃ i, (slotAt held.ht i).occ = true ∧ keyMatches (slotAt held.ht i) 65#16 65#8 = true :=
  ⟨inv_held, hashOk_held, rfl, by decide, by decide, 1105#12, by decide⟩

theorem witness_EncoderKeepsKeysUnique_issue :
    ∃ t, aaaa.status.busy = false ∧ exec .compress aaaa = .next t ∧ t.status.busy = true := ⟨_, rfl, rfl, rfl⟩

theorem witness_EncoderKeepsKeysUnique_step :
    ∃ t, Inv enc0 ∧ HashOk enc0.ht ∧ enc0.fsm = .encMatch ∧ KeysUnique enc0.ht ∧ engineTurn enc0 = .next t :=
  ⟨_, inv_enc0, hashOk_fresh, rfl, fun i _ h => absurd h (by simp [enc0, aaaa, fresh, State.reset, slotAt, Slot.blank]), rfl⟩

theorem witness_NextWidthIsWidthAfterAdd :
    ∃ t, DictOk full ∧ full.status.busy = false ∧ exec (.dictAdd 5#16 9#8) full = .next t := ⟨_, inv_full.dict, rfl, rfl⟩

theorem witness_WidthChangesOnlyAtBoundaries : ∃ t, Inv enc0 ∧ step enc0 = .next t := ⟨_, inv_enc0, rfl⟩

theorem witness_BwClearZeroesCursor : fresh.status.busy = false := rfl

theorem witness_BwWriteAppendsCode_config :
    (0x70100041#32 : Word).extractLsb' 21 11 = 0x380#11 ∧ fresh.status.busy = false ∧
    fresh.params.obufCap < ({ fresh with outCap := 17#32 } : State).outCap.toNat := by decide

/-- 95_test_vectors W4 and W3: from WCUR = 26 a seventh bit does not fit into four bytes, and six bits fill them. -/
theorem witness_BwWriteAppendsCode_overflow_and_exact :
    (4#32).toNat ≤ fresh.params.obufCap ∧ (4#32).toNat < ceil8 ((26#32).toNat + (7#5).toNat) ∧
    ceil8 ((26#32).toNat + (6#5).toNat) ≤ (4#32).toNat ∧ fresh.params.Legal ∧ fresh.obuf.wf := by decide

theorem witness_BwFinishPadsLastByte :
    enc1.obuf.wf ∧ (127 % 8 ≠ 0 ∧ 127 / 8 < fresh.params.obufCap) ∧ fresh.status.busy = false := by decide

theorem witness_WrittenStreamIsConcatenation :
    aaaa.params.Legal ∧ aaaa.obuf.wf ∧ aaaa.outCap.toNat ≤ aaaa.params.obufCap ∧ aaaa.wcur = 0#32 ∧
    ceil8 ([(65#16, 8), (256#16, 9), (65#16, 9)].map Prod.snd).sum ≤ aaaa.outCap.toNat := by decide

theorem witness_BrInitZeroesCursor : packed.status.busy = false := rfl

theorem witness_BrReadExtractsBits_config :
    (0xA0100000#32 : Word).extractLsb' 21 11 = 0x500#11 ∧ (0xA0100000#32 : Word).extractLsb' 0 16 = 0#16 ∧ packed.status.busy = false ∧
    8 * packed.params.ibufCap < (129#32).toNat := by decide

theorem witness_BrReadExtractsBits_truncated_and_exact :
    (26#32).toNat ≤ 8 * packed.params.ibufCap ∧ (26#32).toNat - (17#32).toNat < (10#5).toNat ∧
    (9#5).toNat ≤ (26#32).toNat - (17#32).toNat := by decide

theorem witness_ReaderInvertsWriter :
    ∃ t, aaaa.params.Legal ∧ aaaa.obuf.wf ∧ aaaa.outCap.toNat ≤ aaaa.params.obufCap ∧ aaaa.wcur = 0#32 ∧
      (∀ x ∈ [(65#16, 8), (0x1FF#16, 9), (65#16, 9)], x.2 ≤ 16) ∧
      writeAll [(65#16, 8), (0x1FF#16, 9), (65#16, 9)] aaaa = .done () t ∧
      ({ packed with ibuf := t.obuf } : State).rcur = 0#32 ∧ packed.inBits = t.wcur ∧
      packed.inBits.toNat ≤ 8 * packed.params.ibufCap ∧
      ∀ a < ceil8 t.wcur.toNat, ({ packed with ibuf := t.obuf } : State).ibuf.read a = t.obuf.read a :=
  ⟨_, by decide, by decide, by decide, rfl, by decide, rfl, rfl, by decide, by decide, fun _ _ => rfl⟩

theorem witness_CompressIssueStartsPass :
    aaaa.status.busy = false ∧ aaaa.params.ibufCap < (17#32).toNat ∧ (16#32).toNat ≤ aaaa.params.ibufCap ∧
    aaaa.outCap.toNat ≤ aaaa.params.obufCap ∧ fresh.inLen = 0#32 ∧ 16#32 ≠ 0#32 := by decide

theorem witness_EncMatchStepExtendsOrWrites_end :
    Inv { enc1 with ipos := 4#32 } ∧ ({ enc1 with ipos := 4#32 } : State).ipos = enc1.inLen := ⟨inv_of _, rfl⟩

theorem witness_EncMatchStepExtendsOrWrites_hit :
    Inv enc1 ∧ enc1.fsm = .encMatch ∧ enc1.ipos ≠ enc1.inLen ∧
    dictFind enc1.pfx (enc1.ibuf.read enc1.ipos.toNat) enc1 = .done 256#16 { enc1 with lastProbes := 1#13 } :=
  ⟨inv_enc1, rfl, by decide, by decide⟩

theorem witness_EncMatchStepExtendsOrWrites_miss :
    Inv { enc0 with outCap := 1#32 } ∧ Inv { enc0 with outCap := 0#32 } ∧ enc0.ipos ≠ enc0.inLen ∧
    dictFind enc0.pfx (enc0.ibuf.read enc0.ipos.toNat) enc0 = .done 0xFFFF#16 { enc0 with lastProbes := 1#13 } ∧
    ceil8 (enc0.wcur.toNat + enc0.codeWidth.toNat) ≤ 1 ∧ 0 < ceil8 (enc0.wcur.toNat + enc0.codeWidth.toNat) :=
  ⟨inv_of _, inv_of _, by decide, by decide, by decide, by decide⟩

theorem witness_EncFlushStepCompletesPass :
    Inv enc4 ∧ Inv { enc4 with outCap := 3#32 } ∧ enc4.fsm = .encFlush ∧
    ceil8 (enc4.wcur.toNat + enc4.codeWidth.toNat) ≤ enc4.outCap.toNat ∧
    3 < ceil8 (enc4.wcur.toNat + enc4.codeWidth.toNat) := ⟨inv_enc4, inv_of _, rfl, by decide, by decide⟩

theorem witness_OneByteInputIsOneCode :
    Inv { aaaa with inLen := 1#32, outCap := 1#32 } ∧ aaaa.status.busy = false ∧ 1 ≤ (1#32).toNat ∧
    (1#32).toNat ≤ aaaa.params.obufCap := ⟨inv_of _, rfl, by decide, by decide⟩

theorem witness_CompressTakesLengthPlusOneSteps :
    Inv aaaa ∧ aaaa.status.busy = false ∧ aaaa.inLen.toNat ≤ aaaa.params.ibufCap ∧
    aaaa.outCap.toNat ≤ aaaa.params.obufCap ∧ aaaa.inLen ≠ 0#32 ∧ Inv fresh ∧ fresh.inLen = 0#32 :=
  ⟨inv_aaaa, rfl, by decide, by decide, by decide, inv_fresh, rfl⟩

theorem witness_OutputBoundSuffices :
    Inv { aaaa with outCap := 6#32 } ∧ aaaa.status.busy = false ∧ aaaa.inLen ≠ 0#32 ∧
    aaaa.inLen.toNat ≤ aaaa.params.ibufCap ∧ (6#32).toNat ≤ aaaa.params.obufCap ∧
    ceil8 (8 + 12 * (aaaa.inLen.toNat - 1)) ≤ (6#32).toNat :=
  ⟨inv_of _, rfl, by decide, by decide, by decide, by decide⟩

theorem witness_CompressOutputIsPackedCodes :
    ∃ t u, Inv aaaa ∧ aaaa.status.busy = false ∧ aaaa.inLen ≠ 0#32 ∧ exec .compress aaaa = .next t ∧
      engineRun (aaaa.inLen.toNat + 1) t = some u ∧ u.status = statusDone :=
  ⟨_, _, inv_aaaa, rfl, by decide, rfl, rfl, rfl⟩

theorem witness_CompressIgnoresEarlierState :
    ∃ t t' u u', Inv aaaa ∧ Inv { aaaa with wcur := 3#32, ht := [entryAA], dictSize := 257#13, codeWidth := 9#4 } ∧
      exec .compress aaaa = .next t ∧
      exec .compress { aaaa with wcur := 3#32, ht := [entryAA], dictSize := 257#13, codeWidth := 9#4 } = .next t' ∧
      engineRun 5 t = some u ∧ engineRun 5 t' = some u' ∧ u.status = statusDone :=
  ⟨_, _, _, _, inv_aaaa, inv_of _, rfl, rfl, rfl, rfl, rfl⟩

theorem witness_DecompressIssueStartsPass :
    packed.status.busy = false ∧ 8 * packed.params.ibufCap < (129#32).toNat ∧
    (128#32).toNat ≤ 8 * packed.params.ibufCap ∧ packed.outCap.toNat ≤ packed.params.obufCap ∧ fresh.inBits = 0#32 ∧
    128#32 ≠ 0#32 := by decide

theorem witness_DecFirstStepEmitsRoot :
    Inv { dec0 with inBits := 7#32 } ∧ Inv { dec0 with inBits := 8#32, outCap := 0#32 } ∧
    Inv { dec0 with inBits := 8#32, outCap := 1#32 } ∧ dec0.fsm = .decFirst ∧ (7#32).toNat < 8 ∧ 8 ≤ (8#32).toNat ∧
    1#32 ≠ 0#32 := ⟨inv_of _, inv_of _, inv_of _, rfl, by decide, by decide, by decide⟩

theorem witness_DecLoopStepDecodesOneCode_complete : Inv dec3 ∧ dec3.fsm = .decLoop ∧ dec3.rcur = dec3.inBits :=
  ⟨inv_dec3, rfl, rfl⟩

theorem witness_DecLoopStepDecodesOneCode_truncated :
    Inv { dec1 with inBits := 16#32 } ∧ dec1.rcur ≠ 16#32 ∧
    (16#32).toNat - dec1.rcur.toNat < (peekWidth dec1.dictSize dec1.codeWidth).toNat :=
  ⟨inv_of _, by decide, by decide⟩

/-- 95_test_vectors X6: code 257 while DICT_SIZE = 256. -/
theorem witness_DecLoopStepDecodesOneCode_malformed :
    Inv { dec1 with ibuf := buffer [0x41#8, 0x80#8, 0x80#8], inBits := 17#32 } ∧
    (peekWidth dec1.dictSize dec1.codeWidth).toNat ≤ (17#32).toNat - dec1.rcur.toNat ∧
    brRead 9 { dec1 with ibuf := buffer [0x41#8, 0x80#8, 0x80#8], inBits := 17#32 }
      = .done 257#16 { dec1 with ibuf := buffer [0x41#8, 0x80#8, 0x80#8], inBits := 17#32, rcur := 17#32 } ∧
    256 ≤ (257#16).toNat ∧ dec1.dictSize.toNat < (257#16).toNat := ⟨inv_of _, by decide, by decide, by decide, by decide⟩

theorem witness_DecLoopStepDecodesOneCode_seqOverflow :
    Inv decLong ∧ decLong.fsm = .decLoop ∧ 4096 < decLong.prev.length + 1 :=
  ⟨inv_decLong, rfl, by
    rw [show decLong.prev.length = (List.replicate 4095 0x41#8).length + 1 from rfl, List.length_replicate]
    decide⟩

/-- Code 65: a root, which fills OBUF to OUT_CAP. -/
theorem witness_DecLoopStepDecodesOneCode_root :
    Inv dec2 ∧ dec2.fsm = .decLoop ∧ brRead 9 dec2 = .done 65#16 { dec2 with rcur := 26#32 } ∧ (65#16).toNat < 256 ∧
    dec2.prev.length + 1 ≤ 4096 ∧ dec2.wcur.toNat / 8 + 1 ≤ dec2.outCap.toNat :=
  ⟨inv_dec2, rfl, by decide, by decide, by decide, by decide⟩

/-- Code 256 while DICT_SIZE = 257: the last entry of ST, which fills OBUF to OUT_CAP. -/
theorem witness_DecLoopStepDecodesOneCode_entry :
    Inv dec2Again ∧ dec2Again.fsm = .decLoop ∧ brRead 9 dec2Again = .done 256#16 { dec2Again with rcur := 26#32 } ∧
    256 ≤ (256#16).toNat ∧ (256#16).toNat < dec2Again.dictSize.toNat ∧ dec2Again.prev.length + 1 ≤ 4096 ∧
    dec2Again.wcur.toNat / 8 + (seqAt dec2Again.st 256).length ≤ dec2Again.outCap.toNat :=
  ⟨inv_dec2Again, rfl, by decide, by decide, by decide, by decide, by decide⟩

/-- Code 256 while DICT_SIZE = 256: PREV and its first byte, into too small a buffer and into one it fills. -/
theorem witness_DecLoopStepDecodesOneCode_next :
    Inv { dec1 with outCap := 2#32 } ∧ Inv { dec1 with outCap := 3#32 } ∧ dec1.prev.length + 1 ≤ 4096 ∧
    brRead 9 dec1 = .done 256#16 { dec1 with rcur := 17#32 } ∧ (256#16).toNat = dec1.dictSize.toNat ∧
    2 < dec1.wcur.toNat / 8 + (dec1.prev.snoc dec1.prev.head).length ∧
    dec1.wcur.toNat / 8 + (dec1.prev.snoc dec1.prev.head).length ≤ 3 :=
  ⟨inv_of _, inv_of _, by decide, by decide, by decide, by decide, by decide⟩

theorem witness_KwKwKCodeIsSynthesised :
    Inv dec1 ∧ dec1.fsm = .decLoop ∧
    brRead (peekWidth dec1.dictSize dec1.codeWidth).toNat dec1
      = .done 256#16
        { dec1 with rcur := dec1.rcur + BitVec.ofNat 32 (peekWidth dec1.dictSize dec1.codeWidth).toNat } ∧
    dec1.rcur ≠ dec1.inBits ∧ resetIfFull dec1 = dec1 ∧ (256#16).toNat = dec1.dictSize.toNat ∧
    dec1.prev.length + 1 ≤ 4096 ∧ dec1.wcur.toNat / 8 + (dec1.prev.length + 1) ≤ dec1.outCap.toNat :=
  ⟨inv_dec1, rfl, by decide, by decide, rfl, by decide, by decide, by decide⟩

theorem witness_DecompressEndsWithinBits :
    Inv packed ∧ packed.status.busy = false ∧ packed.inBits ≠ 0#32 ∧ packed.inBits.toNat ≤ 8 * packed.params.ibufCap ∧
    packed.outCap.toNat ≤ packed.params.obufCap := ⟨inv_packed, rfl, by decide, by decide, by decide⟩

theorem witness_RoundTripWithoutCapacityReset :
    ∃ t u, Inv aaaa ∧ aaaa.status.busy = false ∧ aaaa.inLen ≠ 0#32 ∧ exec .compress aaaa = .next t ∧
      engineRun (aaaa.inLen.toNat + 1) t = some u ∧ u.status = statusDone ∧ u.dictResets = 0#32 ∧ Inv packed ∧
      packed.status.busy = false ∧ packed.inBits = u.outBits ∧ u.outBits.toNat ≤ 8 * packed.params.ibufCap ∧
      (∀ a < u.outLen.toNat, packed.ibuf.read a = u.obuf.read a) ∧ aaaa.inLen.toNat ≤ packed.outCap.toNat ∧
      packed.outCap.toNat ≤ packed.params.obufCap :=
  ⟨_, _, inv_aaaa, rfl, by decide, rfl, rfl, rfl, by decide, inv_packed, rfl, by decide, by decide, by decide, by decide,
    by decide⟩

/-- The flush step of a pass, with a host read before it and without. -/
theorem witness_PassIsFunctionOfIssueState :
    ∃ u u', noReset [.access (.readWord 0x4000004), .engine] ∧ noReset [] ∧
      passEnd 2 { enc4 with inputs := [.access (.readWord 0x4000004), .engine] } = some u ∧
      passEnd 1 { enc4 with inputs := [] } = some u' :=
  ⟨_, _, by simp [noReset], by simp [noReset], rfl, rfl⟩

theorem witness_ResetMeetsInv :
    Params.Legal { base := 0x8000000, ibufCap := 1, obufCap := 2 ^ 24 } := by decide

theorem witness_StepKeepsInv : ∃ t, Inv dec1 ∧ step dec1 = .next t := ⟨_, inv_dec1, rfl⟩

theorem witness_InvExcludesFaults :
    Inv { held with inputs := [.access (.readByte 0)] } ∧
    step { held with inputs := [.access (.readByte 0)] } = .refused .outsideWindow := ⟨inv_of _, rfl⟩

theorem witness_CountersBounded :
    ∃ t, Inv dec1 ∧ dec1.status.busy = true ∧ engineTurn dec1 = .next t ∧ step dec1 = .next t :=
  ⟨_, inv_dec1, rfl, rfl, rfl⟩

/-- DICT_ADD at capacity outside a pass: just below the bound of 10_state R49 DICT_RESETS counts on to it, and at the
bound it stays within it (log 17). -/
theorem witness_CountersBounded_dictAdd :
    (∃ t, Inv { full with dictResets := 0x7FFFFFF#32, inputs := [.access (.writeWord full.params.base 0x50010041#32)] } ∧
      step { full with dictResets := 0x7FFFFFF#32, inputs := [.access (.writeWord full.params.base 0x50010041#32)] }
        = .next t ∧ t.dictResets = 0x8000000#32) ∧
    ∃ t, Inv { full with dictResets := 0x8000000#32, inputs := [.access (.writeWord full.params.base 0x50010041#32)] } ∧
      step { full with dictResets := 0x8000000#32, inputs := [.access (.writeWord full.params.base 0x50010041#32)] }
        = .next t ∧ t.dictResets.toNat ≤ 2 ^ 27 :=
  ⟨⟨_, inv_of _, rfl, rfl⟩, _, inv_of _, rfl, resetsAfter_le _ _⟩

theorem witness_StatusFlagsExclusive : ∃ t, enc4.status.Legal ∧ step enc4 = .next t := ⟨_, by decide, rfl⟩

theorem witness_StatusFlagsExclusive_codes :
    ∀ e ∈ [ErrCode.outputOverflow, .malformed, .truncated, .illegalCmd, .configRange, .seqOverflow],
      ({ fresh with status := statusError e } : State).status.errCode = e ∧ fresh.status.errCode = .none := by decide

theorem witness_EngineFrame_encoder_writes :
    ∃ t, Inv enc4 ∧ enc4.status.busy = true ∧ engineTurn enc4 = .next t ∧ 1 < enc4.wcur.toNat / 8 ∧
      ceil8 t.wcur.toNat ≤ 4 ∧ enc4.outCap.toNat ≤ 4 :=
  ⟨_, inv_enc4, rfl, rfl, by decide, by decide, by decide⟩

theorem witness_EngineFrame_decoder_writes :
    ∃ t, Inv dec1 ∧ dec1.status.busy = true ∧ engineTurn dec1 = .next t ∧ 0 < dec1.wcur.toNat / 8 ∧
      ceil8 t.wcur.toNat ≤ 3 :=
  ⟨_, inv_dec1, rfl, rfl, by decide, by decide⟩

theorem witness_EngineFrame_end_of_input :
    ∃ t, Inv { enc1 with ipos := 4#32 } ∧ engineTurn { enc1 with ipos := 4#32 } = .next t ∧ enc1.fsm = .encMatch ∧
      ({ enc1 with ipos := 4#32 } : State).ipos = enc1.inLen ∧ t.wcur = enc1.wcur :=
  ⟨_, inv_of _, rfl, rfl, rfl, rfl⟩

theorem witness_EngineFrame_hit :
    ∃ t, Inv enc1 ∧ engineTurn enc1 = .next t ∧ enc1.fsm = .encMatch ∧ enc1.ipos ≠ enc1.inLen ∧
      dictFind enc1.pfx (enc1.ibuf.read enc1.ipos.toNat) enc1 = .done 256#16 { enc1 with lastProbes := 1#13 } ∧
      256#16 ≠ 0xFFFF#16 := ⟨_, inv_enc1, rfl, rfl, by decide, by decide, by decide⟩

theorem witness_EngineFrame_completion :
    ∃ t, Inv dec3 ∧ engineTurn dec3 = .next t ∧ dec3.fsm = .decLoop ∧ dec3.rcur = dec3.inBits :=
  ⟨_, inv_dec3, rfl, rfl, rfl⟩

theorem witness_EngineFrame_error :
    ∃ t, Inv { enc4 with outCap := 3#32 } ∧ engineTurn { enc4 with outCap := 3#32 } = .next t ∧ t.status.err = true :=
  ⟨_, inv_of _, rfl, rfl⟩

theorem witness_OnlyPrimitivesWriteResult :
    ∃ t, exec (.brRead 8#5) packed = .next t ∧ t.result ≠ packed.result := ⟨_, rfl, by decide⟩

theorem witness_RegisterAccesses : fresh.status.busy = false ∧ dec1.status.busy = true := by decide

theorem witness_RegisterAccesses_fsm :
    fresh.fsm = .idle ∧ enc0.fsm = .encMatch ∧ enc4.fsm = .encFlush ∧ dec0.fsm = .decFirst ∧ dec1.fsm = .decLoop := by
  decide

theorem witness_ReservedOffsetsReadZero :
    (0x50 ≤ 0xFFC ∧ 0xFFC ≤ 0xFFC ∧ 0xFFC % 4 = 0) ∧ (0x1000 ≤ 0xFFFFFF ∧ 0xFFFFFF < 0x1000000) ∧
    (0x3000000 ≤ 0x3FFFFFC ∧ 0x3FFFFFC + 4 ≤ 0x4000000) := by decide

theorem witness_BufferByteAccesses : 0xFFFFFF < 2 ^ 24 ∧ fresh.ibuf.wf ∧ fresh.obuf.wf := by decide

theorem witness_UnsupportedAccessesRefused :
    0xFFF < 0x1000 ∧ (0xFFF < 0x1000 ∧ 0xFFF % 4 ≠ 0) ∧ (0x1000000 ≤ 0x2FFFFFF ∧ 0x2FFFFFF < 0x3000000) ∧
    (0x3FFFFFF < 0x4000000 ∧ 16 ≠ 8 ∧ 16 ≠ 32) ∧ (0xFFFFFD ≤ 0xFFFFFF ∧ 0xFFFFFF < 0x1000000) ∧
    (0x3FFFFFD ≤ 0x3FFFFFD ∧ 0x3FFFFFD < 0x4000000) ∧ 0x3FFFFFF < fresh.params.base ∧
    fresh.params.base + 0x4000000 ≤ 0x8000000 := by decide

end Sys2Proof.Tests
end

namespace Sys2Proof.Machine

/-! ### Steps and reserved addresses -/

/-- A word of the opcode table that decodes is the command the decoder reads from it. -/
theorem decode_of_decodeTableWord {n w : Nat} {i : Instr} (h : decodeTableWord n w = some i) :
    decode (tableWord n w) = .ok i := by
  unfold decodeTableWord at h
  cases hd : decode (tableWord n w) with
  | ok j => rw [hd] at h; exact congrArg _ (Option.some.inj h)
  | error e => rw [hd] at h; cases h

theorem issue_ok {v : Word} {i : Instr} (h : decode v = .ok i) (s : State) : issue v s = exec i s := by
  simp only [issue, h]

theorem issue_error {v : Word} {e : DecodeError} (h : decode v = .error e) (s : State) :
    issue v s = illegalCommand s := by simp only [issue, h]

/-- A step takes the first entry of the order of accesses and engine turns (20_memory R63). -/
theorem step_cons {s : State} {x : Input} {rest : List Input} (h : s.inputs = x :: rest) :
    step s = happen x { s with inputs := rest } := by simp only [step, h]

/-- Settles O6: a step makes the first entry of the order, and the store at offset 0 is the issue of its word. -/
theorem stepRunsDecodedCommand : Obligations.StepRunsDecodedCommand := by
  have issues : ∀ (s : State) (v : Word) (rest : List Input),
      s.inputs = .access (.writeWord s.params.base v) :: rest → step s = issue v { s with inputs := rest } :=
    fun s v rest h => (step_cons h).trans (hostAccess_cmd v { s with inputs := rest })
  refine ⟨fun s v rest h => ⟨fun i hi => ?_, fun e he => ?_⟩, fun s a rest h => step_cons h, fun s w i hi => ?_⟩
  · rw [issues s v rest h, issue_ok hi]
  · rw [issues s v rest h, issue_error he]
  · rw [issues (s.withFetchWord 32 w) (tableWord 32 w) s.inputs rfl, issue_ok (decode_of_decodeTableWord hi)]
    rfl

/-- No register stands past offset 0x4F (10_state R42). -/
theorem regAt_reserved {off : Nat} (h : 0x50 ≤ off) : regAt off = none := by
  unfold regAt
  split
  case h_21 => rfl
  all_goals omega

/-- Four bytes inside one of the two reserved regions make a reserved word (20_memory R52). -/
theorem reservedWord_of_range {off : Nat}
    (h : (0x1000 ≤ off ∧ off + 4 ≤ 0x1000000) ∨ (0x3000000 ≤ off ∧ off + 4 ≤ 0x4000000)) : reservedWord off = true :=
  decide_eq_true
    ⟨regionOf_reserved (by omega), regionOf_reserved (by omega), by unfold Config.windowSize; omega⟩

section
variable {s : State} {off : Nat}

theorem hostAccess_readByte (h : off < 2 ^ 26) :
    hostAccess (.readByte (s.params.base + off)) s = readByteAt off s := inWindow_at h _

theorem hostAccess_writeByte (h : off < 2 ^ 26) (v : Byte) :
    hostAccess (.writeByte (s.params.base + off) v) s = writeByteAt off v s := inWindow_at h _

theorem hostAccess_readWord (h : off < 2 ^ 26) :
    hostAccess (.readWord (s.params.base + off)) s = readWordAt off s := inWindow_at h _

theorem hostAccess_writeWord (h : off < 2 ^ 26) (v : Word) :
    hostAccess (.writeWord (s.params.base + off) v) s = writeWordAt off v s := inWindow_at h _

end

/-- Settles O57, by the three kinds of reserved bytes: register offsets, single bytes and words of the reserved regions. -/
theorem reservedOffsetsReadZero : Obligations.ReservedOffsetsReadZero := by
  refine fun s off => ⟨fun hlo hhi h4 => ?_, fun h => ?_, fun h => ?_⟩
  · have hreg : regionOf off = .regs off := regionOf_regs (by omega)
    have hnone := regAt_reserved hlo
    refine ⟨?_, fun v => ?_⟩
    · rw [hostAccess_readWord (by omega)]; simp [readWordAt, hreg, h4, hnone]
    · rw [hostAccess_writeWord (by omega)]; simp [writeWordAt, hreg, h4, hnone]
  · have hreg : regionOf off = .reserved := regionOf_reserved (by omega)
    refine ⟨?_, fun v => ?_⟩
    · rw [hostAccess_readByte (by omega)]; simp [readByteAt, hreg]
    · rw [hostAccess_writeByte (by omega)]; simp [writeByteAt, hreg]
  · have hreg : regionOf off = .reserved := regionOf_reserved (by omega)
    have hres := reservedWord_of_range h
    refine ⟨?_, fun v => ?_⟩
    · rw [hostAccess_readWord (by omega)]; simp [readWordAt, hreg, hres]
    · rw [hostAccess_writeWord (by omega)]; simp [writeWordAt, hreg, hres]

/-! ### How a rule ends -/

/-- Every way `x` ends, where it ends: with a value in a state of `P`, or with one of the errors of 60_exceptions R160
raised in a state of `Q`. -/
def Flow.Ends {α : Type} (x : Flow α) (P : α → State → Prop) (Q : State → Prop) : Prop :=
  match x with
  | .done a t => P a t
  | .raised e t => e ≠ .none ∧ Q t
  | .stuck _ => True

section
variable {α β : Type} {x : Flow α} {P P' : α → State → Prop} {R : β → State → Prop} {Q : State → Prop}

theorem Flow.Ends.imp {Q' : State → Prop} (hx : x.Ends P Q) (hP : ∀ a t, P a t → P' a t) (hQ : ∀ t, Q t → Q' t) :
    x.Ends P' Q' := by
  cases x with
  | done a t => exact hP a t hx
  | raised e t => exact ⟨hx.1, hQ t hx.2⟩
  | stuck f => trivial

/-- A sequence ends as its second part does from every state in which the first part may end. -/
theorem Flow.Ends.bind {k : α → State → Flow β} (hx : x.Ends P Q) (hk : ∀ a t, P a t → (k a t).Ends R Q) :
    (x.bind k).Ends R Q := by
  cases x with
  | done a t => exact hk a t hx
  | raised e t => exact hx
  | stuck f => trivial

end

section
variable {rule : State → Flow Unit} {s t : State} {P Q : State → Prop}

/-- What an engine step answers, from how its rule ends (46_control R150, 60_exceptions R162). -/
theorem runStep_ends (h : runStep rule s = .next t) (hr : (rule s).Ends (fun _ => P) Q) :
    P t ∨ ∃ e u, e ≠ .none ∧ Q u ∧ t = errorStop e u := by
  rcases runStep_next h with hd | ⟨e, u, hu, rfl⟩
  · rw [hd] at hr; exact .inl hr
  · rw [hu] at hr; exact .inr ⟨e, u, hr.1, hr.2, rfl⟩

/-- What an accepted command answers, from how its rule ends (46_control R148). -/
theorem runCommand_ends (h : runCommand rule s = .next t) (hb : s.status.busy = false)
    (hr : (rule (clearFlags s)).Ends (fun _ => P) Q) :
    (∃ u, P u ∧ t = if u.status.busy then u else setDone u) ∨ ∃ e u, e ≠ .none ∧ Q u ∧ t = errorStop e u := by
  rcases runCommand_next h with ⟨hb', -⟩ | ⟨-, ⟨u, hu, rfl⟩ | ⟨e, u, hu, rfl⟩⟩
  · rw [hb] at hb'; cases hb'
  · rw [hu] at hr; exact .inl ⟨u, hr, rfl⟩
  · rw [hu] at hr; exact .inr ⟨e, u, hr.1, hr.2, rfl⟩

end

/-! ### The part of the invariant that does not speak of a pass -/

/-- The parts of `Inv` that hold in every state of the block, whatever STATUS and FSM are: the parameters, the tables, the
dictionary and the bounds of 10_state R49. -/
structure BlockOk (s : State) : Prop extends TablesOk s, DictOk s, CursorsOk s where
  params : s.params.Legal

theorem Inv.block {s : State} (h : Inv s) : BlockOk s := ⟨h.tables, h.dict, h.cursors, h.params⟩

theorem clearOcc_occCount (ht : List (Nat × Slot)) : occCount (clearOcc ht) = 0 := by
  simp only [occCount, List.length_eq_zero_iff, List.filter_eq_nil_iff]
  exact fun c hc => by simp [(mem_clearOcc hc).1]

theorem TablesOk.dictReset {s : State} (h : TablesOk s) : TablesOk (dictReset s) :=
  { h with
    ht_wf := clearOcc_wf h.ht_wf
    ht_below := fun c hc => by
      obtain ⟨-, x, hx, e⟩ := mem_clearOcc hc
      exact e ▸ h.ht_below x hx }

/-- dictReset makes the dictionary one of no entries, whatever it held (40_dictionary R85). -/
theorem dictOk_dictReset (s : State) : DictOk (dictReset s) where
  size_ge := by simp
  size_le := by simp
  width_ge := by simp
  width_le := by simp
  fits := by simp
  tight := by simp
  occupied := by simp [clearOcc_occCount]
  live := fun c hc ho => by simp [(mem_clearOcc hc).1] at ho

theorem BlockOk.dictReset {s : State} (h : BlockOk s) : BlockOk (dictReset s) :=
  ⟨h.toTablesOk.dictReset, dictOk_dictReset s, { h with }, h.params⟩

theorem BlockOk.resetIfFull {s : State} (h : BlockOk s) :
    BlockOk (resetIfFull s) ∧ (resetIfFull s).dictSize.toNat < 4096 := by
  rcases resetIfFull_cases s with ⟨e, -⟩ | ⟨e, hn⟩ <;> rw [e]
  · exact ⟨{ h.dictReset with resets_le := resetsAfter_le _ _ }, by simp⟩
  · exact ⟨h, lt_of_le_of_ne h.size_le hn⟩

/-! ### The code-width scheduler -/

/-- Below capacity `cwsOnAdd` leaves the width that the entry about to be added needs (41_code_width R97). -/
theorem cwsOnAdd_grows {s : State} (h : DictOk s) (hn : s.dictSize.toNat < 4096) :
    ∃ w : BitVec 4, cwsOnAdd s = { s with codeWidth := w } ∧ 8 ≤ w.toNat ∧ w.toNat ≤ 12 ∧
      s.dictSize.toNat + 1 ≤ 2 ^ w.toNat ∧ 2 ^ (w.toNat - 1) < s.dictSize.toNat + 1 := by
  obtain ⟨hsize, -, hge, hle, hfits, htight, -, -⟩ := h
  rcases cwsOnAdd_cases s with ⟨e, hfull, hlt⟩ | ⟨e, hroom⟩
  · have hw : (s.codeWidth + 1#4).toNat = s.codeWidth.toNat + 1 := by
      rw [BitVec.toNat_add, BitVec.toNat_ofNat]; omega
    refine ⟨_, e, ?_⟩
    rw [hw, Nat.pow_succ, Nat.add_sub_cancel]
    omega
  · have hlt : s.dictSize.toNat < 2 ^ s.codeWidth.toNat := by
      rcases hroom with hroom | h12
      · exact hroom
      · rw [show s.codeWidth.toNat = 12 by omega]; omega
    exact ⟨_, e, hge, hle, hlt, by omega⟩

/-- The new DICT_SIZE after an add does not wrap. -/
theorem dictSize_add_one {n : BitVec 13} (h : n.toNat < 4096) : (n + 1#13).toNat = n.toNat + 1 := by
  rw [BitVec.toNat_add, BitVec.toNat_ofNat]; omega

/-- One store occupies at most one more slot. -/
theorem occCount_write_le (m : List (Nat × Slot)) (a : Nat) (x : Slot) :
    occCount (Sparse.write Slot.blank m a x) ≤ occCount m + 1 := by
  have hcons : ∀ (c : Nat × Slot) (l : List (Nat × Slot)),
      occCount (c :: l) = occCount l + if c.2.occ then 1 else 0 := fun c l => by
    cases hc : c.2.occ <;> simp [occCount, hc]
  induction m with
  | nil =>
    by_cases hx : x = Slot.blank
    · simp [Sparse.write, hx]
    · rw [Sparse.write, if_neg hx, hcons]; split <;> omega
  | cons c m ih =>
    obtain ⟨k, y⟩ := c
    simp only [Sparse.write]
    split_ifs <;> simp only [hcons] <;> split_ifs <;> omega

/-- The entry of dictAdd keeps the block's part of the invariant (40_dictionary R88). -/
theorem BlockOk.insert {s : State} (h : BlockOk s) (hn : s.dictSize.toNat < 4096) (i : SlotIdx) (p : Code) (e : Byte)
    {k : BitVec 13} (hk : k.toNat ≤ 4096) :
    BlockOk
      { cwsOnAdd s with
        ht := setSlot s.ht i { occ := true, pfx := p, ext := e, code := s.dictSize.setWidth 16 }
        lastProbes := k
        dictSize := s.dictSize + 1#13 } := by
  obtain ⟨w, hw, hge, hle, hfits, htight⟩ := cwsOnAdd_grows h.toDictOk hn
  have hsize := dictSize_add_one hn
  have hlow := h.size_ge
  rw [hw]
  exact
    { h with
      ht_wf := setSlot_wf h.ht_wf _ _
      ht_below := fun c hc => by
        rcases Sparse.mem_write hc with ⟨rfl, -⟩ | hc
        · exact i.isLt
        · exact h.ht_below c hc
      size_ge := by simp only [hsize]; omega
      size_le := by simp only [hsize]; omega
      width_ge := hge
      width_le := hle
      fits := by simp only [hsize]; exact hfits
      tight := by simp only [hsize]; exact htight
      occupied := by
        have := occCount_write_le s.ht i.toNat { occ := true, pfx := p, ext := e, code := s.dictSize.setWidth 16 }
        have := h.occupied
        simp only [hsize, setSlot]
        omega
      live := fun c hc ho => by
        simp only [hsize]
        rcases Sparse.mem_write hc with ⟨rfl, -⟩ | hc
        · rw [size_code_toNat]; omega
        · have := h.live c hc ho; omega
      probes_le := hk }

/-- The entry of decAdd keeps the block's part of the invariant (45_decoder R138). -/
theorem BlockOk.decAdd {s : State} (h : BlockOk s) (hn : s.dictSize.toNat < 4096) (q : ByteSeq) :
    BlockOk (decAdd q s) := by
  obtain ⟨w, hw, hge, hle, hfits, htight⟩ := cwsOnAdd_grows h.toDictOk hn
  have hsize := dictSize_add_one hn
  have hlow := h.size_ge
  unfold Machine.decAdd storeSeq
  rw [hw]
  exact
    { h with
      st_wf := setSeq_wf h.st_wf _ _
      st_range := fun c hc => by
        rcases Sparse.mem_write hc with ⟨rfl, -⟩ | hc
        · exact ⟨hlow, hn⟩
        · exact h.st_range c hc
      size_ge := by simp only [hsize]; omega
      size_le := by simp only [hsize]; omega
      width_ge := hge
      width_le := hle
      fits := by simp only [hsize]; exact hfits
      tight := by simp only [hsize]; exact htight
      occupied := by
        have := h.occupied
        simp only [hsize]
        omega
      live := fun c hc ho => by
        have := h.live c hc ho
        simp only [hsize]
        omega }

/-! ### How the shared operations end -/

section
variable {s : State} {Q : State → Prop}

/-- A read of IBUF writes nothing and raises nothing (20_memory R60). -/
theorem ibufRead_bind_ends {α : Type} {a : Nat} {k : Byte → State → Flow α} {P : α → State → Prop}
    (hk : (k (s.ibuf.read a) s).Ends P Q) : ((ibufRead a s).bind k).Ends P Q := by
  unfold ibufRead
  split
  · exact hk
  · trivial

/-- bwWrite writes OBUF and WCUR only; WCUR moves by the width and stays within OUT_CAP (42_bitwriter R108, R109). -/
theorem bwWrite_ends (code : Code) (w : Nat) (hQ : Q s) :
    (bwWrite code w s).Ends (fun _ t => ∃ m c, t = { s with obuf := m, wcur := c } ∧
      (BlockOk s → s.outCap.toNat ≤ s.params.obufCap →
        BlockOk t ∧ c.toNat = s.wcur.toNat + w ∧ c.toNat ≤ 8 * s.outCap.toNat)) Q := by
  rcases bwWrite_cases code w s with ⟨e, -⟩ | ⟨hroom, e⟩ <;> rw [e]
  · exact ⟨by decide, hQ⟩
  · rcases bwPutBits_cases code w s with ⟨m, hm⟩ | hm <;> rw [hm]
    · refine ⟨m, _, rfl, fun h hcap => ?_⟩
      obtain ⟨-, -, -, -, hobuf⟩ := h.params
      have hend : s.wcur.toNat + w ≤ 8 * s.outCap.toNat := by unfold ceil8 at hroom; omega
      obtain ⟨m', hm', hwf, -, hbelow, -⟩ :=
        bwPutBits_run (code := code) (n := w) h.obuf_wf (by omega) (by omega)
      obtain rfl : m = m' := congrArg State.obuf (Flow.done.inj (hm.symm.trans hm')).2
      have hc : (s.wcur + BitVec.ofNat 32 w).toNat = s.wcur.toNat + w := by
        rw [BitVec.toNat_add, BitVec.toNat_ofNat]; omega
      exact ⟨{ h with
        obuf_wf := hwf
        obuf_below := hbelow h.obuf_below
        wcur_le := by simp only [hc]; omega }, hc, by omega⟩
    · trivial

/-- bwFinish writes OBUF only and answers the number of whole bytes (42_bitwriter R110). -/
theorem bwFinish_ends :
    (bwFinish s).Ends (fun n t => ∃ m, t = { s with obuf := m } ∧
      (BlockOk s → BlockOk t ∧ n.toNat ≤ s.params.obufCap)) Q := by
  rcases bwFinish_cases s with ⟨m, hm⟩ | ⟨hm, -⟩ <;> rw [hm]
  · refine ⟨m, rfl, fun h => ?_⟩
    obtain ⟨-, -, -, -, hobuf⟩ := h.params
    have hwcur := h.wcur_le
    have hn : (BitVec.ofNat 32 (ceil8 s.wcur.toNat)).toNat ≤ s.params.obufCap := by
      rw [BitVec.toNat_ofNat]; unfold ceil8; omega
    by_cases hwhole : s.wcur.toNat % 8 = 0
    · obtain rfl : m = s.obuf := congrArg State.obuf (Flow.done.inj (hm.symm.trans (bwFinish_whole hwhole))).2
      exact ⟨h, hn⟩
    · obtain ⟨m', hm', hwf, -, hbelow, -⟩ := bwFinish_partial h.obuf_wf hwhole (by omega)
      obtain rfl : m = m' := congrArg State.obuf (Flow.done.inj (hm.symm.trans hm')).2
      exact ⟨{ h with obuf_wf := hwf, obuf_below := hbelow h.obuf_below }, hn⟩
  · trivial

/-- brRead writes RCUR only, which moves by the width and, where it moves, stays within IN_BITS (43_bitreader R116). -/
theorem brRead_ends (w : Nat) (hQ : Q s) :
    (brRead w s).Ends (fun _ t => ∃ r, t = { s with rcur := r } ∧ r.toNat = s.rcur.toNat + w ∧
      (w = 0 ∨ r.toNat ≤ s.inBits.toNat)) Q := by
  rcases brRead_cases w s with ⟨e, -⟩ | ⟨hroom, e⟩ <;> rw [e]
  · exact ⟨by decide, hQ⟩
  · rcases brGetBits_cases w 0#16 s with ⟨c, hc⟩ | hc <;> rw [hc]
    · have hr : (s.rcur + BitVec.ofNat 32 w).toNat = s.rcur.toNat + w := by
        rw [BitVec.toNat_add, BitVec.toNat_ofNat]; omega
      exact ⟨_, rfl, hr, by omega⟩
    · trivial

/-- A slot that is occupied is listed. -/
theorem slotAt_mem {ht : List (Nat × Slot)} {i : SlotIdx} (h : (slotAt ht i).occ = true) :
    (i.toNat, slotAt ht i) ∈ ht :=
  Sparse.mem_of_read_ne fun hb => by rw [slotAt, hb] at h; cases h

/-- dictFind writes LAST_PROBES only, and a code it finds is live (40_dictionary R86). -/
theorem dictFind_ends (p : Code) (e : Byte) :
    (dictFind p e s).Ends (fun r t => ∃ n : BitVec 13, t = { s with lastProbes := n } ∧ n.toNat ≤ 4096 ∧
      (DictOk s → p ≠ Config.invalid → r ≠ Config.notFound → r.toNat < s.dictSize.toNat)) Q := by
  by_cases hp : p = Config.invalid
  · subst hp
    rw [dictFind_root]
    exact ⟨_, rfl, by simp, fun _ h => absurd rfl h⟩
  · rcases dictFind_cases hp e s with ⟨c, n, hn, -, hend, hd⟩ | ⟨hd, -⟩ <;> rw [hd]
    · refine ⟨_, rfl, by rw [BitVec.toNat_ofNat]; omega, fun h _ hfound => ?_⟩
      rcases hend with ⟨-, rfl⟩ | ⟨hocc, -, rfl⟩
      · exact absurd rfl hfound
      · exact (h.live _ (slotAt_mem hocc) hocc).2
    · trivial

/-- DICT_RESETS after at most one reset of a full dictionary (10_state R35). -/
def CountsReset (s t : State) : Prop :=
  t.dictResets = s.dictResets ∨
    s.dictSize.toNat = 4096 ∧ t.dictResets = resetsAfter s.dictResets s.freeCount

theorem resetIfFull_countsReset (s : State) : CountsReset s (resetIfFull s) :=
  (resetIfFull_dictResets s).elim (fun h => .inr ⟨h.2, h.1⟩) fun h => .inl h.1

theorem CountsReset.le {s t : State} {n : Nat} (h : CountsReset s t) (hs : s.dictResets.toNat < n)
    (hn : n ≤ Config.counterBound) : t.dictResets.toNat ≤ n := by
  rcases h with e | ⟨-, e⟩ <;> rw [e]
  · omega
  · rw [resetsAfter_below (by omega), BitVec.toNat_add, BitVec.toNat_ofNat]
    omega

/-- The reset of a full dictionary writes the dictionary and its counts only. -/
theorem resetIfFull_eq (s : State) : ∃ ht k w d f,
    resetIfFull s = { s with ht := ht, dictSize := k, codeWidth := w, dictResets := d, freeCount := f } := by
  rcases resetIfFull_cases s with ⟨e, -⟩ | ⟨e, -⟩
  · exact ⟨_, _, _, _, _, e⟩
  · exact ⟨_, _, _, _, _, e⟩

/-- dictAdd raises nothing and writes the dictionary, its counts and LAST_PROBES only (40_dictionary R88). -/
theorem dictAdd_ends (p : Code) (e : Byte) :
    (dictAdd p e s).Ends (fun _ t => (∃ ht n k w d f, t = { s with
        ht := ht, lastProbes := n, dictSize := k, codeWidth := w, dictResets := d, freeCount := f }) ∧
      CountsReset s t ∧ t.codeWidth = (cwsOnAdd (resetIfFull s)).codeWidth ∧ (BlockOk s → BlockOk t)) Q := by
  unfold dictAdd
  rcases dictInsert_cases p e (cwsOnAdd (resetIfFull s)) with ⟨n, hn, -, -, hd⟩ | ⟨hd, -⟩ <;> rw [hd]
  · refine ⟨?_, ?_, rfl, fun h => ?_⟩
    · obtain ⟨ht, k, w, d, f, hr⟩ := resetIfFull_eq s
      rcases cwsOnAdd_cases (resetIfFull s) with ⟨hc, -⟩ | ⟨hc, -⟩ <;> rw [hc, hr]
      · exact ⟨_, _, _, _, _, _, rfl⟩
      · exact ⟨_, _, _, _, _, _, rfl⟩
    · simpa [CountsReset] using resetIfFull_countsReset s
    · obtain ⟨hb, hlt⟩ := h.resetIfFull
      rw [cwsOnAdd_ht, cwsOnAdd_dictSize]
      exact hb.insert hlt _ p e (by rw [BitVec.toNat_ofNat]; omega)
  · trivial

/-- decLookup writes nothing, and the sequence it answers is a root, a stored one or one byte longer than PREV
(45_decoder R135, R136). -/
theorem decLookup_ends (c : Code) (hQ : Q s) :
    (decLookup c s).Ends (fun q t => t = s ∧
      (SeqsOk s → s.prev.length + 1 ≤ Config.seqMaxLen → q.length ≤ Config.seqMaxLen)) Q := by
  rcases decLookup_cases c s with ⟨-, e⟩ | ⟨hge, hlt, e⟩ | ⟨-, -, e⟩ | ⟨-, -, e⟩ <;> rw [e]
  · exact ⟨rfl, fun _ h => by simp [ByteSeq.length, Config.seqMaxLen]⟩
  · exact ⟨rfl, fun h _ => h.st_le _ hlt hge⟩
  · exact ⟨rfl, fun _ h => by simpa using h⟩
  · exact ⟨by decide, hQ⟩

/-- decEmit writes OBUF and WCUR only; WCUR moves by whole bytes and stays within OUT_CAP (45_decoder R137). -/
theorem decEmit_ends (q : ByteSeq) (hQ : Q s) :
    (decEmit q s).Ends (fun _ t => ∃ m c, t = { s with obuf := m, wcur := c } ∧
      (BlockOk s → s.outCap.toNat ≤ s.params.obufCap → s.wcur.toNat % 8 = 0 →
        BlockOk t ∧ c.toNat % 8 = 0 ∧ c.toNat ≤ 8 * s.outCap.toNat)) Q := by
  rcases decEmit_cases q s with ⟨e, -⟩ | ⟨hroom, e⟩ <;> rw [e]
  · exact ⟨by decide, hQ⟩
  · rcases decPutBytes_cases q.toList s with ⟨m, hm⟩ | hm <;> rw [hm]
    · refine ⟨m, _, rfl, fun h hcap hbyte => ?_⟩
      obtain ⟨-, -, -, -, hobuf⟩ := h.params
      have hlen := q.length_toList
      obtain ⟨m', hm', hwf, hbelow, -⟩ := decPutBytes_run (l := q.toList) h.obuf_wf (by omega) (by omega)
      obtain rfl : m = m' := congrArg State.obuf (Flow.done.inj (hm.symm.trans hm')).2
      have hc : (s.wcur + BitVec.ofNat 32 (8 * q.toList.length)).toNat = s.wcur.toNat + 8 * q.toList.length := by
        rw [BitVec.toNat_add, BitVec.toNat_ofNat]; omega
      exact ⟨{ h with
        obuf_wf := hwf
        obuf_below := hbelow h.obuf_below
        wcur_le := by simp only [hc]; omega }, by omega, by omega⟩
    · trivial

end

/-- decAdd writes ST, DICT_SIZE and CODE_WIDTH only (45_decoder R138). -/
theorem decAdd_eq (q : ByteSeq) (s : State) : ∃ w,
    decAdd q s = { s with codeWidth := w, st := setSeq s.st s.dictSize.toNat q, dictSize := s.dictSize + 1#13 } := by
  unfold decAdd storeSeq
  rcases cwsOnAdd_cases s with ⟨e, -⟩ | ⟨e, -⟩ <;> rw [e]
  · exact ⟨_, rfl⟩
  · exact ⟨_, rfl⟩

/-! ### The rules by name -/

/-- The rule that the engine runs in each state of FSM (46_control R150). -/
def engineRule : Fsm → State → Flow Unit
  | .idle => fun _ => .stuck .noEngineRule
  | .encMatch => encMatchRule
  | .encFlush => encFlushRule
  | .decFirst => decFirstRule
  | .decLoop => decLoopRule

theorem engineTurn_eq {s : State} (h : s.status.busy = true) : engineTurn s = runStep (engineRule s.fsm) s := by
  cases hf : s.fsm <;> simp only [engineTurn, h, if_true, hf] <;> rfl

/-- The rule of each command, which the issue protocol of 46_control R148 runs. -/
def commandRule : Instr → State → Flow Unit
  | .nop => fun t => .done () t
  | .compress => compressRule
  | .decompress => decompressRule
  | .dictReset => fun t => .done () (dictReset t)
  | .dictFind p e => fun t => (dictFind p e t).bind fun c u => .done () { u with result := c.setWidth 32 }
  | .dictAdd p e => fun t => (dictAdd p e t).bind fun c u => .done () { u with result := c.setWidth 32 }
  | .bwClear => fun t => .done () { t with wcur := 0#32 }
  | .bwWrite code width => fun t =>
    if t.params.obufCap < t.outCap.toNat then .raised .configRange t else bwWrite code width.toNat t
  | .bwFinish => fun t =>
    (bwFinish t).bind fun n u => .done () { u with outLen := n, outBits := u.wcur, result := n }
  | .brInit => fun t => .done () (setRcur 0#32 t)
  | .brRead width => fun t =>
    if 8 * t.params.ibufCap < t.inBits.toNat then .raised .configRange t
    else (brRead width.toNat t).bind fun c u => .done () { u with result := c.setWidth 32 }
  | .softReset => fun t => .done () (softResetState t)

theorem exec_eq (i : Instr) (s : State) : exec i s = runCommand (commandRule i) s := by cases i <;> rfl

/-! ### What a rule does to STATUS, RESULT and DICT_RESETS, from any state -/

/-- An engine rule leaves RESULT alone, leaves STATUS alone or ends the pass, and counts at most one reset. -/
structure PassStep (s t : State) : Prop where
  result : t.result = s.result
  status : t.status = s.status ∨ t.status = (complete s).status
  resets : CountsReset s t

theorem PassStep.refl (s : State) : PassStep s s := ⟨rfl, .inl rfl, .inl rfl⟩

theorem encMiss_passStep (e : Byte) (s : State) : (encMiss e s).Ends (fun _ => PassStep s) (PassStep s) := by
  unfold encMiss
  refine (bwWrite_ends _ _ (.refl s)).bind ?_
  rintro _ _ ⟨m, c, rfl, -⟩
  refine (dictAdd_ends _ _).bind ?_
  rintro _ _ ⟨⟨ht, n, k, w, d, f, rfl⟩, hd, -, -⟩
  exact ⟨rfl, .inl rfl, hd⟩

theorem encMatchRule_passStep (s : State) : (encMatchRule s).Ends (fun _ => PassStep s) (PassStep s) := by
  unfold encMatchRule
  split
  · refine ibufRead_bind_ends ((dictFind_ends _ _).bind ?_)
    rintro r _ ⟨n, rfl, -, -⟩
    refine Flow.Ends.bind (P := fun _ => PassStep s) ?_ fun _ t ht => ⟨ht.result, ht.status, ht.resets⟩
    split
    · exact ⟨rfl, .inl rfl, .inl rfl⟩
    · exact (encMiss_passStep _ { s with lastProbes := n }).imp (fun _ _ h => ⟨h.result, h.status, h.resets⟩)
        fun _ h => ⟨h.result, h.status, h.resets⟩
  · exact ⟨rfl, .inl rfl, .inl rfl⟩

theorem encFlushRule_passStep (s : State) : (encFlushRule s).Ends (fun _ => PassStep s) (PassStep s) := by
  unfold encFlushRule
  refine (bwWrite_ends _ _ (.refl s)).bind ?_
  rintro _ _ ⟨m, c, rfl, -⟩
  refine bwFinish_ends.bind ?_
  rintro n _ ⟨m', rfl, -⟩
  exact ⟨rfl, .inr rfl, .inl rfl⟩

theorem decFirstRule_passStep (s : State) : (decFirstRule s).Ends (fun _ => PassStep s) (PassStep s) := by
  unfold decFirstRule
  refine (brRead_ends _ (.refl s)).bind ?_
  rintro c _ ⟨r, rfl, -⟩
  refine (decEmit_ends _ ⟨rfl, .inl rfl, .inl rfl⟩).bind ?_
  rintro _ _ ⟨m, k, rfl, -⟩
  exact ⟨rfl, .inl rfl, .inl rfl⟩

theorem decCode_passStep (c : Code) (s : State) : (decCode c s).Ends (fun _ => PassStep s) (PassStep s) := by
  have hfull : PassStep s (resetIfFull s) := ⟨by simp, .inl (by simp), resetIfFull_countsReset s⟩
  unfold decCode
  refine (decLookup_ends c hfull).bind ?_
  rintro q _ ⟨rfl, -⟩
  split
  · exact ⟨by decide, hfull⟩
  · refine (decEmit_ends q hfull).bind ?_
    rintro _ _ ⟨m, k, rfl, -⟩
    exact ⟨by simp, .inl (by simp), by simpa [CountsReset] using resetIfFull_countsReset s⟩

theorem decLoopRule_passStep (s : State) : (decLoopRule s).Ends (fun _ => PassStep s) (PassStep s) := by
  unfold decLoopRule
  split
  · exact ⟨rfl, .inr rfl, .inl rfl⟩
  · refine (brRead_ends _ (.refl s)).bind ?_
    rintro c _ ⟨r, rfl, -⟩
    exact (decCode_passStep c { s with rcur := r, codes := s.codes + 1#32 }).imp
      (fun _ _ h => ⟨h.result, h.status, h.resets⟩) fun _ h => ⟨h.result, h.status, h.resets⟩

theorem engineRule_passStep (f : Fsm) (s : State) : (engineRule f s).Ends (fun _ => PassStep s) (PassStep s) := by
  cases f with
  | idle => trivial
  | encMatch => exact encMatchRule_passStep s
  | encFlush => exact encFlushRule_passStep s
  | decFirst => exact decFirstRule_passStep s
  | decLoop => exact decLoopRule_passStep s

/-- Everything an engine turn does to STATUS, RESULT and DICT_RESETS. -/
theorem engineTurn_passStep {s t : State} (h : engineTurn s = .next t) :
    (s.status.busy = false ∧ t = s) ∨
      s.status.busy = true ∧ (PassStep s t ∨ ∃ e u, e ≠ .none ∧ PassStep s u ∧ t = errorStop e u) := by
  cases hb : s.status.busy with
  | false => rw [engineTurn_idle hb] at h; cases h; exact .inl ⟨rfl, rfl⟩
  | true => rw [engineTurn_eq hb] at h; exact .inr ⟨rfl, runStep_ends h (engineRule_passStep s.fsm s)⟩

/-- The commands that write RESULT (10_state R29, 46_control R154). -/
def WritesResult (i : Instr) : Prop :=
  (∃ p e, i = .dictFind p e) ∨ (∃ p e, i = .dictAdd p e) ∨ i = .bwFinish ∨ (∃ w, i = .brRead w) ∨ i = .softReset

/-- STATUS when a rule at issue has run to its end: as the rule found it, or with EMPTY or BUSY set, or reset. -/
def IssueStatus (s t : State) : Prop :=
  t.status = s.status ∨ t.status = (setEmpty s).status ∨ t.status = (startEngine .idle s).status ∨
    t.status = Status.reset

/-- What the rule of the command `i` does at issue to STATUS, RESULT and DICT_RESETS. -/
structure IssueStep (i : Instr) (s t : State) : Prop where
  result : t.result = s.result ∨ WritesResult i
  status : IssueStatus s t
  resets : t.dictResets = s.dictResets ∨ t.dictResets = 0#32 ∨ (∃ p e, i = .dictAdd p e) ∧ CountsReset s t

theorem IssueStep.refl (i : Instr) (s : State) : IssueStep i s s := ⟨.inl rfl, .inl rfl, .inl rfl⟩

theorem compressRule_issueStep (s : State) :
    (compressRule s).Ends (fun _ => IssueStep .compress s) (IssueStep .compress s) := by
  unfold compressRule
  split
  · exact ⟨by decide, .refl _ s⟩
  · split
    · exact ⟨.inl rfl, .inr (.inl rfl), .inr (.inl rfl)⟩
    · exact ibufRead_bind_ends ⟨.inl rfl, .inr (.inr (.inl rfl)), .inr (.inl rfl)⟩

theorem decompressRule_issueStep (s : State) :
    (decompressRule s).Ends (fun _ => IssueStep .decompress s) (IssueStep .decompress s) := by
  unfold decompressRule
  split
  · exact ⟨by decide, .refl _ s⟩
  · split
    · exact ⟨.inl rfl, .inr (.inl rfl), .inr (.inl rfl)⟩
    · exact ⟨.inl rfl, .inr (.inr (.inl rfl)), .inr (.inl rfl)⟩

theorem commandRule_issueStep (i : Instr) (s : State) :
    (commandRule i s).Ends (fun _ => IssueStep i s) (IssueStep i s) := by
  cases i with
  | nop => exact .refl _ s
  | compress => exact compressRule_issueStep s
  | decompress => exact decompressRule_issueStep s
  | dictReset => exact ⟨.inl rfl, .inl rfl, .inl rfl⟩
  | dictFind p e =>
    refine (dictFind_ends p e).bind ?_
    rintro c _ ⟨n, rfl, -, -⟩
    exact ⟨.inr (.inl ⟨p, e, rfl⟩), .inl rfl, .inl rfl⟩
  | dictAdd p e =>
    refine (dictAdd_ends p e).bind ?_
    rintro c _ ⟨⟨ht, n, k, w, d, f, rfl⟩, hd, -, -⟩
    exact ⟨.inr (.inr (.inl ⟨p, e, rfl⟩)), .inl rfl, .inr (.inr ⟨⟨p, e, rfl⟩, hd⟩)⟩
  | bwClear => exact ⟨.inl rfl, .inl rfl, .inl rfl⟩
  | bwWrite code width =>
    simp only [commandRule]
    split
    · exact ⟨by decide, .refl _ s⟩
    · refine (bwWrite_ends _ _ (.refl _ s)).imp ?_ fun _ h => h
      rintro _ _ ⟨m, c, rfl, -⟩
      exact ⟨.inl rfl, .inl rfl, .inl rfl⟩
  | bwFinish =>
    refine bwFinish_ends.bind ?_
    rintro n _ ⟨m, rfl, -⟩
    exact ⟨.inr (.inr (.inr (.inl rfl))), .inl rfl, .inl rfl⟩
  | brInit => exact ⟨.inl rfl, .inl rfl, .inl rfl⟩
  | brRead width =>
    simp only [commandRule]
    split
    · exact ⟨by decide, .refl _ s⟩
    · refine (brRead_ends _ (.refl _ s)).bind ?_
      rintro c _ ⟨r, rfl, -⟩
      exact ⟨.inr (.inr (.inr (.inr (.inl ⟨width, rfl⟩)))), .inl rfl, .inl rfl⟩
  | softReset => exact ⟨.inr (.inr (.inr (.inr (.inr rfl)))), .inr (.inr (.inr rfl)), .inr (.inl rfl)⟩

/-- Everything a command does to STATUS, RESULT and DICT_RESETS. -/
theorem exec_issueStep {i : Instr} {s t : State} (h : exec i s = .next t) :
    (s.status.busy = true ∧ t = s) ∨ s.status.busy = false ∧
      ((∃ u, IssueStep i (clearFlags s) u ∧ t = if u.status.busy then u else setDone u) ∨
        ∃ e u, e ≠ .none ∧ IssueStep i (clearFlags s) u ∧ t = errorStop e u) := by
  rw [exec_eq] at h
  cases hb : s.status.busy with
  | true => rw [runCommand_busy hb] at h; cases h; exact .inl ⟨rfl, rfl⟩
  | false => exact .inr ⟨rfl, runCommand_ends h hb (commandRule_issueStep i _)⟩

/-- Settles O55: an engine rule never writes RESULT, and a rule at issue only where `WritesResult` says. -/
theorem onlyPrimitivesWriteResult : Obligations.OnlyPrimitivesWriteResult := by
  refine ⟨fun s t h => ?_, fun i s t h hne => ?_⟩
  · rcases engineTurn_passStep h with ⟨-, rfl⟩ | ⟨-, hp | ⟨e, u, -, hu, rfl⟩⟩
    · rfl
    · exact hp.result
    · exact hu.result
  · rcases exec_issueStep h with ⟨-, rfl⟩ | ⟨-, ⟨u, hu, rfl⟩ | ⟨e, u, -, hu, rfl⟩⟩
    · exact absurd rfl hne
    · refine hu.result.resolve_left fun hr => hne ?_
      split
      · exact hr
      · exact hr
    · exact hu.result.resolve_left hne

/-! ### What a host access and a step can do -/

/-- What a host access that issues no command does: it answers a read, it writes RW registers while BUSY = 0, or it stores
to a buffer (20_memory R53, R54). -/
inductive HostEffect (s : State) : State → Prop
  | read (d : Word) : HostEffect s { s with readData := d }
  | sizes (hb : s.status.busy = false) (n b c : Word) : HostEffect s { s with inLen := n, inBits := b, outCap := c }
  | ibuf (a : Nat) (v : Byte) : HostEffect s { s with ibuf := hostStore s.status.busy s.ibuf s.params.ibufCap a v }
  | obuf (a : Nat) (v : Byte) : HostEffect s { s with obuf := hostStore s.status.busy s.obuf s.params.obufCap a v }

theorem HostEffect.refl (s : State) : HostEffect s s := .read s.readData

section
variable {s t : State} {off : Nat}

theorem readByteAt_next (h : readByteAt off s = .next t) : HostEffect s t := by
  unfold readByteAt at h
  split at h <;> cases h
  · exact .read _
  · exact .read _
  · exact .read _

theorem writeByteAt_next {v : Byte} (h : writeByteAt off v s = .next t) : HostEffect s t := by
  unfold writeByteAt at h
  split at h <;> cases h
  · exact .ibuf _ _
  · exact .obuf _ _
  · exact .refl s

theorem readWordAt_next (h : readWordAt off s = .next t) : HostEffect s t := by
  unfold readWordAt at h
  split at h
  · split at h
    · split at h <;> cases h
      · exact .read _
      · exact .read _
    · cases h
  · cases h
  · cases h
  · split at h <;> cases h
    exact .read _

/-- CMD stands at offset 0 only (10_state R21). -/
theorem regAt_cmd (h : regAt off = some .cmd) : off = 0 := by
  unfold regAt at h
  split at h <;> cases h
  rfl

theorem writeReg_next {r : RegName} {v : Word} (h : writeReg r v s = .next t) :
    (r = .cmd ∧ issue v s = .next t) ∨ HostEffect s t := by
  rcases writeReg_cases r v s with ⟨rfl, e⟩ | ⟨hb, ⟨-, e⟩ | ⟨-, e⟩ | ⟨-, e⟩⟩ | e <;> rw [e] at h
  · exact .inl ⟨rfl, h⟩
  · cases h; exact .inr (.sizes hb v s.inBits s.outCap)
  · cases h; exact .inr (.sizes hb s.inLen v s.outCap)
  · cases h; exact .inr (.sizes hb s.inLen s.inBits v)
  · cases h; exact .inr (.refl s)

theorem writeWordAt_next {v : Word} (h : writeWordAt off v s = .next t) :
    (off = 0 ∧ issue v s = .next t) ∨ HostEffect s t := by
  unfold writeWordAt at h
  split at h
  case h_1 r hr =>
    obtain rfl : off = r := by unfold regionOf at hr; split_ifs at hr; exact Region.regs.inj hr
    split at h
    · split at h
      case h_1 n hn =>
        rcases writeReg_next h with ⟨rfl, h⟩ | h
        · exact .inl ⟨regAt_cmd hn, h⟩
        · exact .inr h
      case h_2 => cases h; exact .inr (.refl s)
    · cases h
  case h_2 => cases h
  case h_3 => cases h
  case h_4 =>
    split at h <;> cases h
    exact .inr (.refl s)

theorem inWindow_next {addr : Nat} {k : Nat → Host.Outcome State Fault Refusal} (h : inWindow addr s k = .next t) :
    ∃ off, addr = s.params.base + off ∧ k off = .next t := by
  by_cases hw : s.params.base ≤ addr ∧ addr < s.params.base + Config.windowSize
  · simp only [inWindow, windowOffset, if_pos hw] at h
    exact ⟨_, by omega, h⟩
  · simp only [inWindow, windowOffset, if_neg hw] at h
    cases h

/-- Everything a host access that is not refused can do (20_memory R53, R54). -/
theorem hostAccess_next {a : HostAccess} (h : hostAccess a s = .next t) :
    (∃ v, a = .writeWord s.params.base v ∧ issue v s = .next t) ∨ HostEffect s t := by
  cases a with
  | readByte addr =>
    obtain ⟨off, -, hk⟩ := inWindow_next h
    exact .inr (readByteAt_next hk)
  | writeByte addr v =>
    obtain ⟨off, -, hk⟩ := inWindow_next h
    exact .inr (writeByteAt_next hk)
  | readWord addr =>
    obtain ⟨off, -, hk⟩ := inWindow_next h
    exact .inr (readWordAt_next hk)
  | writeWord addr v =>
    obtain ⟨off, rfl, hk⟩ := inWindow_next h
    rcases writeWordAt_next hk with ⟨rfl, hv⟩ | he
    · exact .inl ⟨v, rfl, hv⟩
    · exact .inr he
  | readOther bits addr =>
    obtain ⟨off, -, hk⟩ := inWindow_next h
    cases hk
  | writeOther bits addr v =>
    obtain ⟨off, -, hk⟩ := inWindow_next h
    cases hk

theorem issue_next {v : Word} (h : issue v s = .next t) :
    (∃ i, decode v = .ok i ∧ exec i s = .next t) ∨ illegalCommand s = .next t := by
  cases hd : decode v with
  | ok i => rw [issue_ok hd] at h; exact .inl ⟨i, rfl, h⟩
  | error e => rw [issue_error hd] at h; exact .inr h

theorem illegalCommand_next (h : illegalCommand s = .next t) :
    t = s ∨ s.status.busy = false ∧ t = errorStop .illegalCmd (clearFlags s) := by
  rcases runCommand_next h with ⟨-, rfl⟩ | ⟨hb, ⟨u, hu, -⟩ | ⟨e, u, hu, rfl⟩⟩
  · exact .inl rfl
  · cases hu
  · cases hu; exact .inr ⟨hb, rfl⟩

/-- Everything a step can do, with the entry it takes off the order of accesses and engine turns: an engine turn, a
hardware reset, a host access that issues no command, an accepted word at CMD, or the illegal-command rule. -/
theorem step_next (h : step s = .next t) :
    ∃ rest, engineTurn { s with inputs := rest } = .next t ∨ (∃ d, t = hardReset d { s with inputs := rest }) ∨
      HostEffect { s with inputs := rest } t ∨
      (∃ v i, s.inputs = .access (.writeWord s.params.base v) :: rest ∧ decode v = .ok i ∧
        exec i { s with inputs := rest } = .next t) ∨
      illegalCommand { s with inputs := rest } = .next t := by
  cases hi : s.inputs with
  | nil =>
    have hstep : step s = engineTurn s := by simp only [step, hi]
    exact ⟨s.inputs, .inl (hstep ▸ h)⟩
  | cons x rest =>
    rw [step_cons hi] at h
    refine ⟨rest, ?_⟩
    cases x with
    | engine => exact .inl h
    | reset d => cases h; exact .inr (.inl ⟨d, rfl⟩)
    | access a =>
      rcases hostAccess_next h with ⟨v, rfl, hv⟩ | he
      · rcases issue_next hv with ⟨i, hd, hx⟩ | hx
        · exact .inr (.inr (.inr (.inl ⟨v, i, rfl, hd, hx⟩)))
        · exact .inr (.inr (.inr (.inr hx)))
      · exact .inr (.inr (.inl he))

end

/-! ### STATUS -/

theorem errorStop_legal {e : ErrCode} (he : e ≠ .none) (s : State) : (errorStop e s).status.Legal := by
  simp [Status.Legal, he]

theorem PassStep.legal {s t : State} (h : PassStep s t) (hs : s.status.Legal) (hb : s.status.busy = true) :
    t.status.Legal := by
  obtain ⟨hbusy, hdone, herr, hempty⟩ := hs
  obtain ⟨-, hnoerr⟩ := hbusy hb
  rcases h.status with e | e <;> rw [e]
  · exact ⟨hbusy, hdone, herr, hempty⟩
  · exact ⟨fun h => (by cases h), fun _ => hnoerr, herr, fun _ => rfl⟩

/-- A command whose rule has run to its end leaves a legal STATUS: busy, or done (46_control R148). -/
theorem IssueStatus.legal {s u : State} (hb : s.status.busy = false) (h : IssueStatus (clearFlags s) u) :
    (if u.status.busy then u else setDone u).status.Legal := by
  rcases h with e | e | e | e <;> simp [e, hb, Status.Legal, Status.reset]

theorem engineTurn_legal {s t : State} (hs : s.status.Legal) (h : engineTurn s = .next t) : t.status.Legal := by
  rcases engineTurn_passStep h with ⟨-, rfl⟩ | ⟨hb, hp | ⟨e, u, he, -, rfl⟩⟩
  · exact hs
  · exact hp.legal hs hb
  · exact errorStop_legal he u

theorem exec_legal {i : Instr} {s t : State} (hs : s.status.Legal) (h : exec i s = .next t) : t.status.Legal := by
  rcases exec_issueStep h with ⟨-, rfl⟩ | ⟨hb, ⟨u, hu, rfl⟩ | ⟨e, u, he, -, rfl⟩⟩
  · exact hs
  · exact hu.status.legal hb
  · exact errorStop_legal he u

theorem HostEffect.status_eq {s t : State} (h : HostEffect s t) : t.status = s.status := by cases h <;> rfl

theorem step_legal {s t : State} (hs : s.status.Legal) (h : step s = .next t) : t.status.Legal := by
  obtain ⟨rest, h | ⟨d, rfl⟩ | h | ⟨v, i, -, -, h⟩ | h⟩ := step_next h
  · exact engineTurn_legal (s := { s with inputs := rest }) hs h
  · exact (by decide : Status.reset.Legal)
  · rw [h.status_eq]; exact hs
  · exact exec_legal (s := { s with inputs := rest }) hs h
  · rcases illegalCommand_next h with rfl | ⟨-, rfl⟩
    · exact hs
    · exact errorStop_legal (by decide) _

/-- The ERRCODE field of the STATUS word (10_state R23). -/
theorem toWord_errCode (t : Status) : t.toWord.extractLsb' 4 4 = t.errCode.toBits := by
  apply BitVec.eq_of_getLsbD_eq
  intro i hi
  simp only [Status.toWord, BitVec.getLsbD_extractLsb', BitVec.getLsbD_append]
  grind

theorem toWord_upper (t : Status) : t.toWord.extractLsb' 8 24 = 0#24 := by
  apply BitVec.eq_of_getLsbD_eq
  intro i hi
  simp only [Status.toWord, BitVec.getLsbD_extractLsb', BitVec.getLsbD_append]
  grind

theorem toWord_flags (t : Status) :
    t.toWord.getLsbD 0 = t.busy ∧ t.toWord.getLsbD 1 = t.done ∧ t.toWord.getLsbD 2 = t.err ∧
      t.toWord.getLsbD 3 = t.empty := by
  simp only [Status.toWord, BitVec.getLsbD_append]
  simp

/-- Settles O53: the layout of STATUS field by field, its error words, and `Status.Legal` kept by every step. -/
theorem statusFlagsExclusive : Obligations.StatusFlagsExclusive := by
  refine ⟨fun s => ?_, by decide, fun s t hs h => step_legal hs h⟩
  obtain ⟨hbusy, hdone, herr, hempty⟩ := toWord_flags s.status
  refine ⟨hbusy, hdone, herr, hempty, toWord_errCode s.status, toWord_upper s.status, fun x hx he => ?_⟩
  have numbers : ∀ x ∈ [(ErrCode.none, 0#4), (ErrCode.outputOverflow, 1#4), (ErrCode.malformed, 2#4),
      (ErrCode.truncated, 3#4), (ErrCode.illegalCmd, 4#4), (ErrCode.configRange, 5#4), (ErrCode.seqOverflow, 6#4)],
      x.1.toBits = x.2 := by decide
  exact (toWord_errCode s.status).trans (he ▸ numbers x hx)

/-! ### CODE_WIDTH -/

/-- Between two powers of 2 the width is the number of binary digits (00_scope R11). -/
theorem eq_bitlen {w n : Nat} (hw : 1 ≤ w) (hn : n ≠ 0) (hlo : 2 ^ (w - 1) ≤ n) (hhi : n < 2 ^ w) : w = bitlen n := by
  have hlog : Nat.log2 n = w - 1 := (Nat.log2_eq_iff hn).2 ⟨hlo, by rwa [Nat.sub_add_cancel hw]⟩
  unfold bitlen
  omega

theorem cwsOnAdd_codeWidth {s : State} (h : DictOk s) (hn : s.dictSize.toNat < 4096) :
    (cwsOnAdd s).codeWidth.toNat = bitlen s.dictSize.toNat := by
  obtain ⟨w, hw, hge, -, hhi, hlo⟩ := cwsOnAdd_grows h hn
  have hsize := h.size_ge
  rw [hw]
  exact eq_bitlen (w := w.toNat) (by omega) (by omega) (by omega) (by omega)

/-- NEXT_WIDTH is the width that dictAdd would leave, also where it resets a full dictionary first (41_code_width R99). -/
theorem peekWidth_eq (s : State) : peekWidth s.dictSize s.codeWidth = (cwsOnAdd (resetIfFull s)).codeWidth := by
  unfold peekWidth Config.capacity
  rcases resetIfFull_cases s with ⟨e, hfull⟩ | ⟨e, hroom⟩ <;> rw [e]
  · rw [if_pos hfull]
    simp [cwsOnAdd, Config.initWidth, Config.maxWidth]
  · rw [if_neg hroom]
    unfold cwsOnAdd
    split <;> rfl

theorem readReg_nextWidth (s : State) :
    (readReg .nextWidth s).toNat = (cwsOnAdd (resetIfFull s)).codeWidth.toNat := by
  rw [← peekWidth_eq]
  exact BitVec.toNat_setWidth_of_le (by decide)

/-- A DICT_ADD leaves the width of dictAdd's scheduler call (40_dictionary R88, R94). -/
theorem exec_dictAdd_codeWidth {p : Code} {e : Byte} {s t : State} (hb : s.status.busy = false)
    (h : exec (.dictAdd p e) s = .next t) : t.codeWidth = (cwsOnAdd (resetIfFull (clearFlags s))).codeWidth := by
  have hrule : (commandRule (.dictAdd p e) (clearFlags s)).Ends
      (fun _ u => u.codeWidth = (cwsOnAdd (resetIfFull (clearFlags s))).codeWidth) (fun _ => False) := by
    refine (dictAdd_ends p e).bind ?_
    rintro _ _ ⟨-, -, hw, -⟩
    exact hw
  rw [exec_eq] at h
  rcases runCommand_ends h hb hrule with ⟨u, hu, rfl⟩ | ⟨_, _, -, hu, -⟩
  · split
    · exact hu
    · exact hu
  · exact hu.elim

/-- Settles O25: the dictionary's size stands between two powers of 2, before an add and after it. -/
theorem nextWidthIsWidthAfterAdd : Obligations.NextWidthIsWidthAfterAdd := by
  intro s h
  have hsize := h.size_ge
  refine ⟨?_, ?_, fun p e t hb ht => ?_⟩
  · have hlo := h.tight
    have hhi := h.fits
    exact eq_bitlen (by have := h.width_ge; omega) (by omega) (by omega) (by omega)
  · rw [readReg_nextWidth]
    rcases resetIfFull_cases s with ⟨e, hfull⟩ | ⟨e, hroom⟩ <;> rw [e]
    · rw [if_neg (by omega)]
      simp [cwsOnAdd, Config.maxWidth]
    · have hlt := lt_of_le_of_ne h.size_le hroom
      rw [if_pos hlt, cwsOnAdd_codeWidth h hlt]
  · rw [exec_dictAdd_codeWidth hb ht, ← peekWidth_eq]
    exact (BitVec.toNat_setWidth_of_le (by decide)).symm

/-! ### The invariant, put together again -/

section
variable {s : State}

/-- Outside a pass the block's part and a legal STATUS are all of the invariant. -/
theorem Inv.of_idle (h : BlockOk s) (hl : s.status.Legal) (hb : s.status.busy = false) (hf : s.fsm = .idle) : Inv s where
  params := h.params
  status := hl
  busy_iff := by simp [hb, hf]
  tables := h.toTablesOk
  dict := h.toDictOk
  cursors := h.toCursorsOk
  enc := by simp [hf]
  flush := by simp [hf]
  dec := by simp [hf]
  decFirst := by simp [hf]
  seqs := by simp [hf]
  resets := by simp [hf]

/-- While a COMPRESS pass runs. -/
theorem Inv.of_enc (h : BlockOk s) (hl : s.status.Legal) (hb : s.status.busy = true)
    (hf : s.fsm = .encMatch ∨ s.fsm = .encFlush ∧ s.ipos = s.inLen) (he : EncOk s)
    (hr : s.dictResets.toNat ≤ s.codes.toNat) : Inv s where
  params := h.params
  status := hl
  busy_iff := by rcases hf with hf | ⟨hf, -⟩ <;> simp [hb, hf]
  tables := h.toTablesOk
  dict := h.toDictOk
  cursors := h.toCursorsOk
  enc := fun _ => he
  flush := fun hf' => by
    rcases hf with hf | ⟨-, hend⟩
    · rw [hf] at hf'; cases hf'
    · exact hend
  dec := by rcases hf with hf | ⟨hf, -⟩ <;> simp [hf]
  decFirst := by rcases hf with hf | ⟨hf, -⟩ <;> simp [hf]
  seqs := by rcases hf with hf | ⟨hf, -⟩ <;> simp [hf]
  resets := fun _ => hr

/-- While a DECOMPRESS pass runs. -/
theorem Inv.of_dec (h : BlockOk s) (hl : s.status.Legal) (hb : s.status.busy = true)
    (hf : (s.fsm = .decFirst ∧ s.dictSize = 256#13 ∧ s.codes = 0#32 ∧ s.rcur = 0#32 ∧ s.wcur = 0#32) ∨
      (s.fsm = .decLoop ∧ SeqsOk s))
    (hd : DecOk s) (hr : s.dictResets.toNat ≤ s.codes.toNat) : Inv s where
  params := h.params
  status := hl
  busy_iff := by rcases hf with ⟨hf, -⟩ | ⟨hf, -⟩ <;> simp [hb, hf]
  tables := h.toTablesOk
  dict := h.toDictOk
  cursors := h.toCursorsOk
  enc := by rcases hf with ⟨hf, -⟩ | ⟨hf, -⟩ <;> simp [hf]
  flush := by rcases hf with ⟨hf, -⟩ | ⟨hf, -⟩ <;> simp [hf]
  dec := fun _ => hd
  decFirst := fun hf' => by
    rcases hf with ⟨-, hstart⟩ | ⟨hf, -⟩
    · exact hstart
    · rw [hf] at hf'; cases hf'
  seqs := fun hf' => by
    rcases hf with ⟨hf, -⟩ | ⟨-, hseqs⟩
    · rw [hf] at hf'; cases hf'
    · exact hseqs
  resets := fun _ => hr

theorem Inv.fsm_idle (h : Inv s) (hb : s.status.busy = false) : s.fsm = .idle := by
  by_contra hf
  rw [h.busy_iff.2 hf] at hb
  cases hb

/-- An error stop meets the invariant wherever the error was raised (60_exceptions R162). -/
theorem BlockOk.errorStop {e : ErrCode} (h : BlockOk s) (he : e ≠ .none) : Inv (errorStop e s) :=
  .of_idle { h with } (errorStop_legal he s) rfl rfl

/-- The end of a pass meets the invariant (46_control R149). -/
theorem BlockOk.complete (h : BlockOk s) (hl : s.status.Legal) (hb : s.status.busy = true) : Inv (complete s) :=
  .of_idle { h with } (PassStep.legal (s := s) ⟨rfl, .inr rfl, .inl rfl⟩ hl hb) rfl rfl

end

/-! ### The engine keeps the invariant -/

/-- What an engine rule keeps also where it raises an error (10_state R49). -/
structure PassData (s : State) : Prop where
  block : BlockOk s
  resets : s.dictResets.toNat ≤ s.codes.toNat

/-- What an engine rule leaves where it runs to its end. -/
structure PassInv (s : State) : Prop where
  inv : Inv s
  resets : s.dictResets.toNat ≤ s.codes.toNat

section
variable {s : State}

theorem word_add_one {n : Word} (h : n.toNat < 2 ^ 32 - 1) : (n + 1#32).toNat = n.toNat + 1 := by
  rw [BitVec.toNat_add, BitVec.toNat_ofNat]; omega

theorem byte_lt (b : Byte) : (b.setWidth 16 : Code).toNat < 256 := by
  rw [BitVec.toNat_setWidth_of_le (by decide)]
  exact b.isLt

/-- Where a pass has counted `CODES` beyond DICT_RESETS, one more reset keeps them so (10_state R49). -/
theorem CountsReset.le_codes {t : State} (h : CountsReset s t) (hs : BlockOk s) (hr : s.dictResets.toNat < s.codes.toNat) :
    t.dictResets.toNat ≤ s.codes.toNat := by
  obtain ⟨-, -, hibuf, -, -⟩ := hs.params
  have hcodes := hs.codes_le
  exact h.le hr (by unfold Config.counterBound; omega)

/-- The registers of the encoder once a miss has written one more code and restarted the match at `e`
(44_encoder R123, R128). -/
theorem EncOk.afterMiss (he : EncOk s) (h : BlockOk s) (hlt : s.ipos.toNat < s.inLen.toNat) {c : Word} {k : BitVec 13}
    (e : Byte) (w : BitVec 4) (hc : c.toNat = s.wcur.toNat + s.codeWidth.toNat) (hcap : c.toNat ≤ 8 * s.outCap.toNat)
    (hk : 256 ≤ k.toNat) :
    EncOk { s with
      wcur := c, codes := s.codes + 1#32, dictSize := k, codeWidth := w, pfx := e.setWidth 16, ipos := s.ipos + 1#32 } := by
  have hipos : (s.ipos + 1#32).toNat = s.ipos.toNat + 1 := word_add_one (by omega)
  have hlow := he.codes_lt
  have hcodes : (s.codes + 1#32).toNat = s.codes.toNat + 1 := word_add_one (by omega)
  exact
    { he with
      wcur_le := hcap
      ipos_ge := by simp only [hipos]; omega
      ipos_le := by simp only [hipos]; omega
      codes_lt := by simp only [hipos, hcodes]; omega
      pfx_live := lt_of_lt_of_le (byte_lt e) hk
      first := fun h0 => by
        have hzero := congrArg BitVec.toNat h0
        rw [hcodes] at hzero
        cases hzero
      written := fun _ => by
        simp only [hcodes, hc]
        by_cases h0 : s.codes = 0#32
        · obtain ⟨hw0, hw8⟩ := he.first h0
          simp [h0, hw0, hw8]
        · have hwritten := he.written h0
          have hwidth := h.width_le
          omega }

/-- The miss branch of ENC_MATCH; what comes after it in the step is the move of IPOS (44_encoder R123). -/
theorem encMiss_keeps (h : Inv s) (hb : s.status.busy = true) (hf : s.fsm = .encMatch)
    (hlt : s.ipos.toNat < s.inLen.toNat) (e : Byte) :
    (encMiss e s).Ends (fun _ v => PassInv { v with ipos := v.ipos + 1#32 }) PassData := by
  have he := h.enc (.inl hf)
  have hr := h.resets (by simp [hf])
  obtain ⟨-, -, hibuf, -, -⟩ := h.params
  have hipos : (s.ipos + 1#32).toNat = s.ipos.toNat + 1 := word_add_one (by omega)
  have hcodes : (s.codes + 1#32).toNat = s.codes.toNat + 1 :=
    word_add_one (by have := he.codes_lt; omega)
  unfold encMiss
  refine (bwWrite_ends _ _ ⟨h.block, hr⟩).bind ?_
  rintro _ _ ⟨m, c, rfl, hw⟩
  obtain ⟨hwritten, hc, hcap⟩ := hw h.block he.outCap_le
  have hcounted : BlockOk { s with obuf := m, wcur := c, codes := s.codes + 1#32 } :=
    { hwritten with codes_le := by have := he.codes_lt; have := he.inLen_le; simp only [hcodes]; omega }
  refine (dictAdd_ends _ _).bind ?_
  rintro _ _ ⟨⟨ht, n, k, w, d, f, rfl⟩, hd, -, hadd⟩
  have hadded := hadd hcounted
  have hresets := hd.le_codes hcounted (by simp only [hcodes]; omega)
  have hstep := he.afterMiss h.block hlt e w hc hcap hadded.size_ge
  exact ⟨.of_enc { hadded with ipos_le := by have := he.inLen_le; simp only [hipos]; omega } h.status hb (.inl hf)
    { hstep with } hresets, hresets⟩

/-- The current match is never INVALID (44_encoder R123). -/
theorem EncOk.pfx_ne_invalid (he : EncOk s) (h : DictOk s) : s.pfx ≠ Config.invalid := fun e => by
  have hinvalid : s.pfx.toNat = 0xFFFF := by rw [e]; rfl
  have := he.pfx_live
  have := h.size_le
  omega

theorem encMatchRule_keeps (h : Inv s) (hb : s.status.busy = true) (hf : s.fsm = .encMatch) :
    (encMatchRule s).Ends (fun _ => PassInv) PassData := by
  have he := h.enc (.inl hf)
  have hr := h.resets (by simp [hf])
  unfold encMatchRule
  split
  case isTrue hlt =>
    obtain ⟨-, -, hibuf, -, -⟩ := h.params
    have hin := he.inLen_le
    have hipos : (s.ipos + 1#32).toNat = s.ipos.toNat + 1 := word_add_one (by omega)
    refine ibufRead_bind_ends ((dictFind_ends _ _).bind ?_)
    rintro r _ ⟨n, rfl, hn, hlive⟩
    have hprobed : BlockOk { s with lastProbes := n } := { h.block with probes_le := hn }
    refine Flow.Ends.bind (P := fun _ v => PassInv { v with ipos := v.ipos + 1#32 }) ?_ fun _ _ hv => hv
    split
    case isTrue hfound =>
      refine ⟨.of_enc { hprobed with ipos_le := by simp only [hipos]; omega } h.status hb (.inl hf) ?_ hr, hr⟩
      exact
        { he with
          ipos_ge := by simp only [hipos]; omega
          ipos_le := by simp only [hipos]; omega
          codes_lt := by have := he.codes_lt; simp only [hipos]; omega
          pfx_live := hlive h.dict (he.pfx_ne_invalid h.dict) hfound }
    case isFalse =>
      exact encMiss_keeps (.of_enc hprobed h.status hb (.inl hf) { he with } hr) hb hf hlt _
  case isFalse hend =>
    have hlast : s.ipos = s.inLen := BitVec.eq_of_toNat_eq (by have := he.ipos_le; omega)
    exact ⟨.of_enc { h.block with } h.status hb (.inr ⟨rfl, hlast⟩) { he with } hr, hr⟩

theorem encFlushRule_keeps (h : Inv s) (hb : s.status.busy = true) (hf : s.fsm = .encFlush) :
    (encFlushRule s).Ends (fun _ => PassInv) PassData := by
  have he := h.enc (.inr hf)
  have hr := h.resets (by simp [hf])
  have hlt := he.codes_lt
  have hpos := h.cursors.ipos_le
  obtain ⟨-, -, hibuf, -, -⟩ := h.params
  have hcodes : (s.codes + 1#32).toNat = s.codes.toNat + 1 := word_add_one (by omega)
  unfold encFlushRule
  refine (bwWrite_ends _ _ ⟨h.block, hr⟩).bind ?_
  rintro _ _ ⟨m, c, rfl, hw⟩
  obtain ⟨hwritten, -, -⟩ := hw h.block he.outCap_le
  have hcounted : BlockOk { s with obuf := m, wcur := c, codes := s.codes + 1#32 } :=
    { hwritten with codes_le := by simp only [hcodes]; omega }
  refine bwFinish_ends.bind ?_
  rintro n _ ⟨m', rfl, hfin⟩
  obtain ⟨hfinished, hn⟩ := hfin hcounted
  refine ⟨BlockOk.complete { hfinished with outLen_le := hn, outBits_le := hfinished.wcur_le } h.status hb, ?_⟩
  show s.dictResets.toNat ≤ (s.codes + 1#32).toNat
  omega

theorem decFirstRule_keeps (h : Inv s) (hb : s.status.busy = true) (hf : s.fsm = .decFirst) :
    (decFirstRule s).Ends (fun _ => PassInv) PassData := by
  have hd := h.dec (.inl hf)
  have hr := h.resets (by simp [hf])
  obtain ⟨hsize, hcodes, hrcur, hwcur⟩ := h.decFirst hf
  obtain ⟨-, hpos, -, -, -⟩ := h.params
  unfold decFirstRule
  refine (brRead_ends _ ⟨h.block, hr⟩).bind ?_
  rintro c _ ⟨r, rfl, hadv, hin⟩
  have hr8 : r.toNat = 8 := by rw [hadv, hrcur]; rfl
  have hle : r.toNat ≤ s.inBits.toNat := hin.resolve_left (by decide)
  have hresets : s.dictResets.toNat ≤ 1 := by rw [hcodes] at hr; exact le_trans hr (by decide)
  have hread : BlockOk { s with rcur := r, codes := 1#32 } :=
    { h.block with rcur_le := le_trans hle hd.inBits_le, codes_le := hpos }
  refine (decEmit_ends _ ⟨hread, hresets⟩).bind ?_
  rintro _ _ ⟨m, n, rfl, hemit⟩
  obtain ⟨hput, hbyte, hcap⟩ := hemit hread hd.outCap_le hd.wcur_bytes
  refine ⟨.of_dec { hput with } h.status hb (.inr ⟨rfl, ?_, fun k hk hroot => ?_⟩) ?_ hresets, hresets⟩
  · simp [ByteSeq.length, Config.seqMaxLen]
  · simp only [hsize] at hk
    exact absurd hk (not_lt.2 hroot)
  · exact { hd with rcur_le := hle, wcur_le := hcap, wcur_bytes := hbyte, codes_le := le_of_eq hr8.symm }

theorem SeqsOk.resetIfFull (h : SeqsOk s) : SeqsOk (resetIfFull s) := by
  rcases resetIfFull_cases s with ⟨e, -⟩ | ⟨e, -⟩ <;> rw [e]
  · exact ⟨h.prev_le, fun c hc hroot => absurd hc (not_lt.2 hroot)⟩
  · exact h

/-- The end of a DEC_LOOP step: sequences of at most SEQ_MAX_LEN bytes go to the code DICT_SIZE and to PREV
(45_decoder R141). -/
theorem decStore_keeps (h : Inv s) (hb : s.status.busy = true) (hf : s.fsm = .decLoop) (hn : s.dictSize.toNat < 4096)
    {x q : ByteSeq} (hx : x.length ≤ Config.seqMaxLen) (hq : q.length ≤ Config.seqMaxLen) :
    PassInv (setPrev q (decAdd x s)) := by
  have hr := h.resets (by simp [hf])
  have hadded := h.block.decAdd hn x
  obtain ⟨w, hadd⟩ := decAdd_eq x s
  rw [hadd] at hadded ⊢
  refine ⟨.of_dec { hadded with } h.status hb (.inr ⟨hf, hq, fun c hc hroot => ?_⟩) { h.dec (.inr hf) with } hr, hr⟩
  simp only [setPrev_dictSize, dictSize_add_one hn] at hc
  simp only [setPrev_st, seqAt_setSeq h.tables.st_wf]
  split
  · exact hx
  · exact (h.seqs hf).st_le c (by omega) hroot

/-- DEC_LOOP after its code is read and counted (45_decoder R141). -/
theorem decCode_keeps (h : Inv s) (hb : s.status.busy = true) (hf : s.fsm = .decLoop)
    (hr : s.dictResets.toNat < s.codes.toNat) (c : Code) : (decCode c s).Ends (fun _ => PassInv) PassData := by
  have hd := h.dec (.inr hf)
  obtain ⟨hblock, hroom⟩ := h.block.resetIfFull
  have hresets := (resetIfFull_countsReset s).le_codes h.block hr
  have hseqs := (h.seqs hf).resetIfFull
  obtain ⟨ht, k, w, d, f, hfull⟩ := resetIfFull_eq s
  unfold decCode
  rw [hfull] at hblock hroom hresets hseqs ⊢
  refine (decLookup_ends c ⟨hblock, hresets⟩).bind ?_
  rintro q _ ⟨rfl, hlen⟩
  split
  case isTrue => exact ⟨by decide, hblock, hresets⟩
  case isFalse hprev =>
    have hprev := not_lt.1 hprev
    refine (decEmit_ends q ⟨hblock, hresets⟩).bind ?_
    rintro _ _ ⟨m, n, rfl, hemit⟩
    obtain ⟨hput, hbyte, hcap⟩ := hemit hblock hd.outCap_le hd.wcur_bytes
    have hemitted := Inv.of_dec hput h.status hb (.inr ⟨hf, { hseqs with }⟩)
      { hd with wcur_le := hcap, wcur_bytes := hbyte } hresets
    exact decStore_keeps hemitted hb hf hroom (by rw [ByteSeq.length_snoc]; exact hprev) (hlen hseqs hprev)

/-- The width DEC_LOOP reads is at least that of a root code (41_code_width R99). -/
theorem peekWidth_ge (h : BlockOk s) : 8 ≤ (peekWidth s.dictSize s.codeWidth).toNat := by
  obtain ⟨hb, hn⟩ := h.resetIfFull
  obtain ⟨w, hw, hge, -⟩ := cwsOnAdd_grows hb.toDictOk hn
  rw [peekWidth_eq, hw]
  exact hge

theorem decLoopRule_keeps (h : Inv s) (hb : s.status.busy = true) (hf : s.fsm = .decLoop) :
    (decLoopRule s).Ends (fun _ => PassInv) PassData := by
  have hd := h.dec (.inr hf)
  have hr := h.resets (by simp [hf])
  obtain ⟨-, -, hibuf, -, hobuf⟩ := h.params
  have hwcur := h.cursors.wcur_le
  unfold decLoopRule
  split
  case isTrue =>
    have hlen : (BitVec.ofNat 32 (s.wcur.toNat / 8)).toNat ≤ s.params.obufCap := by
      rw [BitVec.toNat_ofNat]; omega
    exact ⟨BlockOk.complete { h.block with outLen_le := hlen, outBits_le := hwcur } h.status hb, hr⟩
  case isFalse =>
    have hwidth := peekWidth_ge h.block
    have hcodes : (s.codes + 1#32).toNat = s.codes.toNat + 1 :=
      word_add_one (by have := h.cursors.codes_le; omega)
    refine (brRead_ends _ ⟨h.block, hr⟩).bind ?_
    rintro c _ ⟨r, rfl, hadv, hin⟩
    have hle : r.toNat ≤ s.inBits.toNat := hin.resolve_left (by omega)
    have hcounted : 8 * (s.codes + 1#32).toNat ≤ r.toNat := by have := hd.codes_le; omega
    have hread : BlockOk { s with rcur := r, codes := s.codes + 1#32 } :=
      { h.block with
        rcur_le := le_trans hle hd.inBits_le
        codes_le := by have := hd.inBits_le; simp only; omega }
    have hinv := Inv.of_dec hread h.status hb (.inr ⟨hf, { h.seqs hf with }⟩)
      { hd with rcur_le := hle, codes_le := hcounted } (by simp only [hcodes]; omega)
    exact decCode_keeps hinv hb hf (by simp only [hcodes]; omega) c

theorem engineRule_keeps (h : Inv s) (hb : s.status.busy = true) :
    (engineRule s.fsm s).Ends (fun _ => PassInv) PassData := by
  cases hf : s.fsm with
  | idle => trivial
  | encMatch => exact encMatchRule_keeps h hb hf
  | encFlush => exact encFlushRule_keeps h hb hf
  | decFirst => exact decFirstRule_keeps h hb hf
  | decLoop => exact decLoopRule_keeps h hb hf

/-- An engine step keeps the invariant and counts no more resets than codes. -/
theorem engineTurn_keeps {t : State} (h : Inv s) (hb : s.status.busy = true) (ht : engineTurn s = .next t) :
    PassInv t := by
  rw [engineTurn_eq hb] at ht
  rcases runStep_ends ht (engineRule_keeps h hb) with hp | ⟨e, u, he, hu, rfl⟩
  · exact hp
  · exact ⟨hu.block.errorStop he, hu.resets⟩

end

/-! ### Commands keep the invariant -/

/-- What a rule at issue leaves where it runs to its end: the engine idle and the command about to be done, or a pass
begun (46_control R148). -/
def Issued (s : State) : Prop := (BlockOk s ∧ s.fsm = .idle ∧ s.status.busy = false) ∨ (Inv s ∧ s.status.busy = true)

section
variable {s : State}

/-- The fresh dictionary and the fresh output cursor of a pass (44_encoder R122, 45_decoder R134). -/
theorem BlockOk.passStart (h : BlockOk s) : BlockOk (passStart s) :=
  { h.dictReset with
    wcur_le := by simp
    codes_le := by simp
    outLen_le := by simp
    outBits_le := by simp
    resets_le := by simp }

/-- COMPRESS at issue, the flags being cleared (44_encoder R122). -/
theorem compressRule_keeps (h : BlockOk s) (hf : s.fsm = .idle) (hs : s.status = Status.reset) :
    (compressRule s).Ends (fun _ => Issued) BlockOk := by
  obtain ⟨-, hpos, -, -, -⟩ := h.params
  have hstart := h.passStart
  unfold compressRule
  split
  case isTrue => exact ⟨by decide, h⟩
  case isFalse hcaps =>
    obtain ⟨hin, hout⟩ := not_or.1 hcaps
    split
    case isTrue =>
      exact .inl ⟨{ hstart with ipos_le := by simp }, hf, by simp [hs, Status.reset]⟩
    case isFalse hne =>
      refine ibufRead_bind_ends (.inr ⟨?_, rfl⟩)
      refine .of_enc { hstart with ipos_le := hpos } (by simp [hs, Status.reset, Status.Legal]) rfl (.inl rfl) ?_ (by simp)
      have hlen : s.inLen.toNat ≠ 0 := fun e => hne (BitVec.eq_of_toNat_eq e)
      exact
        { inLen_le := not_lt.1 hin
          outCap_le := not_lt.1 hout
          wcur_le := by simp
          ipos_ge := le_rfl
          ipos_le := Nat.one_le_iff_ne_zero.2 hlen
          codes_lt := by simp
          pfx_live := byte_lt _
          first := fun _ => ⟨rfl, rfl⟩
          written := fun h0 => absurd rfl h0 }

/-- DECOMPRESS at issue, the flags being cleared (45_decoder R134). -/
theorem decompressRule_keeps (h : BlockOk s) (hf : s.fsm = .idle) (hs : s.status = Status.reset) :
    (decompressRule s).Ends (fun _ => Issued) BlockOk := by
  have hstart := h.passStart
  unfold decompressRule
  split
  case isTrue => exact ⟨by decide, h⟩
  case isFalse hcaps =>
    obtain ⟨hin, hout⟩ := not_or.1 hcaps
    split
    case isTrue =>
      exact .inl ⟨{ hstart with rcur_le := by simp }, hf, by simp [hs, Status.reset]⟩
    case isFalse hne =>
      refine .inr ⟨?_, rfl⟩
      refine .of_dec { hstart with rcur_le := by simp } (by simp [hs, Status.reset, Status.Legal]) rfl
        (.inl ⟨rfl, rfl, rfl, rfl, rfl⟩) ?_ (by simp)
      have hbits : s.inBits.toNat ≠ 0 := fun e => hne (BitVec.eq_of_toNat_eq e)
      exact
        { inBits_ge := Nat.one_le_iff_ne_zero.2 hbits
          inBits_le := not_lt.1 hin
          outCap_le := not_lt.1 hout
          rcur_le := by simp
          wcur_le := by simp
          wcur_bytes := rfl
          codes_le := by simp }

/-- SOFT_RESET empties the dictionary and sets every cursor and counter to 0 (46_control R154). -/
theorem TablesOk.softReset (h : TablesOk s) (hp : s.params.Legal) : BlockOk (softResetState s) :=
  { h.dictReset, dictOk_dictReset s with
    params := hp
    wcur_le := by simp [State.reset]
    rcur_le := by simp [State.reset]
    ipos_le := by simp [State.reset]
    codes_le := by simp [State.reset]
    outLen_le := by simp [State.reset]
    outBits_le := by simp [State.reset]
    probes_le := by simp [State.reset]
    resets_le := by simp [State.reset] }

theorem commandRule_keeps (i : Instr) (h : BlockOk s) (hf : s.fsm = .idle) (hs : s.status = Status.reset) :
    (commandRule i s).Ends (fun _ => Issued) BlockOk := by
  have hb : s.status.busy = false := by rw [hs]; rfl
  cases i with
  | nop => exact .inl ⟨h, hf, hb⟩
  | compress => exact compressRule_keeps h hf hs
  | decompress => exact decompressRule_keeps h hf hs
  | dictReset => exact .inl ⟨h.dictReset, hf, hb⟩
  | dictFind p e =>
    refine (dictFind_ends p e).bind ?_
    rintro c _ ⟨n, rfl, hn, -⟩
    exact .inl ⟨{ h with probes_le := hn }, hf, hb⟩
  | dictAdd p e =>
    refine (dictAdd_ends p e).bind ?_
    rintro c _ ⟨⟨ht, n, k, w, d, f, rfl⟩, -, -, hadd⟩
    exact .inl ⟨{ hadd h with }, hf, hb⟩
  | bwClear => exact .inl ⟨{ h with wcur_le := by simp }, hf, hb⟩
  | bwWrite code width =>
    simp only [commandRule]
    split
    case isTrue => exact ⟨by decide, h⟩
    case isFalse hcap =>
      refine (bwWrite_ends _ _ h).imp ?_ fun _ hu => hu
      rintro _ _ ⟨m, c, rfl, hw⟩
      exact .inl ⟨(hw h (not_lt.1 hcap)).1, hf, hb⟩
  | bwFinish =>
    refine bwFinish_ends.bind ?_
    rintro n _ ⟨m, rfl, hfin⟩
    obtain ⟨hfinished, hn⟩ := hfin h
    exact .inl ⟨{ hfinished with outLen_le := hn, outBits_le := h.wcur_le }, hf, hb⟩
  | brInit => exact .inl ⟨{ h with rcur_le := by simp }, hf, hb⟩
  | brRead width =>
    simp only [commandRule]
    split
    case isTrue => exact ⟨by decide, h⟩
    case isFalse hcap =>
      refine (brRead_ends _ h).bind ?_
      rintro c _ ⟨r, rfl, hadv, hin⟩
      have hrcur : r.toNat ≤ 8 * s.params.ibufCap := by
        have := h.rcur_le
        rcases hin with h0 | hin <;> omega
      exact .inl ⟨{ h with rcur_le := hrcur }, hf, hb⟩
  | softReset => exact .inl ⟨h.toTablesOk.softReset h.params, rfl, rfl⟩

variable {t : State}

theorem exec_keeps {i : Instr} (h : Inv s) (ht : exec i s = .next t) : Inv t := by
  have hl := exec_legal h.status ht
  rw [exec_eq] at ht
  cases hb : s.status.busy with
  | true => rw [runCommand_busy hb] at ht; cases ht; exact h
  | false =>
    have hcleared : (clearFlags s).status = Status.reset := by simp [hb, Status.reset]
    have hrule := commandRule_keeps (s := clearFlags s) i { h.block with } (h.fsm_idle hb) hcleared
    rcases runCommand_ends ht hb hrule with ⟨u, ⟨hu, hf, hidle⟩ | ⟨hu, hpass⟩, rfl⟩ | ⟨e, u, he, hu, rfl⟩
    · rw [if_neg (by simp [hidle])] at hl ⊢
      exact .of_idle { hu with } hl hidle hf
    · rw [if_pos hpass]
      exact hu
    · exact hu.errorStop he

/-! ### Host accesses and resets keep the invariant -/

/-- The state whose unspecified contents are those drawn, cut to the indices that exist (70_reset R175). -/
def drawn (d : Draw) (s : State) : State :=
  { s with
    prev := d.prev
    ht := Sparse.load Slot.blank 0 Config.hashSlots d.ht
    st := Sparse.load ByteSeq.blank Config.roots Config.capacity d.st
    ibuf := Sparse.load Memory.blank 0 s.params.ibufCap d.ibuf
    obuf := Sparse.load Memory.blank 0 s.params.obufCap d.obuf }

theorem drawn_tablesOk (d : Draw) (s : State) : TablesOk (drawn d s) where
  ibuf_wf := Sparse.load_wf _ _ _
  ibuf_below := fun _ hc => (Sparse.load_range hc).2
  obuf_wf := Sparse.load_wf _ _ _
  obuf_below := fun _ hc => (Sparse.load_range hc).2
  ht_wf := Sparse.load_wf _ _ _
  ht_below := fun _ hc => (Sparse.load_range hc).2
  st_wf := Sparse.load_wf _ _ _
  st_range := fun _ hc => Sparse.load_range hc

/-- Hardware reset is SOFT_RESET over drawn contents (70_reset R175, R177). -/
theorem hardReset_eq (d : Draw) (s : State) : hardReset d s = softResetState (drawn d s) := rfl

theorem hardReset_keeps (h : Inv s) (d : Draw) : Inv (hardReset d s) :=
  .of_idle (hardReset_eq d s ▸ (drawn_tablesOk d s).softReset h.params) (by decide : Status.reset.Legal) rfl rfl

/-- The buffers' contents, the order of accesses and the host's last read are free within the tables' form. -/
theorem Inv.host (h : Inv s) {ib ob : Memory} (hi : ib.wf ∧ ∀ c ∈ ib, c.1 < s.params.ibufCap)
    (ho : ob.wf ∧ ∀ c ∈ ob, c.1 < s.params.obufCap) (l : List Input) (d : Word) :
    Inv { s with ibuf := ib, obuf := ob, inputs := l, readData := d } :=
  { h with
    tables := { h.tables with ibuf_wf := hi.1, ibuf_below := hi.2, obuf_wf := ho.1, obuf_below := ho.2 }
    dict := { h.dict with }
    cursors := { h.cursors with }
    enc := fun hf => { h.enc hf with }
    dec := fun hf => { h.dec hf with }
    seqs := fun hf => { h.seqs hf with } }

theorem Inv.ibuf_ok (h : Inv s) : s.ibuf.wf ∧ ∀ c ∈ s.ibuf, c.1 < s.params.ibufCap :=
  ⟨h.tables.ibuf_wf, h.tables.ibuf_below⟩

theorem Inv.obuf_ok (h : Inv s) : s.obuf.wf ∧ ∀ c ∈ s.obuf, c.1 < s.params.obufCap :=
  ⟨h.tables.obuf_wf, h.tables.obuf_below⟩

theorem hostStore_ok {b : Bool} {m : Memory} {cap a : Nat} {v : Byte} (h : m.wf ∧ ∀ c ∈ m, c.1 < cap) :
    (hostStore b m cap a v).wf ∧ ∀ c ∈ hostStore b m cap a v, c.1 < cap := by
  unfold hostStore
  split
  case isTrue hstore => exact ⟨Memory.write_wf h.1 a v, Memory.write_below h.2 hstore.1⟩
  case isFalse => exact h

theorem HostEffect.keeps (h : Inv s) (ht : HostEffect s t) : Inv t := by
  cases ht with
  | read d => exact h.host h.ibuf_ok h.obuf_ok s.inputs d
  | sizes hb n b c => exact .of_idle { h.block with } h.status hb (h.fsm_idle hb)
  | ibuf a v => exact h.host (hostStore_ok h.ibuf_ok) h.obuf_ok s.inputs s.readData
  | obuf a v => exact h.host h.ibuf_ok (hostStore_ok h.obuf_ok) s.inputs s.readData

theorem illegalCommand_keeps (h : Inv s) (ht : illegalCommand s = .next t) : Inv t := by
  rcases illegalCommand_next ht with rfl | ⟨-, rfl⟩
  · exact h
  · exact BlockOk.errorStop { h.block with } (by decide)

theorem Inv.withInputs (h : Inv s) (rest : List Input) : Inv { s with inputs := rest } :=
  h.host h.ibuf_ok h.obuf_ok rest s.readData

theorem engineTurn_keeps_inv (h : Inv s) (ht : engineTurn s = .next t) : Inv t := by
  cases hb : s.status.busy with
  | false => rw [engineTurn_idle hb] at ht; cases ht; exact h
  | true => exact (engineTurn_keeps h hb ht).inv

end

/-- Settles O50: each kind of step keeps the invariant. -/
theorem stepKeepsInv : Obligations.StepKeepsInv := by
  intro s t hs ht
  obtain ⟨rest, ht | ⟨d, rfl⟩ | ht | ⟨v, i, -, -, ht⟩ | ht⟩ := step_next ht
  · exact engineTurn_keeps_inv (hs.withInputs rest) ht
  · exact hardReset_keeps (hs.withInputs rest) d
  · exact ht.keeps (hs.withInputs rest)
  · exact exec_keeps (hs.withInputs rest) ht
  · exact illegalCommand_keeps (hs.withInputs rest) ht

/-! ### DICT_RESETS -/

section
variable {s t : State}

theorem engineTurn_countsReset (h : engineTurn s = .next t) : CountsReset s t := by
  rcases engineTurn_passStep h with ⟨-, rfl⟩ | ⟨-, hp | ⟨e, u, -, hu, rfl⟩⟩
  · exact .inl rfl
  · exact hp.resets
  · exact hu.resets

/-- In a pass a counted reset is one more, and DICT_RESETS stays within IBUF_CAP (10_state R49). -/
theorem engineTurn_dictResets (hs : Inv s) (h : engineTurn s = .next t) :
    t.dictResets = s.dictResets ∨
      s.dictSize.toNat = 4096 ∧ t.dictResets = s.dictResets + 1#32 ∧ t.dictResets.toNat ≤ 2 ^ 24 := by
  cases hb : s.status.busy with
  | false => rw [engineTurn_idle hb] at h; cases h; exact .inl rfl
  | true =>
    refine (engineTurn_countsReset h).imp_right fun ⟨hfull, e⟩ => ?_
    obtain ⟨-, -, hibuf, -, -⟩ := hs.params
    have hr := hs.resets (hs.busy_iff.1 hb)
    have hcodes := hs.cursors.codes_le
    have ht := engineTurn_keeps hs hb h
    obtain ⟨-, -, hibuf', -, -⟩ := ht.inv.params
    have hr' := ht.resets
    have hcodes' := ht.inv.cursors.codes_le
    exact ⟨hfull, by rw [e, resetsAfter_below (by unfold Config.counterBound; omega)], by omega⟩

theorem exec_dictResets {i : Instr} (h : exec i s = .next t) :
    t.dictResets = s.dictResets ∨ t.dictResets = 0#32 ∨
      s.status.busy = false ∧ (∃ p e, i = .dictAdd p e) ∧ s.dictSize.toNat = 4096 ∧
        t.dictResets = resetsAfter s.dictResets s.freeCount := by
  rcases exec_issueStep h with ⟨-, rfl⟩ | ⟨hb, hend⟩
  · exact .inl rfl
  · obtain ⟨u, hu, e⟩ : ∃ u, IssueStep i (clearFlags s) u ∧ t.dictResets = u.dictResets := by
      rcases hend with ⟨u, hu, rfl⟩ | ⟨_, u, -, hu, rfl⟩
      · exact ⟨u, hu, by split <;> rfl⟩
      · exact ⟨u, hu, rfl⟩
    rw [e]
    rcases hu.resets with hr | hr | ⟨ha, hr | ⟨hfull, hr⟩⟩
    · exact .inl hr
    · exact .inr (.inl hr)
    · exact .inl hr
    · exact .inr (.inr ⟨hb, ha, hfull, hr⟩)

theorem HostEffect.dictResets_eq (h : HostEffect s t) : t.dictResets = s.dictResets := by cases h <;> rfl

theorem illegalCommand_dictResets (h : illegalCommand s = .next t) : t.dictResets = s.dictResets := by
  rcases illegalCommand_next h with rfl | ⟨-, rfl⟩ <;> rfl

/-- The bounds of 10_state R49, in numbers. -/
theorem Inv.bounds (h : Inv s) :
    s.wcur.toNat ≤ 2 ^ 27 ∧ s.rcur.toNat ≤ 2 ^ 27 ∧ s.ipos.toNat ≤ 2 ^ 27 ∧ s.codes.toNat ≤ 2 ^ 27 ∧
      s.dictResets.toNat ≤ 2 ^ 27 := by
  obtain ⟨-, -, hibuf, -, hobuf⟩ := h.params
  obtain ⟨hwcur, hrcur, hipos, hcodes, -, -, -, hresets⟩ := h.cursors
  exact ⟨by omega, by omega, by omega, by omega, hresets⟩

end

/-- Settles O52: the bounds are those of the invariant, and each kind of step is asked what it does to DICT_RESETS. -/
theorem countersBounded : Obligations.CountersBounded := by
  refine ⟨fun s h => ?_, fun s t hs hb ht => (engineTurn_keeps hs hb ht).resets, fun s t hs ht => ?_⟩
  · obtain ⟨hwcur, hrcur, hipos, hcodes, hresets⟩ := h.bounds
    exact ⟨hwcur, hrcur, hipos, hcodes, hresets, fun hb => h.resets (h.busy_iff.1 hb)⟩
  · obtain ⟨rest, ht | ⟨d, rfl⟩ | ht | ⟨v, i, hin, hd, ht⟩ | ht⟩ := step_next ht
    · exact (engineTurn_dictResets (hs.withInputs rest) ht).imp_right fun h => .inr (.inl h)
    · exact .inr (.inl rfl)
    · exact .inl ht.dictResets_eq
    · rcases exec_dictResets ht with e | e | ⟨hb, ⟨p, x, rfl⟩, hfull, e⟩
      · exact .inl e
      · exact .inr (.inl e)
      · exact .inr (.inr (.inr ⟨hfull, hb, ⟨v, p, x, rest, hin, hd⟩, fun h => e.trans (resetsAfter_below h _),
          e ▸ resetsAfter_le _ _⟩))
    · exact .inl (illegalCommand_dictResets (s := { s with inputs := rest }) ht)

end Sys2Proof.Machine

namespace Sys2Proof.Machine

/-! ### Register accesses (20_memory R53) -/

/-- The registers and their offsets (10_state R21). -/
def registerMap : List (Nat × RegName) :=
  [(0x00, .cmd), (0x04, .status), (0x08, .inLen), (0x0C, .inBits), (0x10, .outCap), (0x14, .outLen), (0x18, .outBits),
    (0x1C, .result), (0x20, .dictSize), (0x24, .codeWidth), (0x28, .nextWidth), (0x2C, .wcur), (0x30, .rcur),
    (0x34, .dictResets), (0x38, .codes), (0x3C, .lastProbes), (0x40, .fsm), (0x44, .ipos), (0x48, .ident), (0x4C, .pfx)]

theorem regAt_of_mem_registerMap : ∀ x ∈ registerMap, regAt x.1 = some x.2 := by decide

/-- Every register stands at a 4-aligned offset of the register block (10_state R21). -/
theorem regAt_aligned {off : Nat} {r : RegName} (h : regAt off = some r) : off < 0x50 ∧ off % 4 = 0 := by
  unfold regAt at h
  split at h <;> cases h <;> decide

section
variable {s : State} {off : Nat} {r : RegName} {v : Word}

theorem hostAccess_readReg (h : regAt off = some r) :
    hostAccess (.readWord (s.params.base + off)) s = .next { s with readData := readReg r s } := by
  obtain ⟨hlt, h4⟩ := regAt_aligned h
  rw [hostAccess_readWord (by omega)]
  simp only [readWordAt, regionOf_regs (show off < 0x1000 by omega), if_pos h4, h]

theorem hostAccess_writeReg (h : regAt off = some r) (v : Word) :
    hostAccess (.writeWord (s.params.base + off) v) s = writeReg r v s := by
  obtain ⟨hlt, h4⟩ := regAt_aligned h
  rw [hostAccess_writeWord (by omega)]
  simp only [writeWordAt, regionOf_regs (show off < 0x1000 by omega), if_pos h4, h]

/-- While BUSY = 1 a write to any register but CMD is ignored (46_control R152). -/
theorem writeReg_busy (hb : s.status.busy = true) (hr : r ≠ .cmd) : writeReg r v s = .next s := by
  rcases writeReg_cases r v s with ⟨hcmd, -⟩ | ⟨hfree, -⟩ | e
  · exact absurd hcmd hr
  · rw [hb] at hfree; cases hfree
  · exact e

/-- A write to a register that is neither CMD nor RW is ignored (20_memory R53). -/
theorem writeReg_readOnly (hr : r ∉ [RegName.cmd, .inLen, .inBits, .outCap]) : writeReg r v s = .next s := by
  rcases writeReg_cases r v s with ⟨rfl, -⟩ | ⟨-, ⟨rfl, -⟩ | ⟨rfl, -⟩ | ⟨rfl, -⟩⟩ | e
  · exact absurd (by decide) hr
  · exact absurd (by decide) hr
  · exact absurd (by decide) hr
  · exact absurd (by decide) hr
  · exact e

end

/-- Settles O56: the register map gives each offset its register, and a write is what `writeReg` makes of it. -/
theorem registerAccesses : Obligations.RegisterAccesses := by
  intro s
  refine ⟨fun x hx => ?_, fun x hx hf => ?_, fun v => hostAccess_cmd v s, fun v hb => ⟨?_, ?_, ?_⟩,
    fun v hb off hoff => ?_, fun v off hoff => ?_⟩
  · obtain ⟨y, hy, rfl⟩ : ∃ y ∈ registerMap, (y.1, readReg y.2 s) = x := List.mem_map.1 hx
    exact hostAccess_readReg (regAt_of_mem_registerMap y hy)
  · have hbits : ∀ x ∈ [(Fsm.idle, 0#32), (Fsm.encMatch, 1#32), (Fsm.encFlush, 2#32), (Fsm.decFirst, 3#32),
        (Fsm.decLoop, 4#32)], x.1.toBits.setWidth 32 = x.2 := by decide
    rw [hostAccess_readReg (r := .fsm) rfl, ← hbits x hx, ← hf]
    rfl
  · rw [hostAccess_writeReg (r := .inLen) rfl]; simp [writeReg, hb]
  · rw [hostAccess_writeReg (r := .inBits) rfl]; simp [writeReg, hb]
  · rw [hostAccess_writeReg (r := .outCap) rfl]; simp [writeReg, hb]
  · have hrw : ∀ off ∈ [0x08, 0x0C, 0x10], ∃ r ∈ regAt off, r ≠ .cmd := by decide
    obtain ⟨r, hr, hne⟩ := hrw off hoff
    rw [hostAccess_writeReg hr, writeReg_busy hb hne]
  · have hro : ∀ off ∈ [0x04, 0x14, 0x18, 0x1C, 0x20, 0x24, 0x28, 0x2C, 0x30, 0x34, 0x38, 0x3C, 0x40, 0x44, 0x48, 0x4C],
        ∃ r ∈ regAt off, r ∉ [RegName.cmd, .inLen, .inBits, .outCap] := by decide
    obtain ⟨r, hr, hne⟩ := hro off hoff
    rw [hostAccess_writeReg hr, writeReg_readOnly hne]

/-! ### Byte accesses to the buffers (20_memory R54) -/

/-- A host store changes the byte it names, below the capacity and while BUSY = 0, and no other. -/
theorem read_hostStore {m : Memory} (hm : m.wf) (busy : Bool) (cap a : Nat) (v : Byte) (b : Nat) :
    (hostStore busy m cap a v).read b = if b = a ∧ a < cap ∧ busy = false then v else m.read b := by
  unfold hostStore
  by_cases h : a < cap ∧ busy = false
  · rw [if_pos h, Memory.read_write hm]
    simp only [h, and_true]
  · rw [if_neg h, if_neg fun hb => h hb.2]

/-- Settles O58: the two windows name their byte by its index, and the store is `hostStore`. -/
theorem bufferByteAccesses : Obligations.BufferByteAccesses := by
  intro s a v ha
  have hi := regionOf_ibuf ha
  have ho := regionOf_obuf ha
  rw [Nat.add_assoc, Nat.add_assoc, hostAccess_readByte (by omega), hostAccess_readByte (by omega),
    hostAccess_writeByte (by omega), hostAccess_writeByte (by omega)]
  refine ⟨?_, ?_, fun hm => ⟨hostStore s.status.busy s.ibuf s.params.ibufCap a v, ?_, read_hostStore hm _ _ _ _⟩,
    fun hm => ⟨hostStore s.status.busy s.obuf s.params.obufCap a v, ?_, read_hostStore hm _ _ _ _⟩⟩
  · simp only [readByteAt, hi, hostByte]
  · simp only [readByteAt, ho, hostByte]
  · simp only [writeByteAt, hi]
  · simp only [writeByteAt, ho]

/-! ### Refused accesses (20_memory R55) -/

/-- The bytes from the start of IBUF's window to the end of OBUF's are buffer bytes (20_memory R51). -/
theorem regionOf_buffer {off : Nat} (h : 0x1000000 ≤ off ∧ off < 0x3000000) :
    ∃ a, regionOf off = .ibuf a ∨ regionOf off = .obuf a := by
  rcases Nat.lt_or_ge off 0x2000000 with hlt | hge
  · obtain ⟨a, rfl⟩ := Nat.exists_eq_add_of_le h.1
    exact ⟨a, .inl (regionOf_ibuf (by omega))⟩
  · obtain ⟨a, rfl⟩ := Nat.exists_eq_add_of_le hge
    exact ⟨a, .inr (regionOf_obuf (by omega))⟩

/-- A word that starts in the last three bytes of a reserved region does not lie in it whole (log 10). -/
theorem reservedWord_edge {off : Nat}
    (h : 0xFFFFFD ≤ off ∧ off < 0x1000000 ∨ 0x3FFFFFD ≤ off ∧ off < 0x4000000) : reservedWord off = false := by
  refine decide_eq_false fun ⟨_, hlast, hend⟩ => ?_
  rcases h with h | h
  · obtain ⟨a, hb | hb⟩ := regionOf_buffer (off := off + 3) (by omega) <;> rw [hb] at hlast <;> cases hlast
  · unfold Config.windowSize at hend; omega

/-- The word accesses that the window does not take: unaligned in the register block, in a buffer, or across the edge
of a reserved region (20_memory R55, log 10). -/
theorem wordAt_refused {off : Nat} (s : State) (v : Word)
    (h : off < 0x1000 ∧ off % 4 ≠ 0 ∨ 0x1000000 ≤ off ∧ off < 0x3000000 ∨
      regionOf off = .reserved ∧ reservedWord off = false) :
    readWordAt off s = .refused .unsupportedAccess ∧ writeWordAt off v s = .refused .unsupportedAccess := by
  unfold readWordAt writeWordAt
  rcases h with ⟨hlt, h4⟩ | h | ⟨hregion, hword⟩
  · simp only [regionOf_regs hlt, if_neg h4, and_self]
  · obtain ⟨a, hregion | hregion⟩ := regionOf_buffer h <;> simp only [hregion, and_self]
  · simp only [hregion, hword, Bool.false_eq_true, if_false, and_self]

/-- Settles O59, by the region of each access: the register block, a buffer, the edge of a reserved region, or none. -/
theorem unsupportedAccessesRefused : Obligations.UnsupportedAccessesRefused := by
  intro s
  refine ⟨fun off hlt v => ?_, fun off h v => ?_, fun off bits hlt _ _ v => ⟨inWindow_at hlt _, inWindow_at hlt _⟩,
    fun off h v => ?_, fun addr h => ?_⟩
  · rw [hostAccess_readByte (by omega), hostAccess_writeByte (by omega)]
    simp only [readByteAt, writeByteAt, regionOf_regs hlt, and_self]
  · rw [hostAccess_readWord (by omega), hostAccess_writeWord (by omega)]
    exact wordAt_refused s v (h.imp_right .inl)
  · rw [hostAccess_readWord (by omega), hostAccess_writeWord (by omega)]
    exact wordAt_refused s v (.inr (.inr ⟨regionOf_reserved (by omega), reservedWord_edge h⟩))
  · exact ⟨inWindow_outside h _, inWindow_outside h _, fun _ => inWindow_outside h _, fun _ => inWindow_outside h _,
      fun _ => inWindow_outside h _, fun _ _ => inWindow_outside h _⟩

/-! ### What an engine step leaves unchanged (20_memory R60) -/

section
variable {α : Type} {x : Flow α} {P : α → State → Prop} {Q : State → Prop}

/-- What is known of a rule that ran to its end, with the run itself. -/
theorem Flow.Ends.run (hx : x.Ends P Q) : x.Ends (fun a t => P a t ∧ x = .done a t) Q := by
  cases x with
  | done a t => exact ⟨hx, rfl⟩
  | raised e t => exact hx
  | stuck f => trivial

end

/-- WCUR and OBUF are as they were. -/
def OutputKept (s t : State) : Prop := t.wcur = s.wcur ∧ t.obuf = s.obuf

/-- WCUR moves forward within OUT_CAP, and OBUF changes only in the bytes from the old WCUR to the new one
(20_memory R60, 42_bitwriter R109). -/
structure OutputGrows (s t : State) : Prop where
  wcur_lt : s.wcur.toNat < t.wcur.toNat
  wcur_le : t.wcur.toNat ≤ 8 * s.outCap.toNat
  outside : ∀ a, a < s.wcur.toNat / 8 ∨ ceil8 t.wcur.toNat ≤ a → t.obuf.read a = s.obuf.read a

/-- Everything outside OBUF and WCUR that an engine step leaves unchanged (10_state R26, R29). -/
structure RegistersKept (s t : State) : Prop where
  params : t.params = s.params
  inLen : t.inLen = s.inLen
  inBits : t.inBits = s.inBits
  outCap : t.outCap = s.outCap
  result : t.result = s.result
  ibuf : t.ibuf = s.ibuf
  inputs : t.inputs = s.inputs
  readData : t.readData = s.readData
  freeCount : t.freeCount = s.freeCount
  encoder : s.fsm = .encMatch ∨ s.fsm = .encFlush → t.rcur = s.rcur ∧ t.prev = s.prev ∧ t.st = s.st
  decoder : s.fsm = .decFirst ∨ s.fsm = .decLoop → t.ipos = s.ipos ∧ t.pfx = s.pfx ∧ t.lastProbes = s.lastProbes ∧
    ∀ i, (slotAt t.ht i).occ = true → slotAt t.ht i = slotAt s.ht i

/-- The frame of an engine rule that runs to its end. -/
structure EngineDone (s t : State) : Prop where
  kept : RegistersKept s t
  err : t.status.err = s.status.err
  output : OutputKept s t ∨ OutputGrows s t

/-- The frame of an engine rule that raises an error. -/
structure EngineRaised (s t : State) : Prop where
  kept : RegistersKept s t
  output : OutputKept s t

theorem RegistersKept.refl (s : State) : RegistersKept s s :=
  ⟨rfl, rfl, rfl, rfl, rfl, rfl, rfl, rfl, rfl, fun _ => ⟨rfl, rfl, rfl⟩, fun _ => ⟨rfl, rfl, rfl, fun _ _ => rfl⟩⟩

theorem EngineRaised.refl (s : State) : EngineRaised s s := ⟨.refl s, rfl, rfl⟩

section
variable {s t : State}

theorem OutputKept.unchanged (h : OutputKept s t) (a : Nat) : t.obuf.read a = s.obuf.read a := by rw [h.2]

theorem OutputGrows.wcur_ne (h : OutputGrows s t) : t.wcur ≠ s.wcur := fun e => by
  have := h.wcur_lt
  rw [e] at this
  exact lt_irrefl _ this

theorem OutputGrows.unchanged (h : OutputGrows s t) {a : Nat}
    (ha : a < s.wcur.toNat / 8 ∨ ceil8 t.wcur.toNat ≤ a ∨ s.outCap.toNat ≤ a) : t.obuf.read a = s.obuf.read a := by
  have hle := h.wcur_le
  refine h.outside a ?_
  unfold ceil8 at ha ⊢
  omega

/-! ### The operations that write OBUF -/

/-- What keeps the writes of a pass inside OBUF and WCUR from wrapping (42_bitwriter R109, 45_decoder R137). -/
structure OutputRoom (s : State) : Prop where
  obuf_wf : s.obuf.wf
  params : s.params.Legal
  outCap_le : s.outCap.toNat ≤ s.params.obufCap

theorem Inv.room (h : Inv s) (hf : s.fsm ≠ .idle) : OutputRoom s where
  obuf_wf := h.tables.obuf_wf
  params := h.params
  outCap_le := by
    cases hfsm : s.fsm with
    | idle => exact absurd hfsm hf
    | encMatch => exact (h.enc (.inl hfsm)).outCap_le
    | encFlush => exact (h.enc (.inr hfsm)).outCap_le
    | decFirst => exact (h.dec (.inl hfsm)).outCap_le
    | decLoop => exact (h.dec (.inr hfsm)).outCap_le

/-- A code is written with at least 8 bits (10_state R48). -/
theorem DictOk.width_pos (h : DictOk s) : 0 < s.codeWidth.toNat := lt_of_lt_of_le (by decide) h.width_ge

theorem bwWrite_grows {code : Code} {w : Nat} (h : bwWrite code w s = .done () t) (hw : 0 < w) (hs : OutputRoom s) :
    OutputGrows s t := by
  obtain ⟨hwf, ⟨-, -, -, -, hobuf⟩, hcap⟩ := hs
  rcases bwWrite_cases code w s with ⟨e, -⟩ | ⟨hroom, e⟩ <;> rw [e] at h
  · cases h
  · have hend : s.wcur.toNat + w ≤ 8 * s.outCap.toNat := by unfold ceil8 at hroom; omega
    obtain ⟨m, hm, -, hother, -, -⟩ := bwPutBits_run (code := code) (n := w) hwf (by omega) (by omega)
    obtain ⟨-, rfl⟩ := Flow.done.inj (hm.symm.trans h)
    have hc : (s.wcur + BitVec.ofNat 32 w).toNat = s.wcur.toNat + w := by
      rw [BitVec.toNat_add, BitVec.toNat_ofNat]; omega
    refine ⟨by simp only [hc]; omega, by simp only [hc]; omega, fun a ha => hother a fun q hlo hhi => ?_⟩
    simp only [hc, ceil8] at ha
    omega

/-- `bwFinish` writes no byte but the one WCUR stands in (42_bitwriter R110). -/
theorem bwFinish_outside {n : Word} (h : bwFinish s = .done n t) (hwf : s.obuf.wf)
    (hcap : s.wcur.toNat ≤ 8 * s.params.obufCap) {a : Nat}
    (ha : a < s.wcur.toNat / 8 ∨ ceil8 s.wcur.toNat ≤ a) : t.obuf.read a = s.obuf.read a := by
  by_cases hwhole : s.wcur.toNat % 8 = 0
  · obtain ⟨-, rfl⟩ := Flow.done.inj ((bwFinish_whole hwhole).symm.trans h)
    rfl
  · obtain ⟨m, hm, -, hother, -⟩ := bwFinish_partial hwf hwhole (by omega)
    obtain ⟨-, rfl⟩ := Flow.done.inj (hm.symm.trans h)
    exact hother a (by unfold ceil8 at ha; omega)

theorem decEmit_grows {q : ByteSeq} (h : decEmit q s = .done () t) (hbyte : s.wcur.toNat % 8 = 0)
    (hs : OutputRoom s) : OutputGrows s t := by
  obtain ⟨hwf, ⟨-, -, -, -, hobuf⟩, hcap⟩ := hs
  have hlen : q.toList.length = q.tail.length + 1 := q.length_toList
  rcases decEmit_cases q s with ⟨e, -⟩ | ⟨hroom, e⟩ <;> rw [e] at h
  · cases h
  · rw [← q.length_toList] at hroom
    obtain ⟨m, hm, -, -, hread⟩ := decPutBytes_run (l := q.toList) hwf (by omega) (by omega)
    obtain ⟨-, rfl⟩ := Flow.done.inj (hm.symm.trans h)
    have hc : (s.wcur + BitVec.ofNat 32 (8 * q.toList.length)).toNat = s.wcur.toNat + 8 * q.toList.length := by
      rw [BitVec.toNat_add, BitVec.toNat_ofNat]; omega
    refine ⟨by simp only [hc]; omega, by simp only [hc]; omega, fun a ha => ?_⟩
    simp only [hc, ceil8] at ha
    rw [hread a]
    split
    · exact List.getD_eq_default _ _ (by omega)
    · rfl

/-! ### The reset of a full dictionary during a pass -/

/-- During a pass DICT_RESETS is below the bound of 10_state R49, so no free value is taken (log 17). -/
theorem Inv.resets_below (h : Inv s) (hf : s.fsm ≠ .idle) : s.dictResets.toNat < Config.counterBound := by
  obtain ⟨-, -, hibuf, -, -⟩ := h.params
  have hcodes := h.cursors.codes_le
  have hr := h.resets hf
  unfold Config.counterBound
  omega

theorem dictAdd_freeCount {p c : Code} {e : Byte} (h : dictAdd p e s = .done c t)
    (hr : s.dictResets.toNat < Config.counterBound) : t.freeCount = s.freeCount :=
  (dictAdd_dictResets h).2.trans (resetIfFull_below hr).2

/-- The reset of a full dictionary empties the slots and keeps all else that an engine step keeps (40_dictionary R85,
R88). -/
theorem resetIfFull_kept (hr : s.dictResets.toNat < Config.counterBound) : EngineRaised s (resetIfFull s) := by
  rcases resetIfFull_cases s with ⟨e, -⟩ | ⟨e, -⟩ <;> rw [e]
  · exact ⟨{ RegistersKept.refl s with
      freeCount := if_pos hr
      decoder := fun _ => ⟨rfl, rfl, rfl, fun i ho => absurd ho (by simp [clearOcc_occ])⟩ }, rfl, rfl⟩
  · exact .refl s

/-! ### The rules -/

/-- The miss branch of ENC_MATCH (44_encoder R123). -/
theorem encMiss_frame (hs : OutputRoom s) (hf : s.fsm = .encMatch) (hw : 0 < s.codeWidth.toNat)
    (hr : s.dictResets.toNat < Config.counterBound) (e : Byte) :
    (encMiss e s).Ends (fun _ => EngineDone s) (EngineRaised s) := by
  unfold encMiss
  refine (bwWrite_ends _ _ (.refl s)).run.bind ?_
  rintro _ _ ⟨⟨m, c, rfl, -⟩, hwrite⟩
  have hgrows := bwWrite_grows hwrite hw hs
  refine (dictAdd_ends _ _).run.bind ?_
  rintro _ _ ⟨⟨⟨ht, k, d, w, z, f, rfl⟩, -⟩, hadd⟩
  have hfree := dictAdd_freeCount hadd hr
  exact ⟨{ RegistersKept.refl s with freeCount := hfree, decoder := fun hd => absurd hd (by simp [hf]) }, rfl,
    .inr { hgrows with }⟩

theorem encMatchRule_frame (h : Inv s) (hf : s.fsm = .encMatch) :
    (encMatchRule s).Ends (fun _ => EngineDone s) (EngineRaised s) := by
  have hdec : ¬(s.fsm = .decFirst ∨ s.fsm = .decLoop) := by simp [hf]
  have hactive : s.fsm ≠ .idle := by simp [hf]
  unfold encMatchRule
  split
  · refine ibufRead_bind_ends ((dictFind_ends _ _).bind ?_)
    rintro r _ ⟨n, rfl, -, -⟩
    refine Flow.Ends.bind (P := fun _ v => EngineDone s { v with ipos := v.ipos + 1#32 }) ?_ fun _ _ hv => hv
    split
    · exact ⟨{ RegistersKept.refl s with decoder := fun hd => absurd hd hdec }, rfl, .inl ⟨rfl, rfl⟩⟩
    · refine (encMiss_frame (s := { s with lastProbes := n }) { h.room hactive with } hf h.dict.width_pos
        (h.resets_below hactive) _).imp (fun _ v hv => ?_) fun v hv => ?_
      · exact ⟨{ hv.kept with decoder := fun hd => absurd hd hdec }, hv.err, hv.output.imp id fun hg => { hg with }⟩
      · exact ⟨{ hv.kept with decoder := fun hd => absurd hd hdec }, hv.output⟩
  · exact ⟨{ RegistersKept.refl s with }, rfl, .inl ⟨rfl, rfl⟩⟩

theorem encFlushRule_frame (h : Inv s) (hf : s.fsm = .encFlush) :
    (encFlushRule s).Ends (fun _ => EngineDone s) (EngineRaised s) := by
  have hroom := h.room (by simp [hf])
  unfold encFlushRule
  refine (bwWrite_ends _ _ (.refl s)).run.bind ?_
  rintro _ _ ⟨⟨m, c, rfl, hblock⟩, hwrite⟩
  have hgrows := bwWrite_grows hwrite h.dict.width_pos hroom
  obtain ⟨hwritten, -, -⟩ := hblock h.block hroom.outCap_le
  refine bwFinish_ends.run.bind ?_
  rintro n _ ⟨⟨m', rfl, -⟩, hfinish⟩
  refine ⟨{ RegistersKept.refl s with }, rfl, .inr { hgrows with outside := fun a ha => ?_ }⟩
  have hlater : a < c.toNat / 8 ∨ ceil8 c.toNat ≤ a :=
    ha.imp_left fun h => lt_of_lt_of_le h (Nat.div_le_div_right hgrows.wcur_lt.le)
  exact (bwFinish_outside hfinish hwritten.obuf_wf hwritten.wcur_le hlater).trans (hgrows.outside a ha)

theorem decFirstRule_frame (h : Inv s) (hf : s.fsm = .decFirst) :
    (decFirstRule s).Ends (fun _ => EngineDone s) (EngineRaised s) := by
  have henc : ¬(s.fsm = .encMatch ∨ s.fsm = .encFlush) := by simp [hf]
  unfold decFirstRule
  refine (brRead_ends _ (.refl s)).bind ?_
  rintro c _ ⟨r, rfl, -⟩
  have hkept : RegistersKept s { s with rcur := r } :=
    { RegistersKept.refl s with encoder := fun he => absurd he henc }
  refine (decEmit_ends _ ⟨{ hkept with }, rfl, rfl⟩).run.bind ?_
  rintro _ _ ⟨⟨m, k, rfl, -⟩, hemit⟩
  have hgrows := decEmit_grows hemit (h.dec (.inl hf)).wcur_bytes { h.room (by simp [hf]) with }
  exact ⟨{ hkept with encoder := fun he => absurd he henc }, rfl, .inr { hgrows with }⟩

/-- DEC_LOOP after its code is read and counted (45_decoder R141). -/
theorem decCode_frame (hs : OutputRoom s) (hf : s.fsm = .decLoop) (hbyte : s.wcur.toNat % 8 = 0)
    (hr : s.dictResets.toNat < Config.counterBound) (c : Code) :
    (decCode c s).Ends (fun _ => EngineDone s) (EngineRaised s) := by
  have hfull := resetIfFull_kept hr
  obtain ⟨ht, k, w, d, f, e⟩ := resetIfFull_eq s
  unfold decCode
  rw [e] at hfull ⊢
  refine (decLookup_ends c hfull).bind ?_
  rintro q _ ⟨rfl, -⟩
  split
  · exact ⟨by decide, hfull⟩
  · refine (decEmit_ends q hfull).run.bind ?_
    rintro _ _ ⟨⟨m, z, rfl, -⟩, hemit⟩
    have hgrows := decEmit_grows hemit hbyte { hs with }
    obtain ⟨w', hadd⟩ := decAdd_eq (s.prev.snoc q.head)
      { s with ht := ht, dictSize := k, codeWidth := w, dictResets := d, freeCount := f, obuf := m, wcur := z }
    simp only [hadd]
    exact ⟨{ hfull.kept with encoder := fun he => absurd he (by simp [hf]) }, rfl, .inr { hgrows with }⟩

theorem decLoopRule_frame (h : Inv s) (hf : s.fsm = .decLoop) :
    (decLoopRule s).Ends (fun _ => EngineDone s) (EngineRaised s) := by
  have henc : ¬(s.fsm = .encMatch ∨ s.fsm = .encFlush) := by simp [hf]
  have hactive : s.fsm ≠ .idle := by simp [hf]
  unfold decLoopRule
  split
  · exact ⟨{ RegistersKept.refl s with }, rfl, .inl ⟨rfl, rfl⟩⟩
  · refine (brRead_ends _ (.refl s)).bind ?_
    rintro c _ ⟨r, rfl, -⟩
    refine (decCode_frame (s := { s with rcur := r, codes := s.codes + 1#32 }) { h.room hactive with } hf
      (h.dec (.inr hf)).wcur_bytes (h.resets_below hactive) c).imp (fun _ v hv => ?_) fun v hv => ?_
    · exact ⟨{ hv.kept with encoder := fun he => absurd he henc }, hv.err, hv.output.imp id fun hg => { hg with }⟩
    · exact ⟨{ hv.kept with encoder := fun he => absurd he henc }, hv.output⟩

theorem engineRule_frame (h : Inv s) :
    (engineRule s.fsm s).Ends (fun _ => EngineDone s) (EngineRaised s) := by
  cases hf : s.fsm with
  | idle => trivial
  | encMatch => exact encMatchRule_frame h hf
  | encFlush => exact encFlushRule_frame h hf
  | decFirst => exact decFirstRule_frame h hf
  | decLoop => exact decLoopRule_frame h hf

/-! ### The steps that write no output -/

theorem encMatchRule_end (h : s.ipos = s.inLen) : encMatchRule s = .done () { s with fsm := .encFlush } :=
  if_neg (by rw [h]; exact lt_irrefl _)

theorem encMatchRule_hit {r : Code} {v : State} (hlt : s.ipos.toNat < s.inLen.toNat)
    (hcap : s.ipos.toNat < s.params.ibufCap)
    (hfind : dictFind s.pfx (s.ibuf.read s.ipos.toNat) s = .done r v) (hr : r ≠ Config.notFound) :
    encMatchRule s = .done () { v with pfx := r, ipos := v.ipos + 1#32 } := by
  simp only [encMatchRule, if_pos hlt, ibufRead, if_pos hcap, Flow.bind_done, hfind, if_pos hr]

theorem decLoopRule_end (h : s.rcur = s.inBits) : decLoopRule s
    = .done () (complete { s with outLen := BitVec.ofNat 32 (s.wcur.toNat / 8), outBits := s.wcur }) := if_pos h

theorem dictFind_output {p r : Code} {e : Byte} (h : dictFind p e s = .done r t) : OutputKept s t := by
  have hend := dictFind_ends (s := s) (Q := fun _ => True) p e
  rw [h] at hend
  obtain ⟨n, rfl, -, -⟩ := hend
  exact ⟨rfl, rfl⟩

theorem engineTurn_encMatch (hb : s.status.busy = true) (hf : s.fsm = .encMatch) :
    engineTurn s = runStep encMatchRule s := by rw [engineTurn_eq hb, hf]; rfl

theorem engineTurn_decLoop (hb : s.status.busy = true) (hf : s.fsm = .decLoop) :
    engineTurn s = runStep decLoopRule s := by rw [engineTurn_eq hb, hf]; rfl

theorem runStep_done {rule : State → Flow Unit} (h : rule s = .done () t) : runStep rule s = .next t := by
  simp only [runStep, h]

end

/-- Settles O54: the frame of each rule of the engine, and the three steps that write nothing, each by what it does. -/
theorem engineFrame : Obligations.EngineFrame := by
  intro s t h hb ht
  have hlegal : s.status.err = false := (h.status.1 hb).2
  have hframe : RegistersKept s t ∧ (OutputKept s t ∨ t.status.err = false ∧ OutputGrows s t) := by
    have hrun := (engineTurn_eq hb).symm.trans ht
    rcases runStep_ends hrun (engineRule_frame h) with ⟨hkept, herr, hout⟩ | ⟨e, u, -, ⟨hkept, hout⟩, rfl⟩
    · exact ⟨hkept, hout.imp_right fun hg => ⟨herr.trans hlegal, hg⟩⟩
    · exact ⟨{ hkept with }, .inl hout⟩
  obtain ⟨⟨hparams, hinLen, hinBits, houtCap, hresult, hibuf, hinputs, hread, hfree, henc, hdec⟩, hout⟩ := hframe
  refine ⟨hparams, hinLen, hinBits, houtCap, hresult, hibuf, hinputs, hread, hfree, fun a ha => ?_, fun e => ?_, ?_,
    henc, hdec⟩
  · rcases hout with hk | ⟨-, hg⟩
    · exact hk.unchanged a
    · exact hg.unchanged ha
  · rcases hout with hk | ⟨-, hg⟩
    · exact hk.2
    · exact absurd e hg.wcur_ne
  · rintro (⟨hf, hend⟩ | ⟨hf, hne, r, v, hfind, hr⟩ | ⟨hf, hend⟩ | herr)
    · rw [engineTurn_encMatch hb hf, runStep_done (encMatchRule_end hend)] at ht
      cases ht
      exact ⟨rfl, rfl⟩
    · have he := h.enc (.inl hf)
      have hlt : s.ipos.toNat < s.inLen.toNat := lt_of_le_of_ne he.ipos_le fun e => hne (BitVec.eq_of_toNat_eq e)
      rw [engineTurn_encMatch hb hf,
        runStep_done (encMatchRule_hit hlt (lt_of_lt_of_le hlt he.inLen_le) hfind hr)] at ht
      cases ht
      obtain ⟨hwcur, hobuf⟩ := dictFind_output hfind
      exact ⟨hwcur, hobuf⟩
    · rw [engineTurn_decLoop hb hf, runStep_done (decLoopRule_end hend)] at ht
      cases ht
      exact ⟨rfl, rfl⟩
    · rcases hout with hk | ⟨hno, -⟩
      · exact hk
      · rw [hno] at herr; cases herr

end Sys2Proof.Machine

namespace Sys2Proof.Machine

/-! ### The fields of a word (30_encoding R68 to R70) -/

/-- A word is its opcode, then bits 27:0 (format N). -/
theorem fields_formatN (v : Word) : opOf v ++ v.extractLsb' 0 28 = v :=
  BitVec.extractLsb'_append_extractLsb'

/-- A word is its opcode, bits 27:24, PREFIX and EXT (format K). -/
theorem fields_formatK (v : Word) : opOf v ++ v.extractLsb' 24 4 ++ prefixOf v ++ extOf v = v := by
  unfold opOf prefixOf extOf
  rw [BitVec.extractLsb'_append_extractLsb'_eq_extractLsb' (show 28 = 24 + 4 from rfl),
    BitVec.extractLsb'_append_extractLsb'_eq_extractLsb' (show 24 = 8 + 16 from rfl)]
  exact BitVec.extractLsb'_append_extractLsb'

/-- A word is its opcode, bits 27:21, W and CODE (formats W and R). -/
theorem fields_formatWR (v : Word) : opOf v ++ v.extractLsb' 21 7 ++ widthOf v ++ codeOf v = v := by
  unfold opOf widthOf codeOf
  rw [BitVec.extractLsb'_append_extractLsb'_eq_extractLsb' (show 28 = 21 + 7 from rfl),
    BitVec.extractLsb'_append_extractLsb'_eq_extractLsb' (show 21 = 16 + 5 from rfl)]
  exact BitVec.extractLsb'_append_extractLsb'

/-- A field on which the mask is all ones is fixed by the masked word. -/
theorem extract_of_and_eq {v m x : Word} {start len : Nat} (h : v &&& m = x)
    (hm : m.extractLsb' start len = BitVec.allOnes len) : v.extractLsb' start len = x.extractLsb' start len := by
  rw [← h, BitVec.extractLsb'_and, hm, BitVec.and_allOnes]

/-- The mask of the opcode keeps the opcode alone. -/
theorem and_opMask (v : Word) : v &&& 0xF0000000#32 = encodeN (opOf v) := by
  conv_lhs => rw [← fields_formatN v, show 0xF0000000#32 = BitVec.allOnes 4 ++ 0#28 from rfl, BitVec.and_append,
    BitVec.and_allOnes, BitVec.and_zero]
  rfl

/-! ### The decoder and the encoder invert each other (30_encoding R69 to R72) -/

section
variable {v : Word} {op : BitVec 4} {i j : Instr}

/-- What format N accepts is the one word of its command. -/
theorem decodeN_inverts (hop : (opOf v).toNat = op.toNat) (hi : i.wellFormed = true ∧ encode i = encodeN op)
    (h : decodeN v i = .ok j) : j.wellFormed = true ∧ encode j = v := by
  obtain rfl := BitVec.eq_of_toNat_eq hop
  unfold decodeN at h
  split at h
  case isTrue hres =>
    cases h
    refine ⟨hi.1, hi.2.trans ?_⟩
    conv_rhs => rw [← fields_formatN v, hres]
    rfl
  case isFalse => cases h

/-- What format K accepts is the one word of its command. -/
theorem decodeK_inverts {k : Code → Byte → Instr} (hop : (opOf v).toNat = op.toNat)
    (hk : ∀ p e, (k p e).wellFormed = true ∧ encode (k p e) = encodeK op p e)
    (h : decodeK v k = .ok j) : j.wellFormed = true ∧ encode j = v := by
  obtain rfl := BitVec.eq_of_toNat_eq hop
  unfold decodeK at h
  split at h
  case isTrue hres =>
    cases h
    refine ⟨(hk _ _).1, (hk _ _).2.trans ?_⟩
    conv_rhs => rw [← fields_formatK v, hres]
    rfl
  case isFalse => cases h

/-- What format W accepts is the one word of its command. -/
theorem decodeW_inverts (hop : (opOf v).toNat = (0x7#4).toNat) (h : decodeW v = .ok j) :
    j.wellFormed = true ∧ encode j = v := by
  have hop := BitVec.eq_of_toNat_eq hop
  unfold decodeW at h
  split_ifs at h with hres hw
  cases h
  refine ⟨decide_eq_true hw, ?_⟩
  conv_rhs => rw [← fields_formatWR v, hop, hres]
  rfl

/-- What format R accepts is the one word of its command. -/
theorem decodeR_inverts (hop : (opOf v).toNat = (0xA#4).toNat) (h : decodeR v = .ok j) :
    j.wellFormed = true ∧ encode j = v := by
  have hop := BitVec.eq_of_toNat_eq hop
  unfold decodeR at h
  split_ifs at h with hres hw
  obtain ⟨hhigh, hlow⟩ := hres
  cases h
  refine ⟨decide_eq_true hw, ?_⟩
  conv_rhs => rw [← fields_formatWR v, hop, hhigh, show codeOf v = 0#16 from hlow]
  rfl

end

section
variable {v : Word}

theorem decode_dictFind (hop : opOf v = 0x4#4) (hres : v.extractLsb' 24 4 = 0#4) :
    decode v = .ok (.dictFind (prefixOf v) (extOf v)) := by simp [decode, decodeK, hop, hres]

theorem decode_dictAdd (hop : opOf v = 0x5#4) (hres : v.extractLsb' 24 4 = 0#4) :
    decode v = .ok (.dictAdd (prefixOf v) (extOf v)) := by simp [decode, decodeK, hop, hres]

theorem decode_bwWrite (hop : opOf v = 0x7#4) (hres : v.extractLsb' 21 7 = 0#7) (hw : (widthOf v).toNat ≤ 16) :
    decode v = .ok (.bwWrite (codeOf v) (widthOf v)) := by simp [decode, decodeW, hop, hres, hw]

theorem decode_brRead (hop : opOf v = 0xA#4) (hhigh : v.extractLsb' 21 7 = 0#7) (hlow : codeOf v = 0#16)
    (hw : (widthOf v).toNat ≤ 16) : decode v = .ok (.brRead (widthOf v)) := by
  unfold codeOf at hlow
  simp [decode, decodeR, hop, hhigh, hlow, hw]

end

/-- Settles O1, by the fields of the words of the four formats. -/
theorem decodeInvertsEncode : Obligations.DecodeInvertsEncode := by
  intro i hi
  cases i with
  | dictFind p e => simp [encode, decode_dictFind]
  | dictAdd p e => simp [encode, decode_dictAdd]
  | bwWrite c w =>
    obtain ⟨hop, hres, hw, hc⟩ := fields_formatW 0x7#4 w c
    refine (decode_bwWrite hop hres ?_).trans (by rw [hw, hc])
    exact hw.symm ▸ of_decide_eq_true hi
  | brRead w =>
    obtain ⟨hop, hres, hw, hc⟩ := fields_formatW 0xA#4 w 0#16
    refine (decode_brRead hop hres hc ?_).trans (by rw [hw])
    exact hw.symm ▸ of_decide_eq_true hi
  | nop | compress | decompress | dictReset | bwClear | bwFinish | brInit | softReset => rfl

/-- Settles O2, by the format that the opcode selects. -/
theorem encodeInvertsDecode : Obligations.EncodeInvertsDecode := by
  intro v i h
  unfold decode at h
  split at h
  case h_1 hop => exact decodeN_inverts (op := 0x0#4) hop ⟨rfl, rfl⟩ h
  case h_2 hop => exact decodeN_inverts (op := 0x1#4) hop ⟨rfl, rfl⟩ h
  case h_3 hop => exact decodeN_inverts (op := 0x2#4) hop ⟨rfl, rfl⟩ h
  case h_4 hop => exact decodeN_inverts (op := 0x3#4) hop ⟨rfl, rfl⟩ h
  case h_5 hop => exact decodeK_inverts (op := 0x4#4) hop (fun _ _ => ⟨rfl, rfl⟩) h
  case h_6 hop => exact decodeK_inverts (op := 0x5#4) hop (fun _ _ => ⟨rfl, rfl⟩) h
  case h_7 hop => exact decodeN_inverts (op := 0x6#4) hop ⟨rfl, rfl⟩ h
  case h_8 hop => exact decodeW_inverts hop h
  case h_9 hop => exact decodeN_inverts (op := 0x8#4) hop ⟨rfl, rfl⟩ h
  case h_10 hop => exact decodeN_inverts (op := 0x9#4) hop ⟨rfl, rfl⟩ h
  case h_11 hop => exact decodeR_inverts hop h
  case h_12 hop => exact decodeN_inverts (op := 0xF#4) hop ⟨rfl, rfl⟩ h
  case h_13 => cases h

/-! ### The rows of the opcode map (30_encoding R71) -/

/-- The word `v` selects the row of `i`: `(v AND mask) = match` (30_encoding R71). -/
def SelectsRow (v : Word) (i : Instr) : Prop := v &&& tableMask i = tableMatch i

/-- The W condition of 30_encoding R71. -/
def WidthOk (v : Word) : Prop := opOf v = 0x7#4 ∨ opOf v = 0xA#4 → (widthOf v).toNat ≤ 16

/-- The word of a command selects the command's own row. -/
theorem encode_selectsRow (i : Instr) : SelectsRow (encode i) i := by
  cases i with
  | nop => exact Laws.TableRow.nop
  | compress => exact Laws.TableRow.compress
  | decompress => exact Laws.TableRow.decompress
  | dictReset => exact Laws.TableRow.dictReset
  | dictFind p e => exact Laws.TableRow.dictFind p e
  | dictAdd p e => exact Laws.TableRow.dictAdd p e
  | bwClear => exact Laws.TableRow.bwClear
  | bwWrite c w => exact Laws.TableRow.bwWrite c w
  | bwFinish => exact Laws.TableRow.bwFinish
  | brInit => exact Laws.TableRow.brInit
  | brRead w => exact Laws.TableRow.brRead w
  | softReset => exact Laws.TableRow.softReset

/-- The word of a well-formed command meets the W condition. -/
theorem encode_widthOk {i : Instr} (hi : i.wellFormed = true) : WidthOk (encode i) := by
  intro hop
  cases i with
  | dictFind p e => simp [encode] at hop
  | dictAdd p e => simp [encode] at hop
  | bwWrite c w =>
    obtain ⟨-, -, hw, -⟩ := fields_formatW 0x7#4 w c
    exact hw.symm ▸ of_decide_eq_true hi
  | brRead w =>
    obtain ⟨-, -, hw, -⟩ := fields_formatW 0xA#4 w 0#16
    exact hw.symm ▸ of_decide_eq_true hi
  | nop | compress | decompress | dictReset | bwClear | bwFinish | brInit | softReset => exact absurd hop (by decide)

/-- The match column of a row is its opcode, the other bits 0. -/
theorem tableMatch_eq (i : Instr) : tableMatch i = encodeN (opOf (tableMatch i)) := by
  cases i <;> simp only [tableMatch] <;> decide

/-- The mask column of a row is the opcode and the reserved bits of its format. -/
theorem tableMask_eq (i : Instr) : tableMask i = 0xF0000000#32 ||| reservedBits (opOf (tableMatch i)) := by
  cases i <;> simp only [tableMatch, tableMask] <;> decide

section
variable {v : Word} {i j : Instr}

theorem SelectsRow.opOf_eq (h : SelectsRow v i) : opOf v = opOf (tableMatch i) :=
  extract_of_and_eq h (by cases i <;> simp only [tableMask] <;> decide)

/-- A word selects a row exactly when it has the row's opcode and no reserved bit of its format is 1. -/
theorem selectsRow_iff :
    SelectsRow v i ↔ opOf v = opOf (tableMatch i) ∧ v &&& reservedBits (opOf v) = 0#32 := by
  constructor
  · intro h
    refine ⟨h.opOf_eq, ?_⟩
    rw [h.opOf_eq]
    calc v &&& reservedBits (opOf (tableMatch i))
        = v &&& (tableMask i &&& reservedBits (opOf (tableMatch i))) :=
          congrArg _ (by cases i <;> simp only [tableMatch, tableMask] <;> decide)
      _ = tableMatch i &&& reservedBits (opOf (tableMatch i)) := by rw [← BitVec.and_assoc, h]
      _ = 0#32 := by cases i <;> simp only [tableMatch] <;> decide
  · rintro ⟨hop, hres⟩
    unfold SelectsRow
    rw [tableMask_eq, ← hop, BitVec.and_or_distrib_left, hres, BitVec.or_zero, and_opMask, hop, ← tableMatch_eq]

/-- No word selects two rows. -/
theorem SelectsRow.unique (hi : SelectsRow v i) (hj : SelectsRow v j) :
    tableMatch i = tableMatch j ∧ tableMask i = tableMask j := by
  have hop : opOf (tableMatch i) = opOf (tableMatch j) := hi.opOf_eq.symm.trans hj.opOf_eq
  exact ⟨by rw [tableMatch_eq i, tableMatch_eq j, hop], by rw [tableMask_eq i, tableMask_eq j, hop]⟩

/-- A row whose mask is all ones is selected by its match alone. -/
theorem SelectsRow.eq_tableMatch (h : SelectsRow v i) (hm : tableMask i = BitVec.allOnes 32) : v = tableMatch i := by
  rw [← h, hm, BitVec.and_allOnes]

/-- A word that selects a row and meets the W condition decodes. -/
theorem SelectsRow.decodes (h : SelectsRow v i) (hw : WidthOk v) : ∃ j, decode v = .ok j := by
  unfold SelectsRow at h
  cases i with
  | nop | compress | decompress | dictReset | bwClear | bwFinish | brInit | softReset =>
    obtain rfl := SelectsRow.eq_tableMatch h rfl
    exact ⟨_, rfl⟩
  | dictFind p e =>
    simp only [tableMask, tableMatch] at h
    exact ⟨_, decode_dictFind (extract_of_and_eq h rfl) (extract_of_and_eq h rfl)⟩
  | dictAdd p e =>
    simp only [tableMask, tableMatch] at h
    exact ⟨_, decode_dictAdd (extract_of_and_eq h rfl) (extract_of_and_eq h rfl)⟩
  | bwWrite c w =>
    simp only [tableMask, tableMatch] at h
    have hop : opOf v = 0x7#4 := extract_of_and_eq h rfl
    exact ⟨_, decode_bwWrite hop (extract_of_and_eq h rfl) (hw (.inl hop))⟩
  | brRead w =>
    simp only [tableMask, tableMatch] at h
    have hop : opOf v = 0xA#4 := extract_of_and_eq h rfl
    exact ⟨_, decode_brRead hop (extract_of_and_eq h rfl) (extract_of_and_eq h rfl) (hw (.inr hop))⟩

theorem selectsRow_of_decode (h : decode v = .ok i) : SelectsRow v i := by
  obtain ⟨-, rfl⟩ := encodeInvertsDecode v i h
  exact encode_selectsRow i

/-- A word decodes exactly when it selects a row and meets the W condition. -/
theorem decodes_iff_selectsRow : (∃ i, decode v = .ok i) ↔ ∃ i, SelectsRow v i ∧ WidthOk v := by
  constructor
  · rintro ⟨i, h⟩
    obtain ⟨hwf, rfl⟩ := encodeInvertsDecode v i h
    exact ⟨i, encode_selectsRow i, encode_widthOk hwf⟩
  · rintro ⟨i, h, hw⟩
    exact h.decodes hw

end

/-- Settles O3: the row is the opcode and the reserved bits of its format. -/
theorem tableRowSelectsCommand : Obligations.TableRowSelectsCommand := fun _ =>
  ⟨fun _ => selectsRow_of_decode, fun _ _ => SelectsRow.unique, decodes_iff_selectsRow⟩

/-! ### Illegal words (30_encoding R73, 46_control R155) -/

/-- One command of each row of the opcode map. -/
def rowCommands : List Instr :=
  [.nop, .compress, .decompress, .dictReset, .dictFind 0#16 0#8, .dictAdd 0#16 0#8, .bwClear, .bwWrite 0#16 0#5,
    .bwFinish, .brInit, .brRead 0#5, .softReset]

/-- The opcodes that have a row are all but 0xB to 0xE. -/
theorem exists_row_iff (op : BitVec 4) :
    (∃ i, op = opOf (tableMatch i)) ↔ ¬ (0xB ≤ op.toNat ∧ op.toNat ≤ 0xE) := by
  constructor
  · rintro ⟨i, rfl⟩
    cases i <;> simp only [tableMatch] <;> decide
  · intro h
    have rows : ∀ o : BitVec 4, ¬ (0xB ≤ o.toNat ∧ o.toNat ≤ 0xE) → ∃ i ∈ rowCommands, o = opOf (tableMatch i) :=
      by decide
    obtain ⟨i, -, hi⟩ := rows op h
    exact ⟨i, hi⟩

/-- A word decodes exactly when its opcode is not reserved, no reserved bit of its format is 1, and it meets the W
condition. -/
theorem decodes_iff_fields {v : Word} :
    (∃ i, decode v = .ok i) ↔
      ¬ (0xB ≤ (opOf v).toNat ∧ (opOf v).toNat ≤ 0xE) ∧ v &&& reservedBits (opOf v) = 0#32 ∧ WidthOk v := by
  simp only [decodes_iff_selectsRow, selectsRow_iff, and_assoc, exists_and_right, exists_row_iff]

theorem decode_error_iff {v : Word} : (∃ e, decode v = .error e) ↔ ¬ ∃ i, decode v = .ok i := by
  cases decode v <;> simp

theorem widthOk_not_iff {v : Word} :
    ¬ WidthOk v ↔ (opOf v = 0x7#4 ∨ opOf v = 0xA#4) ∧ 17 ≤ (widthOf v).toNat := by
  simp only [WidthOk, Classical.not_imp, Nat.not_le, Nat.succ_le_iff]

/-- An illegal word issued to the idle block changes STATUS alone. -/
theorem illegalCommand_idle {s : State} (hb : s.status.busy = false) (hf : s.fsm = .idle) :
    illegalCommand s = .next { s with status := statusError .illegalCmd } := by
  calc illegalCommand s = .next (errorStop .illegalCmd (clearFlags s)) := runCommand_raised hb rfl
    _ = .next { s with status := statusError .illegalCmd, fsm := .idle } := rfl
    _ = .next { s with status := statusError .illegalCmd } := by rw [← hf]

/-- Settles O4: the illegal words are those that select no row or break the W condition, and their rule is the error
stop. -/
theorem illegalWordChangesOnlyStatus : Obligations.IllegalWordChangesOnlyStatus := by
  intro v
  refine ⟨?_, ?_, fun e s he => ⟨fun hb hf => ?_, fun hb => ?_, rfl⟩⟩
  · rw [decode_error_iff, decodes_iff_fields, not_and_or, not_not, not_and_or, widthOk_not_iff]
  · rw [decode_error_iff]
    exact Classical.em _
  · exact (issue_error he s).trans (illegalCommand_idle hb hf)
  · exact (issue_error he s).trans (runCommand_busy hb)

/-- Settles O5: the decoder run on the words of 30_encoding R78. -/
theorem encodedExamplesDecode : Obligations.EncodedExamplesDecode :=
  ⟨rfl, rfl, rfl, rfl, rfl, rfl, rfl, rfl, rfl, rfl, rfl, rfl, rfl, rfl, rfl, rfl, rfl⟩

end Sys2Proof.Machine

namespace Sys2Proof.Machine

/-! ### The probe sequence (40_dictionary R84) -/

section
variable {p : Code} {e : Byte} {i j : Nat}

/-- HASH_H2 is forced odd (40_dictionary R83). -/
theorem hashH2_odd (p : Code) (e : Byte) : Odd (hashH2 p e).toNat := by
  unfold hashH2
  rw [← Nat.not_even_iff_odd, Nat.even_iff, BitVec.toNat_or]
  simp

theorem probeIdx_toNat (p : Code) (e : Byte) (i : Nat) :
    (probeIdx p e i).toNat = ((hashH1 p e).toNat + i * (hashH2 p e).toNat) % 4096 := by
  simp [probeIdx, BitVec.toNat_add, BitVec.toNat_mul]

/-- An odd step meets no slot twice in 4096 steps (40_dictionary R84). -/
theorem probeIdx_inj (hi : i < 4096) (hj : j < 4096) (h : probeIdx p e i = probeIdx p e j) : i = j := by
  have hcoprime : Nat.gcd 4096 (hashH2 p e).toNat = 1 :=
    Nat.Coprime.pow_left 12 (Nat.coprime_two_left.2 (hashH2_odd p e))
  have hmod : (hashH1 p e).toNat + i * (hashH2 p e).toNat
      ≡ (hashH1 p e).toNat + j * (hashH2 p e).toNat [MOD 4096] := by
    have := congrArg BitVec.toNat h
    rwa [probeIdx_toNat, probeIdx_toNat] at this
  exact ((hmod.add_left_cancel' _).cancel_right_of_coprime hcoprime).eq_of_lt_of_lt hi hj

/-- 4096 distinct slots are all of them. -/
theorem exists_probeIdx_eq (p : Code) (e : Byte) (x : SlotIdx) : ∃ i < 4096, probeIdx p e i = x := by
  have hinj : Function.Injective fun i : Fin (2 ^ 12) => (probeIdx p e i).toFin := fun i j h =>
    Fin.ext (probeIdx_inj i.isLt j.isLt (BitVec.toFin_inj.1 h))
  obtain ⟨i, hi⟩ := Finite.surjective_of_injective hinj x.toFin
  exact ⟨i, i.isLt, BitVec.toFin_inj.1 hi⟩

end

/-- Settles O15: the step of the sequence is odd, and 4096 is a power of 2. -/
theorem probeSequenceVisitsEverySlot : Obligations.ProbeSequenceVisitsEverySlot := fun p e =>
  ⟨probeIdx_toNat p e, probeIdx_zero p e, probeIdx_succ p e,
    fun i => BitVec.eq_of_toNat_eq (by rw [probeIdx_toNat, probeIdx_toNat, Nat.add_mul]; omega),
    fun _ _ => probeIdx_inj, exists_probeIdx_eq p e⟩

/-! ### How many slots are occupied (40_dictionary R87, R89) -/

section
variable {p : Code} {e : Byte} {s : State} {n : Nat}

/-- The probes meet one occupied slot after another at most as often as there are occupied slots. -/
theorem probes_le_occCount {ht : List (Nat × Slot)} (hn : n ≤ 4096)
    (h : ∀ j < n, (slotAt ht (probeIdx p e j)).occ = true) : n ≤ occCount ht := by
  have hnodup : ((List.range n).map fun j => ((probeIdx p e j).toNat, slotAt ht (probeIdx p e j))).Nodup := by
    refine List.Nodup.map_on (fun i hi j hj heq => ?_) List.nodup_range
    rw [List.mem_range] at hi hj
    exact probeIdx_inj (by omega) (by omega) (BitVec.eq_of_toNat_eq (congrArg Prod.fst heq))
  have hsub : ((List.range n).map fun j => ((probeIdx p e j).toNat, slotAt ht (probeIdx p e j)))
      ⊆ ht.filter fun c => c.2.occ := by
    intro c hc
    obtain ⟨j, hj, rfl⟩ := List.mem_map.1 hc
    have hocc := h j (List.mem_range.1 hj)
    exact List.mem_filter.2 ⟨slotAt_mem hocc, hocc⟩
  simpa [occCount] using (List.subperm_of_subset hnodup hsub).length_le

theorem DictOk.occCount_le (h : DictOk s) : occCount s.ht ≤ 3840 := by
  have := h.occupied
  have := h.size_le
  omega

/-- Occupied slots one after another come to an end within 3840 probes (40_dictionary R87). -/
theorem DictOk.probes_le (h : DictOk s) (hn : n ≤ 4096) (hocc : ∀ j < n, (slotAt s.ht (probeIdx p e j)).occ = true) :
    n ≤ 3840 := (probes_le_occCount hn hocc).trans h.occCount_le

theorem DictOk.not_all_occupied (h : DictOk s) : ¬∀ j < 4096, (slotAt s.ht (probeIdx p e j)).occ = true := fun hocc =>
  absurd (h.probes_le le_rfl hocc) (by decide)

end

/-! ### The dictionary commands at issue (40_dictionary R92 to R94) -/

section
variable {s t : State} {p c : Code} {e : Byte}

/-- A command whose rule ran to its end and left STATUS alone is done (46_control R148). -/
theorem exec_done {i : Instr} (hb : s.status.busy = false) (h : commandRule i (clearFlags s) = .done () t)
    (ht : t.status = (clearFlags s).status) : exec i s = .next { t with status := statusDone } := by
  rw [exec_eq, runCommand_done hb h, if_neg (by simp [ht, hb])]
  simp [setDone, ht, hb, statusDone]

/-- DICT_FIND answers what dictFind answers (40_dictionary R93). -/
theorem exec_dictFind {k : BitVec 13} (hb : s.status.busy = false)
    (h : dictFind p e (clearFlags s) = .done c { clearFlags s with lastProbes := k }) :
    exec (.dictFind p e) s = .next { s with status := statusDone, result := c.setWidth 32, lastProbes := k } :=
  exec_done (t := { clearFlags s with lastProbes := k, result := c.setWidth 32 }) hb
    (by simp only [commandRule, h, Flow.bind_done]) rfl

/-- DICT_ADD answers what dictAdd answers (40_dictionary R94). -/
theorem exec_dictAdd (hb : s.status.busy = false) (h : dictAdd p e (clearFlags s) = .done c t)
    (ht : t.status = (clearFlags s).status) :
    exec (.dictAdd p e) s = .next { t with status := statusDone, result := c.setWidth 32 } :=
  exec_done (t := { t with result := c.setWidth 32 }) hb (by simp only [commandRule, h, Flow.bind_done]) ht

/-- DICT_FIND of a root key (40_dictionary R86). -/
theorem exec_dictFind_root (hb : s.status.busy = false) (e : Byte) :
    exec (.dictFind Config.invalid e) s = .next
      { s with status := statusDone, result := e.setWidth 32, lastProbes := 0#13 } := by
  rw [exec_dictFind hb (dictFind_root e _), BitVec.setWidth_setWidth (by decide)]

end

/-- Settles O16: dictReset is `clearOcc` and the two registers. -/
theorem dictResetClearsOccupancy : Obligations.DictResetClearsOccupancy :=
  ⟨rfl, fun s hb hw =>
    ⟨clearOcc s.ht, exec_done (t := dictReset (clearFlags s)) hb rfl rfl, fun i => slotAt_clearOcc s.ht i hw⟩⟩

/-- A field of a field is a field. -/
theorem extractLsb'_of_extractLsb' (v : Word) {start len start' len' : Nat} (h : start' + len' ≤ len) :
    (v.extractLsb' start len).extractLsb' start' len' = v.extractLsb' (start + start') len' := by
  refine BitVec.eq_of_getLsbD_eq fun i hi => ?_
  simp only [BitVec.getLsbD_extractLsb', hi, show start' + i < len by omega, decide_true, Bool.true_and, Nat.add_assoc]

/-- The upper byte of a word of format K is its opcode and four reserved bits (30_encoding R69). -/
theorem formatK_of_upperByte {v : Word} {b : BitVec 8} (h : v.extractLsb' 24 8 = b) :
    opOf v = b.extractLsb' 4 4 ∧ v.extractLsb' 24 4 = b.extractLsb' 0 4 := by
  subst h
  have hfield {k : Nat} (h : k + 4 ≤ 8) := (extractLsb'_of_extractLsb' v (start := 24) h).symm
  exact ⟨hfield (k := 4) (by decide), hfield (k := 0) (by decide)⟩

section
variable {p : Code} {e : Byte} {x : Slot}

theorem keyMatches_iff : keyMatches x p e = true ↔ x.pfx = p ∧ x.ext = e := by simp [keyMatches]

theorem keyMatches_eq_false_iff : keyMatches x p e = false ↔ ¬(x.pfx = p ∧ x.ext = e) := by
  rw [← keyMatches_iff, Bool.not_eq_true]

end

/-- Settles O17, by where the probes end. -/
theorem dictFindAnswersWhereProbesEnd : Obligations.DictFindAnswersWhereProbesEnd := by
  refine ⟨fun v hv => ?_, fun s p e hb => ⟨?_, fun hp n hn hj => ⟨fun hfree => ?_, fun hocc hpfx hext => ?_⟩⟩⟩
  · obtain ⟨hop, hres⟩ := formatK_of_upperByte hv
    exact decode_dictFind hop hres
  · rintro rfl
    exact exec_dictFind_root hb e
  all_goals
    have hbefore : ∀ j < n, (slotAt s.ht (probeIdx p e j)).occ = true ∧
        keyMatches (slotAt s.ht (probeIdx p e j)) p e = false := fun j hlt =>
      (hj j hlt).imp_right keyMatches_eq_false_iff.2
  · exact exec_dictFind hb (dictFind_at (s := clearFlags s) hp hn hbefore (.inl ⟨hfree, rfl⟩))
  · have hm := keyMatches_iff.2 ⟨hpfx, hext⟩
    exact exec_dictFind hb (dictFind_at (s := clearFlags s) hp hn hbefore (.inr ⟨hocc, hm, rfl⟩))

/-- dictFind always runs to its end, after at most 3841 probes (40_dictionary R87). -/
theorem DictOk.dictFind_done {s : State} (h : DictOk s) (p : Code) (e : Byte) :
    ∃ (c : Code) (k : BitVec 13), k.toNat ≤ 3841 ∧ dictFind p e s = .done c { s with lastProbes := k } := by
  by_cases hp : p = Config.invalid
  · subst hp
    exact ⟨_, _, by decide, dictFind_root e s⟩
  · rcases dictFind_cases hp e s with ⟨c, n, hn, hj, -, hfind⟩ | ⟨-, hocc⟩
    · have hprobes := h.probes_le hn.le fun j hlt => (hj j hlt).1
      exact ⟨c, _, by rw [BitVec.toNat_ofNat]; omega, hfind⟩
    · exact absurd hocc h.not_all_occupied

/-- Settles O18: the probes that examine occupied slots are at most 3840. -/
theorem dictFindReturnsWithin3841Probes : Obligations.DictFindReturnsWithin3841Probes := by
  intro s p e h hb
  refine ⟨h.occCount_le, ?_, ?_⟩
  · by_contra hnone
    have hocc : ∀ j < 3841, (slotAt s.ht (probeIdx p e j)).occ = true := fun j hj => by
      by_contra hfree
      exact hnone ⟨j, hj, by simpa using hfree⟩
    exact absurd (h.probes_le (by decide) hocc) (by decide)
  · obtain ⟨c, k, hk, hfind⟩ := DictOk.dictFind_done (s := clearFlags s) { h with } p e
    exact ⟨c, k, hk, exec_dictFind hb hfind⟩

/-! ### DICT_ADD (40_dictionary R88, R89) -/

section
variable {p : Code} {e : Byte} {s : State} {n : Nat}

/-- dictAdd below capacity, given the first unoccupied slot of the probe sequence. -/
theorem dictAdd_at (hsize : s.dictSize.toNat ≠ 4096) (hn : n < 4096)
    (hj : ∀ j < n, (slotAt s.ht (probeIdx p e j)).occ = true) (he : (slotAt s.ht (probeIdx p e n)).occ = false) :
    dictAdd p e s = .done (s.dictSize.setWidth 16)
      { s with
        ht := setSlot s.ht (probeIdx p e n) { occ := true, pfx := p, ext := e, code := s.dictSize.setWidth 16 }
        lastProbes := BitVec.ofNat 13 (n + 1)
        dictSize := s.dictSize + 1#13
        codeWidth :=
          if 2 ^ s.codeWidth.toNat ≤ s.dictSize.toNat ∧ s.codeWidth.toNat < 12 then s.codeWidth + 1#4
          else s.codeWidth } := by
  have hroom : resetIfFull s = s := if_neg hsize
  have hcws : cwsOnAdd s = { s with
      codeWidth := if 2 ^ s.codeWidth.toNat ≤ s.dictSize.toNat ∧ s.codeWidth.toNat < 12 then s.codeWidth + 1#4
        else s.codeWidth } := by
    unfold cwsOnAdd Config.maxWidth
    split <;> rfl
  rw [dictAdd, hroom, hcws]
  exact dictInsert_at (s := { s with codeWidth := _ }) hn hj he

/-- dictAdd at capacity: the table is reset first, so the first probe ends it. -/
theorem dictAdd_full (hsize : s.dictSize.toNat = 4096) :
    dictAdd p e s = .done 256#16
      { s with
        ht := setSlot (clearOcc s.ht) (hashH1 p e) { occ := true, pfx := p, ext := e, code := 256#16 }
        lastProbes := 1#13
        dictSize := 257#13
        codeWidth := 9#4
        dictResets := resetsAfter s.dictResets s.freeCount
        freeCount := freeCountAfter s.dictResets s.freeCount } := by
  have hfull : resetIfFull s = countReset (dictReset s) := if_pos hsize
  have hfree : (slotAt (clearOcc s.ht) (probeIdx p e 0)).occ = false := clearOcc_occ _ _
  rw [dictAdd, hfull, ← probeIdx_zero]
  exact dictInsert_at (s := cwsOnAdd (countReset (dictReset s))) (by decide) (by simp) hfree

end

/-- Settles O19, below capacity and at it. -/
theorem dictAddStoresKeyUnderNextCode : Obligations.DictAddStoresKeyUnderNextCode := by
  refine ⟨fun v hv => ?_, fun s p e hb hw => ⟨fun hsize n hn hj hfree => ?_, fun hsize => ?_⟩⟩
  · obtain ⟨hop, hres⟩ := formatK_of_upperByte hv
    exact decode_dictAdd hop hres
  · refine ⟨_, ?_, fun i => slotAt_setSlot hw _ i _⟩
    rw [exec_dictAdd hb (dictAdd_at (s := clearFlags s) hsize hn hj hfree) rfl,
      BitVec.setWidth_setWidth (by decide)]
    rfl
  · refine ⟨setSlot (clearOcc s.ht) _ _, _, _, exec_dictAdd hb (dictAdd_full (s := clearFlags s) hsize) rfl,
      fun hlt => ⟨resetsAfter_below hlt _, if_pos hlt⟩, resetsAfter_le _ _, fun i => ?_⟩
    rw [slotAt_setSlot (clearOcc_wf hw), slotAt_clearOcc s.ht i hw]
    rfl


section
variable {s : State} {n : Nat}

theorem DictOk.resetIfFull (h : DictOk s) :
    DictOk (resetIfFull s) ∧ (resetIfFull s).dictSize.toNat < 4096 := by
  rcases resetIfFull_cases s with ⟨e, -⟩ | ⟨e, hn⟩ <;> rw [e]
  · exact ⟨{ dictOk_dictReset s with }, by simp⟩
  · exact ⟨h, lt_of_le_of_ne h.size_le hn⟩

theorem DictOk.occCount_lt (h : DictOk s) (hsize : s.dictSize.toNat < 4096) : occCount s.ht ≤ 3839 := by
  have := h.occupied
  omega

/-- Below capacity every probe sequence meets its first unoccupied slot within 3840 probes (40_dictionary R89). -/
theorem DictOk.exists_free (h : DictOk s) (hsize : s.dictSize.toNat < 4096) (p : Code) (e : Byte) :
    ∃ n < 3840, (∀ j < n, (slotAt s.ht (probeIdx p e j)).occ = true) ∧ (slotAt s.ht (probeIdx p e n)).occ = false := by
  rcases dictInsert_cases p e s with ⟨n, hn, hj, hfree, -⟩ | ⟨-, hocc⟩
  · have := probes_le_occCount hn.le hj
    have := h.occCount_lt hsize
    exact ⟨n, by omega, hj, hfree⟩
  · exact absurd hocc h.not_all_occupied

/-- dictAdd always runs to its end (40_dictionary R89). -/
theorem DictOk.dictAdd_done (h : DictOk s) (p : Code) (e : Byte) :
    ∃ c t, dictAdd p e s = .done c t ∧ t.status = s.status ∧ c.toNat < 4096 ∧
      1 ≤ t.lastProbes.toNat ∧ t.lastProbes.toNat ≤ 3840 := by
  by_cases hsize : s.dictSize.toNat = 4096
  · exact ⟨_, _, dictAdd_full hsize, rfl, by decide, by simp, by simp⟩
  · have hlt := lt_of_le_of_ne h.size_le hsize
    obtain ⟨n, hn, hj, hfree⟩ := h.exists_free hlt p e
    have hprobes : (BitVec.ofNat 13 (n + 1)).toNat = n + 1 := by rw [BitVec.toNat_ofNat]; omega
    refine ⟨_, _, dictAdd_at hsize (by omega) hj hfree, rfl, ?_, ?_, ?_⟩
    · rwa [size_code_toNat]
    · simp only [hprobes]; omega
    · simp only [hprobes]; omega

end

/-- Settles O20: the reset leaves room, and dictAdd runs to its end. -/
theorem dictAddReturnsWithin3840Probes : Obligations.DictAddReturnsWithin3840Probes := by
  intro s p e h hb
  obtain ⟨hreset, hlt⟩ := h.resetIfFull
  obtain ⟨c, t, hadd, hstatus, hc, hge, hle⟩ := DictOk.dictAdd_done (s := clearFlags s) { h with } p e
  refine ⟨Nat.le_of_lt_succ hlt, hreset.occCount_lt hlt, _, exec_dictAdd hb hadd hstatus, ?_, hge, hle⟩
  rwa [BitVec.toNat_setWidth_of_le (by decide)]

/-! ### A table that probing can search (40_dictionary R90, R95) -/

/-- No entry has the key `(p, e)`. -/
def KeyAbsent (ht : List (Nat × Slot)) (p : Code) (e : Byte) : Prop :=
  ∀ i, (slotAt ht i).occ = true → keyMatches (slotAt ht i) p e = false

/-- `c` is the smallest code of an entry with the key `(p, e)`. -/
def SmallestCode (ht : List (Nat × Slot)) (p : Code) (e : Byte) (c : Code) : Prop :=
  (∃ i, (slotAt ht i).occ = true ∧ keyMatches (slotAt ht i) p e = true ∧ (slotAt ht i).code = c) ∧
    ∀ i, (slotAt ht i).occ = true → keyMatches (slotAt ht i) p e = true → c.toNat ≤ (slotAt ht i).code.toNat

section
variable {ht : List (Nat × Slot)} {p : Code} {e : Byte} {n : Nat} {s : State}

/-- An entry stands on the probe sequence of its key behind occupied slots and smaller codes of the key. -/
theorem HashOk.reach (h : HashOk ht) {i : SlotIdx} (hocc : (slotAt ht i).occ = true)
    (hm : keyMatches (slotAt ht i) p e = true) :
    ∃ m < 4096, probeIdx p e m = i ∧ ∀ j < m, (slotAt ht (probeIdx p e j)).occ = true ∧
      (keyMatches (slotAt ht (probeIdx p e j)) p e = true →
        (slotAt ht (probeIdx p e j)).code.toNat < (slotAt ht i).code.toNat) := by
  obtain ⟨rfl, rfl⟩ := keyMatches_iff.1 hm
  exact h i hocc

/-- Probes that end at an unoccupied slot have missed no entry of the key. -/
theorem HashOk.absent (h : HashOk ht) (hj : ∀ j < n, keyMatches (slotAt ht (probeIdx p e j)) p e = false)
    (hfree : (slotAt ht (probeIdx p e n)).occ = false) : KeyAbsent ht p e := by
  intro i hocc
  by_contra hm
  rw [Bool.not_eq_false] at hm
  obtain ⟨m, -, rfl, hbefore⟩ := h.reach hocc hm
  rcases Nat.lt_trichotomy m n with hlt | rfl | hgt
  · rw [hj m hlt] at hm; cases hm
  · rw [hfree] at hocc; cases hocc
  · have hocc' := (hbefore n hgt).1
    rw [hfree] at hocc'; cases hocc'

/-- The first entry of the key on its probe sequence has the smallest code. -/
theorem HashOk.smallest (h : HashOk ht) (hj : ∀ j < n, keyMatches (slotAt ht (probeIdx p e j)) p e = false)
    (hocc : (slotAt ht (probeIdx p e n)).occ = true) (hm : keyMatches (slotAt ht (probeIdx p e n)) p e = true) :
    SmallestCode ht p e (slotAt ht (probeIdx p e n)).code := by
  refine ⟨⟨_, hocc, hm, rfl⟩, fun i hocc' hm' => ?_⟩
  obtain ⟨m, -, rfl, hbefore⟩ := h.reach hocc' hm'
  rcases Nat.lt_trichotomy m n with hlt | rfl | hgt
  · rw [hj m hlt] at hm'; cases hm'
  · exact le_rfl
  · exact ((hbefore n hgt).2 hm).le

theorem DictOk.live_slot (h : DictOk s) {i : SlotIdx} (hocc : (slotAt s.ht i).occ = true) :
    256 ≤ (slotAt s.ht i).code.toNat ∧ (slotAt s.ht i).code.toNat < s.dictSize.toNat :=
  h.live _ (slotAt_mem hocc) hocc

/-- dictFind answers what a scan of all entries answers (40_dictionary R95). -/
theorem dictFind_scan (h : DictOk s) (hht : HashOk s.ht) (hp : p ≠ Config.invalid) (e : Byte) :
    ∃ c k, dictFind p e s = .done c { s with lastProbes := k } ∧
      (c = Config.notFound ∧ KeyAbsent s.ht p e ∨
        256 ≤ c.toNat ∧ c.toNat < s.dictSize.toNat ∧ SmallestCode s.ht p e c) := by
  rcases dictFind_cases hp e s with ⟨c, n, -, hj, hend, hfind⟩ | ⟨-, hocc⟩
  · refine ⟨c, _, hfind, ?_⟩
    have hmiss : ∀ j < n, keyMatches (slotAt s.ht (probeIdx p e j)) p e = false := fun j hlt => (hj j hlt).2
    rcases hend with ⟨hfree, rfl⟩ | ⟨hocc, hm, rfl⟩
    · exact .inl ⟨rfl, hht.absent hmiss hfree⟩
    · obtain ⟨hge, hlt⟩ := h.live_slot hocc
      exact .inr ⟨hge, hlt, hht.smallest hmiss hocc hm⟩
  · exact absurd hocc h.not_all_occupied

end

/-- Settles O21: probing a searchable table scans it. -/
theorem dictFindIsLinearScan : Obligations.DictFindIsLinearScan := by
  refine fun s p e h hht hb => ⟨?_, fun hp => ?_⟩
  · rintro rfl
    exact exec_dictFind_root hb e
  · obtain ⟨c, k, hfind, hscan⟩ := dictFind_scan (s := clearFlags s) { h with } hht hp e
    exact ⟨c, k, exec_dictFind hb hfind, hscan⟩

/-! ### What a rule does to the hash table (40_dictionary R85, R88) -/

/-- `ht'` is `ht` with the key `(p, e)` stored under `c` in the first unoccupied slot of its probe sequence. -/
def KeyStored (p : Code) (e : Byte) (c : Code) (ht ht' : List (Nat × Slot)) : Prop :=
  ∃ n < 4096, (∀ j < n, (slotAt ht (probeIdx p e j)).occ = true) ∧ (slotAt ht (probeIdx p e n)).occ = false ∧
    ∀ i, slotAt ht' i = if i = probeIdx p e n then { occ := true, pfx := p, ext := e, code := c } else slotAt ht i

/-- No slot is occupied. -/
def NoEntries (ht : List (Nat × Slot)) : Prop := ∀ i, (slotAt ht i).occ = false

/-- What dictAdd does to HT: it stores the key under the next code, in an emptied table where the dictionary is full. -/
def KeyAdded (p : Code) (e : Byte) (s : State) (ht : List (Nat × Slot)) : Prop :=
  (s.dictSize.toNat ≠ 4096 ∧ KeyStored p e (s.dictSize.setWidth 16) s.ht ht) ∨
    s.dictSize.toNat = 4096 ∧ KeyStored p e 256#16 (clearOcc s.ht) ht

/-- Everything a step can do to HT: keep it, empty it, or add a key. -/
def TableStep (s : State) (ht : List (Nat × Slot)) : Prop := ht = s.ht ∨ NoEntries ht ∨ ∃ p e, KeyAdded p e s ht

section
variable {ht ht' : List (Nat × Slot)} {p c : Code} {e : Byte} {s t : State}

theorem noEntries_clearOcc (ht : List (Nat × Slot)) : NoEntries (clearOcc ht) := clearOcc_occ ht

theorem NoEntries.hashOk (h : NoEntries ht) : HashOk ht := fun i ho => by rw [h i] at ho; cases ho

theorem NoEntries.keysUnique (h : NoEntries ht) : KeysUnique ht := fun i _ ho => by rw [h i] at ho; cases ho

theorem NoEntries.absent (h : NoEntries ht) : KeyAbsent ht p e := fun i ho => by rw [h i] at ho; cases ho

/-- Storing a key leaves every entry where it is. -/
theorem KeyStored.keeps (h : KeyStored p e c ht ht') {i : SlotIdx} (ho : (slotAt ht i).occ = true) :
    slotAt ht' i = slotAt ht i := by
  obtain ⟨n, -, -, hfree, hread⟩ := h
  rw [hread, if_neg]
  rintro rfl
  rw [hfree] at ho
  cases ho

/-- The slot the key is stored in was not occupied, and is so now with the key and its code. -/
theorem KeyStored.stored (h : KeyStored p e c ht ht') :
    ∃ i, (slotAt ht i).occ = false ∧ slotAt ht' i = { occ := true, pfx := p, ext := e, code := c } := by
  obtain ⟨n, -, -, hfree, hread⟩ := h
  exact ⟨_, hfree, by rw [hread, if_pos rfl]⟩

/-- An entry after a key is stored is the stored one or an old one. -/
theorem KeyStored.entry (h : KeyStored p e c ht ht') {i : SlotIdx} (ho : (slotAt ht' i).occ = true) :
    (slotAt ht' i = { occ := true, pfx := p, ext := e, code := c } ∧
      ∃ n < 4096, probeIdx p e n = i ∧ ∀ j < n, (slotAt ht (probeIdx p e j)).occ = true) ∨
    (slotAt ht i).occ = true ∧ slotAt ht' i = slotAt ht i := by
  obtain ⟨n, hn, hj, -, hread⟩ := h
  rw [hread] at ho ⊢
  split
  case isTrue hi => exact .inl ⟨rfl, n, hn, hi.symm, hj⟩
  case isFalse hi =>
    rw [if_neg hi] at ho
    exact .inr ⟨ho, rfl⟩

/-- A key stored under a code above all others leaves a searchable table (40_dictionary R90). -/
theorem KeyStored.hashOk (h : KeyStored p e c ht ht') (hht : HashOk ht)
    (hc : ∀ i, (slotAt ht i).occ = true → (slotAt ht i).code.toNat < c.toNat) : HashOk ht' := by
  intro i ho
  rcases h.entry ho with ⟨hnew, n, hn, hi, hj⟩ | ⟨hold, hsame⟩
  · rw [hnew]
    exact ⟨n, hn, hi, fun j hlt => by rw [h.keeps (hj j hlt)]; exact ⟨hj j hlt, fun _ => hc _ (hj j hlt)⟩⟩
  · rw [hsame]
    obtain ⟨n, hn, hi, hj⟩ := hht i hold
    exact ⟨n, hn, hi, fun j hlt => by rw [h.keeps (hj j hlt).1]; exact hj j hlt⟩

/-- A key that no entry has is stored once (40_dictionary R80). -/
theorem KeyStored.keysUnique (h : KeyStored p e c ht ht') (hu : KeysUnique ht) (ha : KeyAbsent ht p e) :
    KeysUnique ht' := by
  obtain ⟨n, -, -, -, hread⟩ := h
  intro i j hi hj hm
  rw [hread] at hi
  rw [hread] at hj
  rw [hread, hread] at hm
  by_cases hin : i = probeIdx p e n <;> by_cases hjn : j = probeIdx p e n
  · exact hin.trans hjn.symm
  · rw [if_neg hjn] at hj
    rw [if_pos hin, if_neg hjn] at hm
    obtain ⟨hpfx, hext⟩ := keyMatches_iff.1 hm
    exact absurd ⟨hpfx.symm, hext.symm⟩ (keyMatches_eq_false_iff.1 (ha j hj))
  · rw [if_neg hin] at hi
    rw [if_neg hin, if_pos hjn] at hm
    exact absurd (keyMatches_iff.1 hm) (keyMatches_eq_false_iff.1 (ha i hi))
  · rw [if_neg hin] at hi
    rw [if_neg hjn] at hj
    rw [if_neg hin, if_neg hjn] at hm
    exact hu i j hi hj hm

theorem KeyAdded.hashOk (h : KeyAdded p e s ht') (hd : DictOk s) (hht : HashOk s.ht) : HashOk ht' := by
  rcases h with ⟨-, hs⟩ | ⟨-, hs⟩
  · exact hs.hashOk hht fun i ho => by rw [size_code_toNat]; exact (hd.live_slot ho).2
  · exact hs.hashOk (noEntries_clearOcc _).hashOk fun i ho => by rw [clearOcc_occ] at ho; cases ho

theorem KeyAdded.keysUnique (h : KeyAdded p e s ht') (hu : KeysUnique s.ht) (ha : KeyAbsent s.ht p e) :
    KeysUnique ht' := by
  rcases h with ⟨-, hs⟩ | ⟨-, hs⟩
  · exact hs.keysUnique hu ha
  · exact hs.keysUnique (noEntries_clearOcc _).keysUnique (noEntries_clearOcc _).absent

theorem TableStep.hashOk (h : TableStep s ht') (hd : DictOk s) (hht : HashOk s.ht) : HashOk ht' := by
  rcases h with rfl | hn | ⟨p, e, ha⟩
  · exact hht
  · exact hn.hashOk
  · exact ha.hashOk hd hht

/-- The entry of dictAdd (40_dictionary R88). -/
theorem DictOk.keyAdded (h : DictOk s) (hw : Sparse.Wf Slot.blank s.ht) (hadd : dictAdd p e s = .done c t) :
    KeyAdded p e s t.ht := by
  by_cases hsize : s.dictSize.toNat = 4096
  · obtain ⟨-, rfl⟩ := Flow.done.inj ((dictAdd_full hsize).symm.trans hadd)
    refine .inr ⟨hsize, 0, by decide, by simp, clearOcc_occ _ _, fun i => ?_⟩
    rw [probeIdx_zero]
    exact slotAt_setSlot (clearOcc_wf hw) _ i _
  · obtain ⟨n, hn, hj, hfree⟩ := h.exists_free (lt_of_le_of_ne h.size_le hsize) p e
    obtain ⟨-, rfl⟩ := Flow.done.inj ((dictAdd_at hsize (by omega) hj hfree).symm.trans hadd)
    exact .inl ⟨hsize, n, by omega, hj, hfree, fun i => slotAt_setSlot hw _ i _⟩

end

/-! ### What each rule does to the hash table -/

/-- What ENC_MATCH does to HT: nothing, or it adds the current match and the next byte, a key that no entry has
(44_encoder R123). -/
def MatchStep (s : State) (ht : List (Nat × Slot)) : Prop :=
  ht = s.ht ∨ ∃ e, KeyAbsent s.ht s.pfx e ∧ KeyAdded s.pfx e s ht

section
variable {s : State}

theorem MatchStep.tableStep {ht : List (Nat × Slot)} (h : MatchStep s ht) : TableStep s ht :=
  h.imp_right fun ⟨e, _, ha⟩ => .inr ⟨s.pfx, e, ha⟩

theorem encMiss_table (h : DictOk s) (hw : Sparse.Wf Slot.blank s.ht) (e : Byte) :
    (encMiss e s).Ends (fun _ t => KeyAdded s.pfx e s t.ht) (fun t => t.ht = s.ht) := by
  unfold encMiss
  refine (bwWrite_ends (Q := fun t => t.ht = s.ht) _ _ rfl).bind ?_
  rintro _ _ ⟨m, c, rfl, -⟩
  refine (dictAdd_ends _ _).run.bind ?_
  rintro _ t ⟨-, hadd⟩
  exact DictOk.keyAdded (t := t) (s := { s with obuf := m, wcur := c, codes := s.codes + 1#32 }) { h with } hw hadd

theorem encMatchRule_table (h : Inv s) (hht : HashOk s.ht) (hf : s.fsm = .encMatch) :
    (encMatchRule s).Ends (fun _ t => MatchStep s t.ht) (fun t => MatchStep s t.ht) := by
  have hp := (h.enc (.inl hf)).pfx_ne_invalid h.dict
  unfold encMatchRule
  split
  · refine ibufRead_bind_ends ?_
    obtain ⟨r, k, hfind, hscan⟩ := dictFind_scan h.dict hht hp (s.ibuf.read s.ipos.toNat)
    rw [hfind, Flow.bind_done]
    refine Flow.Ends.bind (P := fun _ t => MatchStep s t.ht) ?_ fun _ _ hv => hv
    split
    case isTrue => exact .inl rfl
    case isFalse hmiss =>
      have habsent : KeyAbsent s.ht s.pfx (s.ibuf.read s.ipos.toNat) := by
        rcases hscan with ⟨-, ha⟩ | ⟨-, hlt, -⟩
        · exact ha
        · have hsize := h.dict.size_le
          rw [not_not.1 hmiss] at hlt
          exact absurd (hlt.trans_le hsize) (by decide)
      exact (encMiss_table (s := { s with lastProbes := k }) { h.dict with } h.tables.ht_wf _).imp
        (fun _ _ hadd => .inr ⟨_, habsent, hadd⟩) fun _ hkept => .inl hkept
  · exact .inl rfl

theorem encFlushRule_table (s : State) :
    (encFlushRule s).Ends (fun _ t => TableStep s t.ht) (fun t => TableStep s t.ht) := by
  unfold encFlushRule
  refine (bwWrite_ends _ _ (.inl rfl)).bind ?_
  rintro _ _ ⟨m, c, rfl, -⟩
  refine bwFinish_ends.bind ?_
  rintro n _ ⟨m', rfl, -⟩
  exact .inl rfl

theorem decFirstRule_table (s : State) :
    (decFirstRule s).Ends (fun _ t => TableStep s t.ht) (fun t => TableStep s t.ht) := by
  unfold decFirstRule
  refine (brRead_ends _ (.inl rfl)).bind ?_
  rintro c _ ⟨r, rfl, -⟩
  refine (decEmit_ends _ (.inl rfl)).bind ?_
  rintro _ _ ⟨m, k, rfl, -⟩
  exact .inl rfl

theorem resetIfFull_table (s : State) : TableStep s (resetIfFull s).ht := by
  rcases resetIfFull_cases s with ⟨e, -⟩ | ⟨e, -⟩ <;> rw [e]
  · exact .inr (.inl (noEntries_clearOcc _))
  · exact .inl rfl

theorem decCode_table (c : Code) (s : State) :
    (decCode c s).Ends (fun _ t => TableStep s t.ht) (fun t => TableStep s t.ht) := by
  have hfull := resetIfFull_table s
  unfold decCode
  refine (decLookup_ends c hfull).bind ?_
  rintro q _ ⟨rfl, -⟩
  split
  · exact ⟨by decide, hfull⟩
  · refine (decEmit_ends q hfull).bind ?_
    rintro _ _ ⟨m, k, rfl, -⟩
    simpa [Flow.Ends] using hfull

theorem decLoopRule_table (s : State) :
    (decLoopRule s).Ends (fun _ t => TableStep s t.ht) (fun t => TableStep s t.ht) := by
  unfold decLoopRule
  split
  · exact .inl rfl
  · refine (brRead_ends _ (.inl rfl)).bind ?_
    rintro c _ ⟨r, rfl, -⟩
    exact decCode_table c { s with rcur := r, codes := s.codes + 1#32 }

theorem engineRule_table (h : Inv s) (hht : HashOk s.ht) :
    (engineRule s.fsm s).Ends (fun _ t => TableStep s t.ht) (fun t => TableStep s t.ht) := by
  cases hf : s.fsm with
  | idle => trivial
  | encMatch =>
    exact (encMatchRule_table h hht hf).imp (fun _ _ hm => hm.tableStep) fun _ hm => hm.tableStep
  | encFlush => exact encFlushRule_table s
  | decFirst => exact decFirstRule_table s
  | decLoop => exact decLoopRule_table s

theorem compressRule_table (s : State) :
    (compressRule s).Ends (fun _ t => NoEntries t.ht) (fun t => t.ht = s.ht) := by
  unfold compressRule
  split
  · exact ⟨by decide, rfl⟩
  · split
    · exact noEntries_clearOcc _
    · exact ibufRead_bind_ends (noEntries_clearOcc _)

theorem decompressRule_table (s : State) :
    (decompressRule s).Ends (fun _ t => NoEntries t.ht) (fun t => t.ht = s.ht) := by
  unfold decompressRule
  split
  · exact ⟨by decide, rfl⟩
  · split
    · exact noEntries_clearOcc _
    · exact noEntries_clearOcc _

theorem commandRule_table (i : Instr) (h : DictOk s) (hw : Sparse.Wf Slot.blank s.ht) :
    (commandRule i s).Ends (fun _ t => TableStep s t.ht) (fun t => TableStep s t.ht) := by
  cases i with
  | nop | bwClear | brInit => exact .inl rfl
  | dictReset | softReset => exact .inr (.inl (noEntries_clearOcc _))
  | compress => exact (compressRule_table s).imp (fun _ _ hn => .inr (.inl hn)) fun _ => .inl
  | decompress => exact (decompressRule_table s).imp (fun _ _ hn => .inr (.inl hn)) fun _ => .inl
  | dictFind p e =>
    refine (dictFind_ends p e).bind ?_
    rintro c _ ⟨n, rfl, -⟩
    exact .inl rfl
  | dictAdd p e =>
    refine (dictAdd_ends p e).run.bind ?_
    rintro c t ⟨-, hadd⟩
    exact .inr (.inr ⟨p, e, DictOk.keyAdded (t := t) h hw hadd⟩)
  | bwWrite code width =>
    simp only [commandRule]
    split
    · exact ⟨by decide, .inl rfl⟩
    · refine (bwWrite_ends _ _ (.inl rfl)).imp ?_ fun _ hkept => hkept
      rintro _ _ ⟨m, c, rfl, -⟩
      exact .inl rfl
  | bwFinish =>
    refine bwFinish_ends.bind ?_
    rintro n _ ⟨m, rfl, -⟩
    exact .inl rfl
  | brRead width =>
    simp only [commandRule]
    split
    · exact ⟨by decide, .inl rfl⟩
    · refine (brRead_ends _ (.inl rfl)).bind ?_
      rintro c _ ⟨r, rfl, -⟩
      exact .inl rfl

end

/-! ### Every step keeps the table searchable -/

section
variable {s t : State}

theorem engineTurn_tableStep (h : Inv s) (hht : HashOk s.ht) (ht : engineTurn s = .next t) : TableStep s t.ht := by
  cases hb : s.status.busy with
  | false => rw [engineTurn_idle hb] at ht; cases ht; exact .inl rfl
  | true =>
    rw [engineTurn_eq hb] at ht
    rcases runStep_ends (P := fun t => TableStep s t.ht) ht (engineRule_table h hht) with hu | ⟨e, u, -, hu, rfl⟩
    · exact hu
    · exact hu

theorem exec_tableStep {i : Instr} (h : Inv s) (ht : exec i s = .next t) : TableStep s t.ht := by
  rw [exec_eq] at ht
  cases hb : s.status.busy with
  | true => rw [runCommand_busy hb] at ht; cases ht; exact .inl rfl
  | false =>
    have hrule := commandRule_table (s := clearFlags s) i { h.dict with } h.tables.ht_wf
    rcases runCommand_ends (P := fun t => TableStep s t.ht) ht hb hrule with ⟨u, hu, rfl⟩ | ⟨e, u, -, hu, rfl⟩
    · split
      · exact hu
      · exact hu
    · exact hu

theorem HostEffect.ht_eq (h : HostEffect s t) : t.ht = s.ht := by cases h <;> rfl

theorem illegalCommand_ht (h : illegalCommand s = .next t) : t.ht = s.ht := by
  rcases illegalCommand_next h with rfl | ⟨-, rfl⟩ <;> rfl

theorem step_tableStep (h : Inv s) (hht : HashOk s.ht) (ht : step s = .next t) : TableStep s t.ht := by
  obtain ⟨rest, ht | ⟨d, rfl⟩ | ht | ⟨v, i, -, -, ht⟩ | ht⟩ := step_next ht
  · exact engineTurn_tableStep (s := { s with inputs := rest }) (h.withInputs rest) hht ht
  · exact .inr (.inl (noEntries_clearOcc _))
  · exact .inl ht.ht_eq
  · exact exec_tableStep (s := { s with inputs := rest }) (h.withInputs rest) ht
  · exact .inl (illegalCommand_ht (s := { s with inputs := rest }) ht)

end

/-- Settles O22: a step keeps HT, empties it, or stores a key under a code above all others. -/
theorem stepKeepsHashTableSearchable : Obligations.StepKeepsHashTableSearchable := fun _ _ h hht ht =>
  (step_tableStep h hht ht).hashOk h.dict hht

/-- Settles O24: a pass starts with no entries, and adds a key only after a scan has missed it. -/
theorem encoderKeepsKeysUnique : Obligations.EncoderKeepsKeysUnique := by
  refine ⟨fun s t hb ht hpass => ?_, fun s t h hht hf hu ht => ?_⟩
  · rw [exec_eq] at ht
    rcases runCommand_ends (P := fun t => NoEntries t.ht) ht hb (compressRule_table (clearFlags s)) with
      ⟨u, hu, rfl⟩ | ⟨e, u, -, -, rfl⟩
    · split
      · exact hu.keysUnique
      · exact NoEntries.keysUnique (ht := u.ht) hu
    · cases hpass
  · rw [engineTurn_encMatch (h.busy_iff.2 (by simp [hf])) hf] at ht
    have hstep : MatchStep s t.ht := by
      rcases runStep_ends (P := fun t => MatchStep s t.ht) ht (encMatchRule_table h hht hf) with
        hu | ⟨e, u, -, hu, rfl⟩
      · exact hu
      · exact hu
    rcases hstep with e | ⟨e, habsent, hadd⟩
    · rwa [e]
    · exact hadd.keysUnique hu habsent

/-! ### A key added again (40_dictionary R91) -/

section
variable {s : State} {p : Code} {e : Byte}

/-- DICT_ADD below capacity runs to its end and stores the key under the code DICT_SIZE (40_dictionary R94). -/
theorem exec_dictAdd_stores (h : Inv s) (hb : s.status.busy = false) (hsize : s.dictSize.toNat < 4096) (p : Code)
    (e : Byte) : ∃ t, exec (.dictAdd p e) s = .next t ∧ t.status = statusDone ∧ t.result.toNat = s.dictSize.toNat ∧
      KeyStored p e (s.dictSize.setWidth 16) s.ht t.ht := by
  obtain ⟨n, hn, hj, hfree⟩ := h.dict.exists_free hsize p e
  have hadd := dictAdd_at (s := clearFlags s) (by exact hsize.ne) (by omega) hj hfree
  refine ⟨_, exec_dictAdd hb hadd rfl, rfl, ?_, n, by omega, hj, hfree, fun i => slotAt_setSlot h.tables.ht_wf _ i _⟩
  exact (BitVec.toNat_setWidth_of_le (by decide)).trans (size_code_toNat _)

end

/-- Settles O23: the new entry's code is above all others, so the scan of DICT_FIND answers an older one. -/
theorem duplicateKeyFindsFirstAdded : Obligations.DuplicateKeyFindsFirstAdded := by
  rintro s p e h hht hb hsize hp ⟨i, hocc, hm⟩
  obtain ⟨t, hadd, hdone, hresult, hstored⟩ := exec_dictAdd_stores h hb hsize p e
  have hcode := size_code_toNat s.dictSize
  have hkeep : ∀ i, (slotAt s.ht i).occ = true → slotAt t.ht i = slotAt s.ht i := fun _ => hstored.keeps
  have hscan := dictFindIsLinearScan t p e (exec_keeps h hadd).dict
    ((exec_tableStep h hadd).hashOk h.dict hht) (by rw [hdone]; rfl)
  obtain ⟨c, k, hfind, ⟨-, habsent⟩ | ⟨-, -, ⟨f, hfocc, hfm, rfl⟩, hmin⟩⟩ := hscan.2 hp
  · have hmiss := habsent i (by rwa [hkeep i hocc])
    rw [hkeep i hocc, hm] at hmiss
    cases hmiss
  · have hle : ∀ k, (slotAt s.ht k).occ = true → keyMatches (slotAt s.ht k) p e = true →
        (slotAt t.ht f).code.toNat ≤ (slotAt s.ht k).code.toNat := fun k hk hkm => by
      have := hmin k (by rwa [hkeep k hk]) (by rwa [hkeep k hk])
      rwa [hkeep k hk] at this
    obtain ⟨x, hfree, hnew⟩ := hstored.stored
    refine ⟨t, _, hadd, hfind, hresult, hkeep, ⟨x, hfree, by rw [hnew], ?_, by rw [hnew]; exact hcode⟩, f, ?_⟩
    · rw [hnew]; exact keyMatches_iff.2 ⟨rfl, rfl⟩
    · rcases hstored.entry hfocc with ⟨hf, -⟩ | ⟨hfold, hf⟩
      · have hlow := hle i hocc hm
        rw [hf] at hlow
        exact absurd (hcode.ge.trans hlow) (h.dict.live_slot hocc).2.not_ge
      · rw [hf] at hfm hle
        exact ⟨hfold, hfm, by rw [hf], hle⟩

/-! ### No rule stops (40_dictionary R87, 42_bitwriter R109, 43_bitreader R117, 46_control R150) -/

/-- The rule ends, with a value or with an error of the spec. -/
def Flow.Runs {α : Type} (x : Flow α) : Prop := ∀ f, x ≠ .stuck f

section
variable {α β : Type} {x : Flow α} {s : State}

theorem Flow.runs_done (a : α) (s : State) : (Flow.done a s).Runs := nofun

theorem Flow.runs_raised (e : ErrCode) (s : State) : (Flow.raised e s : Flow α).Runs := nofun

variable {k : α → State → Flow β}

/-- A sequence ends where its second part does from every state in which the first part may end. -/
theorem Flow.Runs.bind {P : α → State → Prop} (hx : x.Runs) (he : x.Ends P fun _ => True)
    (hk : ∀ a t, P a t → (k a t).Runs) : (x.bind k).Runs := by
  cases x with
  | done a t => exact hk a t he
  | raised e t => exact Flow.runs_raised e t
  | stuck f => exact absurd rfl (hx f)

/-- A sequence ends where its second part does from every state. -/
theorem Flow.Runs.andThen (hx : x.Runs) (hk : ∀ a t, (k a t).Runs) : (x.bind k).Runs := by
  cases x with
  | done a t => exact hk a t
  | raised e t => exact Flow.runs_raised e t
  | stuck f => exact absurd rfl (hx f)

end

section
variable {α : Type} {s : State}

/-- A read of IBUF below its capacity. -/
theorem ibufRead_bind_runs {a : Nat} (ha : a < s.params.ibufCap) {k : Byte → State → Flow α}
    (hk : (k (s.ibuf.read a) s).Runs) : ((ibufRead a s).bind k).Runs := by
  rw [ibufRead, if_pos ha]
  exact hk

theorem DictOk.dictFind_runs (h : DictOk s) (p : Code) (e : Byte) : (dictFind p e s).Runs := by
  obtain ⟨c, k, -, hfind⟩ := h.dictFind_done p e
  rw [hfind]
  exact Flow.runs_done _ _

theorem DictOk.dictAdd_runs (h : DictOk s) (p : Code) (e : Byte) : (dictAdd p e s).Runs := by
  obtain ⟨c, t, hadd, -⟩ := h.dictAdd_done p e
  rw [hadd]
  exact Flow.runs_done _ _

/-- bwWrite checks OUT_CAP before it writes (42_bitwriter R109). -/
theorem OutputRoom.bwWrite_runs (h : OutputRoom s) (code : Code) (w : Nat) : (bwWrite code w s).Runs := by
  obtain ⟨hwf, ⟨-, -, -, -, hobuf⟩, hcap⟩ := h
  rcases bwWrite_cases code w s with ⟨e, -⟩ | ⟨hroom, e⟩ <;> rw [e]
  · exact Flow.runs_raised _ _
  · unfold ceil8 at hroom
    obtain ⟨m, hm, -⟩ := bwPutBits_run (code := code) (n := w) hwf (by omega) (by omega)
    rw [hm]
    exact Flow.runs_done _ _

/-- bwFinish writes the byte WCUR stands in, if it stands in one (42_bitwriter R110). -/
theorem bwFinish_runs (h : s.wcur.toNat ≤ 8 * s.params.obufCap) : (bwFinish s).Runs := by
  rcases bwFinish_cases s with ⟨m, hm⟩ | ⟨-, hpart, hcap⟩
  · rw [hm]
    exact Flow.runs_done _ _
  · omega

/-- brRead checks IN_BITS before it reads (43_bitreader R117). -/
theorem BlockOk.brRead_runs (h : BlockOk s) (hin : s.inBits.toNat ≤ 8 * s.params.ibufCap) (w : Nat) :
    (brRead w s).Runs := by
  obtain ⟨-, -, hibuf, -, -⟩ := h.params
  have hrcur := h.rcur_le
  rcases brRead_cases w s with ⟨e, -⟩ | ⟨hroom, e⟩ <;> rw [e]
  · exact Flow.runs_raised _ _
  · obtain ⟨r, hr, -⟩ := brGetBits_run (v := 0#16) (n := w) (s := s) (by omega) (by omega)
    rw [hr]
    exact Flow.runs_done _ _

theorem decLookup_runs (c : Code) (s : State) : (decLookup c s).Runs := by
  rcases decLookup_cases c s with ⟨-, e⟩ | ⟨-, -, e⟩ | ⟨-, -, e⟩ | ⟨-, -, e⟩ <;> rw [e] <;> exact nofun

/-- decEmit checks OUT_CAP before it writes (45_decoder R137). -/
theorem OutputRoom.decEmit_runs (h : OutputRoom s) (q : ByteSeq) : (decEmit q s).Runs := by
  obtain ⟨hwf, ⟨-, -, -, -, hobuf⟩, hcap⟩ := h
  rcases decEmit_cases q s with ⟨e, -⟩ | ⟨hroom, e⟩ <;> rw [e]
  · exact Flow.runs_raised _ _
  · rw [← q.length_toList] at hroom
    obtain ⟨m, hm, -⟩ := decPutBytes_run (l := q.toList) hwf (by omega) (by omega)
    rw [hm]
    exact Flow.runs_done _ _

/-! ### The engine's rules -/

theorem encMiss_runs (h : DictOk s) (hs : OutputRoom s) (e : Byte) : (encMiss e s).Runs := by
  unfold encMiss
  refine (hs.bwWrite_runs _ _).bind (bwWrite_ends _ _ trivial) ?_
  rintro _ _ ⟨m, c, rfl, -⟩
  exact (DictOk.dictAdd_runs (s := { s with obuf := m, wcur := c, codes := s.codes + 1#32 }) { h with } _ _).andThen
    fun _ _ => Flow.runs_done _ _

theorem encMatchRule_runs (h : Inv s) (hf : s.fsm = .encMatch) : (encMatchRule s).Runs := by
  have hroom := h.room (by simp [hf])
  unfold encMatchRule
  split
  case isTrue hlt =>
    refine ibufRead_bind_runs (hlt.trans_le (h.enc (.inl hf)).inLen_le) ?_
    refine (h.dict.dictFind_runs _ _).bind (dictFind_ends _ _) ?_
    rintro r _ ⟨n, rfl, -⟩
    refine Flow.Runs.andThen ?_ fun _ _ => Flow.runs_done _ _
    split
    · exact Flow.runs_done _ _
    · exact encMiss_runs (s := { s with lastProbes := n }) { h.dict with } { hroom with } _
  case isFalse => exact Flow.runs_done _ _

theorem encFlushRule_runs (h : Inv s) (hf : s.fsm = .encFlush) : (encFlushRule s).Runs := by
  have hroom := h.room (by simp [hf])
  unfold encFlushRule
  refine (hroom.bwWrite_runs _ _).bind (bwWrite_ends _ _ trivial) ?_
  rintro _ _ ⟨m, c, rfl, hw⟩
  obtain ⟨hwritten, -, -⟩ := hw h.block hroom.outCap_le
  exact (bwFinish_runs (s := { s with obuf := m, wcur := c, codes := s.codes + 1#32 }) hwritten.wcur_le).andThen
    fun _ _ => Flow.runs_done _ _

theorem decFirstRule_runs (h : Inv s) (hf : s.fsm = .decFirst) : (decFirstRule s).Runs := by
  have hroom := h.room (by simp [hf])
  unfold decFirstRule
  refine (h.block.brRead_runs (h.dec (.inl hf)).inBits_le _).bind (brRead_ends _ trivial) ?_
  rintro c _ ⟨r, rfl, -⟩
  exact (OutputRoom.decEmit_runs (s := { s with rcur := r, codes := 1#32 }) { hroom with } _).andThen
    fun _ _ => Flow.runs_done _ _

theorem decCode_runs (hs : OutputRoom s) (c : Code) : (decCode c s).Runs := by
  obtain ⟨ht, k, w, d, f, hfull⟩ := resetIfFull_eq s
  unfold decCode
  rw [hfull]
  refine (decLookup_runs c _).bind (decLookup_ends c trivial) ?_
  rintro q _ ⟨rfl, -⟩
  split
  · exact Flow.runs_raised _ _
  · exact (OutputRoom.decEmit_runs
      (s := { s with ht := ht, dictSize := k, codeWidth := w, dictResets := d, freeCount := f }) { hs with } _).andThen
      fun _ _ => Flow.runs_done _ _

theorem decLoopRule_runs (h : Inv s) (hf : s.fsm = .decLoop) : (decLoopRule s).Runs := by
  have hroom := h.room (by simp [hf])
  unfold decLoopRule
  split
  · exact Flow.runs_done _ _
  · refine (h.block.brRead_runs (h.dec (.inr hf)).inBits_le _).bind (brRead_ends _ trivial) ?_
    rintro c _ ⟨r, rfl, -⟩
    exact decCode_runs (s := { s with rcur := r, codes := s.codes + 1#32 }) { hroom with } c

/-- While BUSY = 1 the engine has a rule, and the rule ends (46_control R150). -/
theorem engineRule_runs (h : Inv s) (hb : s.status.busy = true) : (engineRule s.fsm s).Runs := by
  cases hf : s.fsm with
  | idle => exact absurd hf (h.busy_iff.1 hb)
  | encMatch => exact encMatchRule_runs h hf
  | encFlush => exact encFlushRule_runs h hf
  | decFirst => exact decFirstRule_runs h hf
  | decLoop => exact decLoopRule_runs h hf

/-! ### The commands' rules -/

theorem compressRule_runs (hp : s.params.Legal) : (compressRule s).Runs := by
  obtain ⟨-, hpos, -, -, -⟩ := hp
  unfold compressRule
  split
  · exact Flow.runs_raised _ _
  · split
    · exact Flow.runs_done _ _
    · exact ibufRead_bind_runs (s := setIpos 0#32 (passStart s)) hpos (Flow.runs_done _ _)

theorem decompressRule_runs (s : State) : (decompressRule s).Runs := by
  unfold decompressRule
  split
  · exact Flow.runs_raised _ _
  · split
    · exact Flow.runs_done _ _
    · exact Flow.runs_done _ _

theorem commandRule_runs (i : Instr) (h : BlockOk s) : (commandRule i s).Runs := by
  cases i with
  | nop | dictReset | bwClear | brInit | softReset => exact Flow.runs_done _ _
  | compress => exact compressRule_runs h.params
  | decompress => exact decompressRule_runs s
  | dictFind p e => exact (h.dictFind_runs p e).andThen fun _ _ => Flow.runs_done _ _
  | dictAdd p e => exact (h.dictAdd_runs p e).andThen fun _ _ => Flow.runs_done _ _
  | bwWrite code width =>
    simp only [commandRule]
    split
    case isTrue => exact Flow.runs_raised _ _
    case isFalse hcap => exact OutputRoom.bwWrite_runs ⟨h.obuf_wf, h.params, not_lt.1 hcap⟩ _ _
  | bwFinish => exact (bwFinish_runs h.wcur_le).andThen fun _ _ => Flow.runs_done _ _
  | brRead width =>
    simp only [commandRule]
    split
    case isTrue => exact Flow.runs_raised _ _
    case isFalse hcap => exact (h.brRead_runs (not_lt.1 hcap) _).andThen fun _ _ => Flow.runs_done _ _

end

/-! ### No step faults -/

/-- The machine does not fault; a host access may be refused. -/
def NoFault (o : Host.Outcome State Fault Refusal) : Prop := ∀ f, o ≠ .fault f

section
variable {s : State}

theorem noFault_next (t : State) : NoFault (.next t) := nofun

theorem noFault_refused (r : Refusal) : NoFault (.refused r) := nofun

/-- The issue of a command whose rule ends answers a next state. -/
theorem runCommand_answers {rule : State → Flow Unit} (h : (rule (clearFlags s)).Runs) :
    ∃ t, runCommand rule s = .next t := by
  obtain ⟨hfault, hrefused⟩ := runCommand_not_next (rule := rule) (s := s)
  cases hr : runCommand rule s with
  | next t => exact ⟨t, rfl⟩
  | fault f => exact absurd (hfault f hr) (h f)
  | refused r => exact absurd hr (hrefused r)

/-- An engine step whose rule ends answers a next state. -/
theorem runStep_answers {rule : State → Flow Unit} (h : (rule s).Runs) : ∃ t, runStep rule s = .next t := by
  obtain ⟨hfault, hrefused⟩ := runStep_not_next (rule := rule) (s := s)
  cases hr : runStep rule s with
  | next t => exact ⟨t, rfl⟩
  | fault f => exact absurd (hfault f hr) (h f)
  | refused r => exact absurd hr (hrefused r)

theorem engineTurn_answers (h : Inv s) : ∃ t, engineTurn s = .next t := by
  cases hb : s.status.busy with
  | false => exact ⟨s, engineTurn_idle hb⟩
  | true => rw [engineTurn_eq hb]; exact runStep_answers (engineRule_runs h hb)

/-- Every command answers a next state (46_control R148). -/
theorem exec_answers (h : Inv s) (i : Instr) : ∃ t, exec i s = .next t := by
  rw [exec_eq]
  exact runCommand_answers (commandRule_runs (s := clearFlags s) i { h.block with })

/-- Every word written to CMD answers a next state. -/
theorem issue_answers (h : Inv s) (v : Word) : ∃ t, issue v s = .next t := by
  cases hd : decode v with
  | ok i => rw [issue_ok hd]; exact exec_answers h i
  | error e => rw [issue_error hd]; exact runCommand_answers (Flow.runs_raised _ _)

theorem writeReg_answers (h : Inv s) (r : RegName) (v : Word) : ∃ t, writeReg r v s = .next t := by
  rcases writeReg_cases r v s with ⟨-, e⟩ | ⟨-, ⟨-, e⟩ | ⟨-, e⟩ | ⟨-, e⟩⟩ | e <;> rw [e]
  · exact issue_answers h v
  · exact ⟨_, rfl⟩
  · exact ⟨_, rfl⟩
  · exact ⟨_, rfl⟩
  · exact ⟨_, rfl⟩

theorem readByteAt_noFault (off : Nat) (s : State) : NoFault (readByteAt off s) := by
  unfold readByteAt
  split <;> exact nofun

theorem writeByteAt_noFault (off : Nat) (v : Byte) (s : State) : NoFault (writeByteAt off v s) := by
  unfold writeByteAt
  split <;> exact nofun

theorem readWordAt_noFault (off : Nat) (s : State) : NoFault (readWordAt off s) := by
  unfold readWordAt
  split
  · split
    · split <;> exact nofun
    · exact noFault_refused _
  · exact noFault_refused _
  · exact noFault_refused _
  · split <;> exact nofun

theorem writeWordAt_noFault (h : Inv s) (off : Nat) (v : Word) : NoFault (writeWordAt off v s) := by
  unfold writeWordAt
  split
  · split
    · split
      · obtain ⟨t, ht⟩ := writeReg_answers h _ v
        rw [ht]
        exact noFault_next t
      · exact noFault_next s
    · exact noFault_refused _
  · exact noFault_refused _
  · exact noFault_refused _
  · split <;> exact nofun

theorem inWindow_noFault {k : Nat → Host.Outcome State Fault Refusal} (hk : ∀ off, NoFault (k off)) (addr : Nat) :
    NoFault (inWindow addr s k) := by
  unfold inWindow
  split
  · exact hk _
  · exact noFault_refused _

theorem hostAccess_noFault (h : Inv s) (a : HostAccess) : NoFault (hostAccess a s) := by
  cases a with
  | readByte addr => exact inWindow_noFault (fun off => readByteAt_noFault off s) addr
  | writeByte addr v => exact inWindow_noFault (fun off => writeByteAt_noFault off v s) addr
  | readWord addr => exact inWindow_noFault (fun off => readWordAt_noFault off s) addr
  | writeWord addr v => exact inWindow_noFault (fun off => writeWordAt_noFault h off v) addr
  | readOther bits addr => exact inWindow_noFault (fun _ => noFault_refused _) addr
  | writeOther bits addr v => exact inWindow_noFault (fun _ => noFault_refused _) addr

/-- A step answers a next state, or it is a host access that does not fault. -/
theorem step_answers (h : Inv s) :
    (∃ t, step s = .next t) ∨ (∃ a rest, s.inputs = .access a :: rest) ∧ NoFault (step s) := by
  cases hi : s.inputs with
  | nil =>
    have hstep : step s = engineTurn s := by simp only [step, hi]
    exact .inl (hstep ▸ engineTurn_answers h)
  | cons x rest =>
    rw [step_cons hi]
    have hrest := h.withInputs rest
    cases x with
    | engine => exact .inl (engineTurn_answers hrest)
    | reset d => exact .inl ⟨_, rfl⟩
    | access a => exact .inr ⟨⟨a, rest, rfl⟩, hostAccess_noFault hrest a⟩

end

/-- Settles O51: every rule ends, so only a host access outside what the window takes is refused. -/
theorem invExcludesFaults : Obligations.InvExcludesFaults := by
  refine fun s h => ⟨fun f hf => ?_, fun r hr => ?_, exec_answers h⟩
  · rcases step_answers h with ⟨t, ht⟩ | ⟨-, hno⟩
    · rw [ht] at hf; cases hf
    · exact hno f hf
  · rcases step_answers h with ⟨t, ht⟩ | ⟨haccess, -⟩
    · rw [ht] at hr; cases hr
    · exact haccess
end Sys2Proof.Machine

namespace Sys2Proof.Machine

/-! ### What a rule does to CODE_WIDTH (41_code_width R97, R103) -/

/-- The dictionary of `t` is one that dictReset has just left (40_dictionary R85). -/
def FreshDict (t : State) : Prop := t.codeWidth = 8#4 ∧ t.dictSize = 256#13 ∧ NoEntries t.ht

/-- DICT_SIZE and CODE_WIDTH of `t` are those that one add in `s` leaves, the reset of a full dictionary included
(40_dictionary R88, 45_decoder R138); the width is the look-ahead width of 41_code_width R99. -/
def EntryCounted (s t : State) : Prop :=
  t.codeWidth = peekWidth s.dictSize s.codeWidth ∧
    t.dictSize = if s.dictSize.toNat = 4096 then 257#13 else s.dictSize + 1#13

/-- Everything a step can do to CODE_WIDTH: keep it, leave a fresh dictionary, or add an entry. -/
def WidthStep (s t : State) : Prop := t.codeWidth = s.codeWidth ∨ FreshDict t ∨ EntryCounted s t

section
variable {s : State}

theorem WidthStep.refl (s : State) : WidthStep s s := .inl rfl

theorem freshDict_dictReset (s : State) : FreshDict (dictReset s) := ⟨rfl, rfl, noEntries_clearOcc s.ht⟩

theorem resetIfFull_dictSize (s : State) :
    (resetIfFull s).dictSize = if s.dictSize.toNat = 4096 then 256#13 else s.dictSize := by
  unfold resetIfFull Config.capacity
  split <;> rfl

theorem resetIfFull_dictSize_add_one (s : State) :
    (resetIfFull s).dictSize + 1#13 = if s.dictSize.toNat = 4096 then 257#13 else s.dictSize + 1#13 := by
  rw [resetIfFull_dictSize]
  split <;> rfl

theorem resetIfFull_widthStep (s : State) : WidthStep s (resetIfFull s) := by
  rcases resetIfFull_cases s with ⟨e, -⟩ | ⟨e, -⟩ <;> rw [e]
  · exact .inr (.inl (freshDict_dictReset s))
  · exact .refl s

/-- The scheduler looks at DICT_SIZE and CODE_WIDTH only (41_code_width R97). -/
theorem cwsOnAdd_codeWidth_congr {s t : State} (hn : s.dictSize = t.dictSize) (hw : s.codeWidth = t.codeWidth) :
    (cwsOnAdd s).codeWidth = (cwsOnAdd t).codeWidth := by
  unfold cwsOnAdd
  rw [hn, hw]
  split
  · rfl
  · exact hw

theorem dictAdd_entryCounted (p : Code) (e : Byte) {Q : State → Prop} :
    (dictAdd p e s).Ends (fun _ => EntryCounted s) Q := by
  unfold dictAdd
  rcases dictInsert_cases p e (cwsOnAdd (resetIfFull s)) with ⟨n, -, -, -, hd⟩ | ⟨hd, -⟩ <;> rw [hd]
  · refine ⟨(peekWidth_eq s).symm, ?_⟩
    rw [cwsOnAdd_dictSize]
    exact resetIfFull_dictSize_add_one s
  · trivial

/-- An entry of the decoder counts as one of dictAdd does, what else was written since the reset aside
(45_decoder R138, R139). -/
theorem decAdd_entryCounted {u : State} (hn : u.dictSize = (resetIfFull s).dictSize)
    (hw : u.codeWidth = (resetIfFull s).codeWidth) (q : ByteSeq) : EntryCounted s (decAdd q u) := by
  refine ⟨?_, ?_⟩
  · rw [decAdd_codeWidth, peekWidth_eq, cwsOnAdd_codeWidth_congr hn hw]
  · rw [decAdd_dictSize, hn, resetIfFull_dictSize_add_one]

theorem encMiss_widthStep (e : Byte) (s : State) : (encMiss e s).Ends (fun _ => WidthStep s) (WidthStep s) := by
  unfold encMiss
  refine (bwWrite_ends _ _ (.refl s)).bind ?_
  rintro _ _ ⟨m, c, rfl, -⟩
  refine (dictAdd_entryCounted _ _).bind ?_
  exact fun _ _ hadd => .inr (.inr hadd)

theorem encMatchRule_widthStep (s : State) : (encMatchRule s).Ends (fun _ => WidthStep s) (WidthStep s) := by
  unfold encMatchRule
  split
  · refine ibufRead_bind_ends ((dictFind_ends _ _).bind ?_)
    rintro r _ ⟨n, rfl, -, -⟩
    refine Flow.Ends.bind (P := fun _ => WidthStep s) ?_ fun _ _ ht => ht
    split
    · exact .inl rfl
    · exact encMiss_widthStep _ { s with lastProbes := n }
  · exact .inl rfl

theorem encFlushRule_widthStep (s : State) : (encFlushRule s).Ends (fun _ => WidthStep s) (WidthStep s) := by
  unfold encFlushRule
  refine (bwWrite_ends _ _ (.refl s)).bind ?_
  rintro _ _ ⟨m, c, rfl, -⟩
  refine bwFinish_ends.bind ?_
  rintro n _ ⟨m', rfl, -⟩
  exact .inl rfl

theorem decFirstRule_widthStep (s : State) : (decFirstRule s).Ends (fun _ => WidthStep s) (WidthStep s) := by
  unfold decFirstRule
  refine (brRead_ends _ (.refl s)).bind ?_
  rintro c _ ⟨r, rfl, -⟩
  refine (decEmit_ends _ (.inl rfl)).bind ?_
  rintro _ _ ⟨m, k, rfl, -⟩
  exact .inl rfl

/-- An error after the reset of a full dictionary leaves the fresh one (45_decoder R139, R141). -/
theorem decCode_widthStep (c : Code) (s : State) : (decCode c s).Ends (fun _ => WidthStep s) (WidthStep s) := by
  have hreset := resetIfFull_widthStep s
  unfold decCode
  refine (decLookup_ends c hreset).bind ?_
  rintro q _ ⟨rfl, -⟩
  split
  · exact ⟨by decide, hreset⟩
  · refine (decEmit_ends q hreset).bind ?_
    rintro _ _ ⟨m, k, rfl, -⟩
    have hadd := decAdd_entryCounted (s := s) (u := { resetIfFull s with obuf := m, wcur := k }) rfl rfl
    exact .inr (.inr (hadd ((resetIfFull s).prev.snoc q.head)))

theorem decLoopRule_widthStep (s : State) : (decLoopRule s).Ends (fun _ => WidthStep s) (WidthStep s) := by
  unfold decLoopRule
  split
  · exact .inl rfl
  · refine (brRead_ends _ (.refl s)).bind ?_
    rintro c _ ⟨r, rfl, -⟩
    exact decCode_widthStep c { s with rcur := r, codes := s.codes + 1#32 }

theorem engineRule_widthStep (f : Fsm) (s : State) : (engineRule f s).Ends (fun _ => WidthStep s) (WidthStep s) := by
  cases f with
  | idle => trivial
  | encMatch => exact encMatchRule_widthStep s
  | encFlush => exact encFlushRule_widthStep s
  | decFirst => exact decFirstRule_widthStep s
  | decLoop => exact decLoopRule_widthStep s

theorem compressRule_widthStep (s : State) : (compressRule s).Ends (fun _ => WidthStep s) (WidthStep s) := by
  have hfresh : WidthStep s (dictReset s) := .inr (.inl (freshDict_dictReset s))
  unfold compressRule
  split
  · exact ⟨by decide, .refl s⟩
  · split
    · exact hfresh
    · exact ibufRead_bind_ends hfresh

theorem decompressRule_widthStep (s : State) : (decompressRule s).Ends (fun _ => WidthStep s) (WidthStep s) := by
  have hfresh : WidthStep s (dictReset s) := .inr (.inl (freshDict_dictReset s))
  unfold decompressRule
  split
  · exact ⟨by decide, .refl s⟩
  · split
    · exact hfresh
    · exact hfresh

theorem commandRule_widthStep (i : Instr) (s : State) :
    (commandRule i s).Ends (fun _ => WidthStep s) (WidthStep s) := by
  cases i with
  | nop | bwClear | brInit => exact .inl rfl
  | compress => exact compressRule_widthStep s
  | decompress => exact decompressRule_widthStep s
  | dictReset | softReset => exact .inr (.inl (freshDict_dictReset s))
  | dictFind p e =>
    refine (dictFind_ends p e).bind ?_
    rintro c _ ⟨n, rfl, -⟩
    exact .inl rfl
  | dictAdd p e => exact (dictAdd_entryCounted p e).bind fun _ _ hadd => .inr (.inr hadd)
  | bwWrite code width =>
    simp only [commandRule]
    split
    · exact ⟨by decide, .refl s⟩
    · refine (bwWrite_ends _ _ (.refl s)).imp ?_ fun _ hkept => hkept
      rintro _ _ ⟨m, c, rfl, -⟩
      exact .inl rfl
  | bwFinish =>
    refine bwFinish_ends.bind ?_
    rintro n _ ⟨m, rfl, -⟩
    exact .inl rfl
  | brRead width =>
    simp only [commandRule]
    split
    · exact ⟨by decide, .refl s⟩
    · refine (brRead_ends _ (.refl s)).bind ?_
      rintro c _ ⟨r, rfl, -⟩
      exact .inl rfl

end

/-! ### Where CODE_WIDTH changes (41_code_width R103) -/

section
variable {s t : State}

theorem engineTurn_widthStep (h : engineTurn s = .next t) : WidthStep s t := by
  cases hb : s.status.busy with
  | false => rw [engineTurn_idle hb] at h; cases h; exact .refl s
  | true =>
    rw [engineTurn_eq hb] at h
    rcases runStep_ends h (engineRule_widthStep s.fsm s) with hu | ⟨e, u, -, hu, rfl⟩
    · exact hu
    · exact hu

theorem exec_widthStep {i : Instr} (h : exec i s = .next t) : WidthStep s t := by
  rw [exec_eq] at h
  cases hb : s.status.busy with
  | true => rw [runCommand_busy hb] at h; cases h; exact .refl s
  | false =>
    rcases runCommand_ends h hb (commandRule_widthStep i _) with ⟨u, hu, rfl⟩ | ⟨e, u, -, hu, rfl⟩
    · split
      · exact hu
      · exact hu
    · exact hu

theorem HostEffect.codeWidth_eq (h : HostEffect s t) : t.codeWidth = s.codeWidth := by cases h <;> rfl

theorem illegalCommand_codeWidth (h : illegalCommand s = .next t) : t.codeWidth = s.codeWidth := by
  rcases illegalCommand_next h with rfl | ⟨-, rfl⟩ <;> rfl

theorem step_widthStep (h : step s = .next t) : WidthStep s t := by
  obtain ⟨rest, h | ⟨d, rfl⟩ | h | ⟨v, i, -, -, h⟩ | h⟩ := step_next h
  · exact engineTurn_widthStep (s := { s with inputs := rest }) h
  · exact .inr (.inl ⟨rfl, rfl, noEntries_clearOcc _⟩)
  · exact .inl h.codeWidth_eq
  · exact exec_widthStep (s := { s with inputs := rest }) h
  · exact .inl (illegalCommand_codeWidth (s := { s with inputs := rest }) h)

/-- The width that DICT_SIZE has filled is one of the powers of 2 below capacity, and DICT_SIZE stands at it. -/
theorem DictOk.size_of_full_width (h : DictOk s) (hfull : 2 ^ s.codeWidth.toNat ≤ s.dictSize.toNat)
    (hlt : s.codeWidth.toNat < 12) :
    s.dictSize.toNat = 256 ∨ s.dictSize.toNat = 512 ∨ s.dictSize.toNat = 1024 ∨ s.dictSize.toNat = 2048 := by
  have hsize : s.dictSize.toNat = 2 ^ s.codeWidth.toNat := le_antisymm h.fits hfull
  have hge := h.width_ge
  rw [hsize]
  obtain e | e | e | e : s.codeWidth.toNat = 8 ∨ s.codeWidth.toNat = 9 ∨ s.codeWidth.toNat = 10 ∨
    s.codeWidth.toNat = 11 := by omega
  all_goals
    rw [e]
    decide

/-- An add keeps the width or raises it by 1 at a power of 2; at capacity it is the first add of a fresh dictionary. -/
theorem EntryCounted.width_cases (h : EntryCounted s t) (hd : DictOk s) :
    t.codeWidth = s.codeWidth ∨
      (t.codeWidth.toNat = s.codeWidth.toNat + 1 ∧ t.dictSize.toNat = s.dictSize.toNat + 1 ∧
        (s.dictSize.toNat = 256 ∨ s.dictSize.toNat = 512 ∨ s.dictSize.toNat = 1024 ∨ s.dictSize.toNat = 2048)) ∨
      (s.dictSize.toNat = 4096 ∧ t.codeWidth.toNat = 9 ∧ t.dictSize.toNat = 257) := by
  obtain ⟨hwidth, hsize⟩ := h
  rw [peekWidth_eq] at hwidth
  rcases resetIfFull_cases s with ⟨e, hfull⟩ | ⟨e, hroom⟩ <;> rw [e] at hwidth
  · rw [if_pos hfull] at hsize
    refine .inr (.inr ⟨hfull, ?_, by rw [hsize]; rfl⟩)
    rw [hwidth]
    rfl
  · rw [if_neg hroom] at hsize
    rcases cwsOnAdd_cases s with ⟨hc, hreached, hlt⟩ | ⟨hc, -⟩ <;> rw [hc] at hwidth
    · have hplus : (s.codeWidth + 1#4).toNat = s.codeWidth.toNat + 1 := by
        rw [BitVec.toNat_add, BitVec.toNat_ofNat]; omega
      have hbelow : s.dictSize.toNat < 4096 := lt_of_le_of_ne hd.size_le hroom
      exact .inr (.inl ⟨by rw [hwidth, hplus], by rw [hsize, dictSize_add_one hbelow],
        hd.size_of_full_width hreached hlt⟩)
    · exact .inl hwidth

end

/-- Settles O26: a step keeps the width, leaves a fresh dictionary or adds an entry, and an add grows the width only
where DICT_SIZE has reached a power of 2. -/
theorem widthChangesOnlyAtBoundaries : Obligations.WidthChangesOnlyAtBoundaries := by
  intro s t h ht
  have hdict := (stepKeepsInv s t h ht).dict
  refine ⟨hdict.width_ge, hdict.width_le, ?_⟩
  rcases step_widthStep ht with hkept | ⟨hwidth, hsize, hempty⟩ | hadd
  · exact .inl hkept
  · exact .inr (.inr (.inl ⟨by rw [hwidth]; rfl, by rw [hsize]; rfl, hempty⟩))
  · rcases hadd.width_cases h.dict with hkept | hgrown | hreset
    · exact .inl hkept
    · exact .inr (.inl hgrown)
    · exact .inr (.inr (.inr hreset))

end Sys2Proof.Machine

namespace Sys2Proof.Machine

/-! ### BW_WRITE's words (30_encoding R69 to R73) -/

/-- The upper 11 bits of a word of format W or R are its opcode and seven reserved bits (30_encoding R69). -/
theorem formatWR_of_upperBits {v : Word} {b : BitVec 11} (h : v.extractLsb' 21 11 = b) :
    opOf v = b.extractLsb' 7 4 ∧ v.extractLsb' 21 7 = b.extractLsb' 0 7 := by
  subst h
  exact ⟨(extractLsb'_of_extractLsb' v (start := 21) (start' := 7) (by decide)).symm,
    (extractLsb'_of_extractLsb' v (start := 21) (start' := 0) (by decide)).symm⟩

/-- A word with the opcode of BW_WRITE and no reserved bit set is legal exactly when W ≤ 16 (30_encoding R71, R73). -/
theorem decode_formatW {v : Word} (hop : opOf v = 0x7#4) (hres : v.extractLsb' 21 7 = 0#7) :
    decode v = if (widthOf v).toNat ≤ 16 then .ok (.bwWrite (codeOf v) (widthOf v)) else .error .widthRange := by
  simp [decode, decodeW, hop, hres]

/-! ### `bwWrite` and `bwFinish` as a whole (42_bitwriter R108 to R110) -/

section
variable {s : State}

/-- A code that fits is appended at WCUR, no byte but those of the code changes, and no state but OBUF and WCUR
(42_bitwriter R108). -/
theorem OutputRoom.bwWrite_run (h : OutputRoom s) {code : Code} {w : Nat}
    (hfit : ceil8 (s.wcur.toNat + w) ≤ s.outCap.toNat) :
    ∃ m : Memory, bwWrite code w s = .done () { s with obuf := m, wcur := s.wcur + BitVec.ofNat 32 w } ∧ m.wf ∧
      (s.wcur + BitVec.ofNat 32 w).toNat = s.wcur.toNat + w ∧ CodeAppended s.obuf m s.wcur.toNat code w ∧
      ∀ a, a < s.wcur.toNat / 8 ∨ ceil8 (s.wcur.toNat + w) ≤ a → m.read a = s.obuf.read a := by
  obtain ⟨hwf, ⟨-, -, -, -, hobuf⟩, hcap⟩ := h
  have hend : s.wcur.toNat + w ≤ 8 * s.outCap.toNat := by unfold ceil8 at hfit; omega
  obtain ⟨m, hm, hmwf, hother, -, hbits⟩ := bwPutBits_run (code := code) (n := w) hwf (by omega) (by omega)
  refine ⟨m, (if_neg (by omega)).trans hm, hmwf, ?_, hbits, fun a ha => hother a fun q hlo hhi => ?_⟩
  · rw [BitVec.toNat_add, BitVec.toNat_ofNat]; omega
  · unfold ceil8 at ha; omega

/-- `bwFinish` pads the last byte, answers the number of bytes, and changes no state but OBUF (42_bitwriter R110). -/
theorem bwFinish_run (hwf : s.obuf.wf) (hcap : s.wcur.toNat % 8 ≠ 0 → s.wcur.toNat / 8 < s.params.obufCap) :
    ∃ m : Memory, bwFinish s = .done (BitVec.ofNat 32 (ceil8 s.wcur.toNat)) { s with obuf := m } ∧
      ByteFinished s.obuf m s.wcur.toNat ∧
      ∀ a, s.wcur.toNat % 8 = 0 ∨ a ≠ s.wcur.toNat / 8 → m.read a = s.obuf.read a := by
  by_cases hwhole : s.wcur.toNat % 8 = 0
  · exact ⟨s.obuf, bwFinish_whole hwhole, fun q => by simp [hwhole], fun _ _ => rfl⟩
  · obtain ⟨m, hm, -, hother, -, hbits⟩ := bwFinish_partial hwf hwhole (hcap hwhole)
    refine ⟨m, hm, fun q => ?_, fun a ha => hother a (ha.resolve_left hwhole)⟩
    rw [hbits q]
    simp only [ne_eq, hwhole, not_false_eq_true, true_and]

end

/-! ### A stream of codes (42_bitwriter R111) -/

theorem codeBits_length (c : Code) (w : Nat) : (codeBits c w).length = w := by simp [codeBits]

/-- The bits of the first code lead the stream; the other codes follow. -/
theorem streamOf_cons_getD (x : Code × Nat) (l : List (Code × Nat)) (k : Nat) :
    (streamOf (x :: l)).getD k false
      = if k < x.2 then x.1.getLsbD (x.2 - 1 - k) else (streamOf l).getD (k - x.2) false := by
  have hlen := codeBits_length x.1 x.2
  rw [streamOf]
  split
  case isTrue hk =>
    rw [List.getD_append _ _ _ _ (by omega)]
    simp [codeBits, hk]
  case isFalse hk => rw [List.getD_append_right _ _ _ _ (by omega), hlen]

/-- The number of bits of the codes together. -/
def streamBits (l : List (Code × Nat)) : Nat := (l.map Prod.snd).sum

theorem streamBits_cons (x : Code × Nat) (l : List (Code × Nat)) : streamBits (x :: l) = x.2 + streamBits l := by
  simp [streamBits]

/-- Buffer `new` holds the stream of the codes `l` from bit position `pos` on, and buffer `old` before it. -/
def StreamAppended (old new : Memory) (pos : Nat) (l : List (Code × Nat)) : Prop :=
  ∀ q < pos + streamBits l,
    bufBit new q = if q < pos then bufBit old q else (streamOf l).getD (q - pos) false

theorem StreamAppended.nil (m : Memory) (pos : Nat) : StreamAppended m m pos [] := fun q hq => by
  rw [if_pos (by simpa [streamBits] using hq)]

/-- A code and a stream appended after it are one stream. -/
theorem StreamAppended.cons {old mid new : Memory} {pos : Nat} {x : Code × Nat} {l : List (Code × Nat)}
    (hcode : CodeAppended old mid pos x.1 x.2) (hrest : StreamAppended mid new (pos + x.2) l) :
    StreamAppended old new pos (x :: l) := by
  intro q hq
  rw [streamBits_cons] at hq
  rw [hrest q (by omega), hcode q, streamOf_cons_getD]
  by_cases hold : q < pos
  · rw [if_pos (by omega), if_pos hold, if_pos hold]
  by_cases hfirst : q < pos + x.2
  · rw [if_pos hfirst, if_neg hold, if_pos hfirst, if_neg hold, if_pos (by omega)]
    congr 1
    omega
  · rw [if_neg hfirst, if_neg hold, if_neg (by omega), Nat.sub_sub]

/-- Codes that fit together are written one after another, and no state but OBUF and WCUR changes. -/
theorem OutputRoom.writeAll_run {s : State} (h : OutputRoom s) {l : List (Code × Nat)}
    (hfit : ceil8 (s.wcur.toNat + streamBits l) ≤ s.outCap.toNat) :
    ∃ (m : Memory) (c : Word), writeAll l s = .done () { s with obuf := m, wcur := c } ∧ m.wf ∧
      c.toNat = s.wcur.toNat + streamBits l ∧ StreamAppended s.obuf m s.wcur.toNat l := by
  induction l generalizing s with
  | nil => exact ⟨s.obuf, s.wcur, rfl, h.obuf_wf, rfl, .nil _ _⟩
  | cons x l ih =>
    rw [streamBits_cons, ← Nat.add_assoc] at hfit
    obtain ⟨m, hm, hmwf, hwcur, hcode, -⟩ :=
      h.bwWrite_run (code := x.1) (w := x.2) (by unfold ceil8 at hfit ⊢; omega)
    obtain ⟨n, c, hn, hnwf, hc, hrest⟩ :=
      ih (s := { s with obuf := m, wcur := s.wcur + BitVec.ofNat 32 x.2 }) { h with obuf_wf := hmwf }
        (by rw [hwcur]; exact hfit)
    simp only [hwcur] at hc hrest
    refine ⟨n, c, ?_, hnwf, ?_, hrest.cons hcode⟩
    · rw [writeAll, hm, Flow.bind_done, hn]
    · rw [hc, streamBits_cons, Nat.add_assoc]

/-- Settles O30, by induction on the codes: each code is appended to the stream before it, and bwFinish pads the last
byte. -/
theorem writtenStreamIsConcatenation : Obligations.WrittenStreamIsConcatenation := by
  intro s l hlegal hwf hcap hzero hfit
  have hstart : s.wcur.toNat = 0 := by rw [hzero]; rfl
  obtain ⟨m, c, hwrite, hmwf, hc, hstream⟩ :=
    OutputRoom.writeAll_run (s := s) (l := l) ⟨hwf, hlegal, hcap⟩ (by rw [hstart, Nat.zero_add]; exact hfit)
  rw [hstart, Nat.zero_add] at hc
  rw [hstart] at hstream
  have hbytes : ceil8 c.toNat ≤ s.params.obufCap := by rw [hc]; exact hfit.trans hcap
  obtain ⟨n, hfinish, hpad, -⟩ := bwFinish_run (s := { s with obuf := m, wcur := c }) hmwf
    (by simp only [ceil8] at hbytes ⊢; omega)
  refine ⟨_, _, _, hwrite, hfinish, hc, rfl, ?_, fun p hp => ?_, fun p hlo hhi => ?_⟩
  · obtain ⟨-, -, -, -, hobuf⟩ := hlegal
    rw [BitVec.toNat_ofNat]
    simp only
    omega
  · rw [hpad p, if_neg (by simp only at hp ⊢; omega), hstream p (by simpa [hc] using hp)]
    simp
  · rw [hpad p, if_pos (by simp only [ceil8] at hlo hhi ⊢; omega)]

/-! ### The BitWriter commands at issue (42_bitwriter R112 to R114) -/

/-- A command whose rule raised an error changes STATUS and FSM alone after it (60_exceptions R162). -/
theorem exec_raised {i : Instr} {e : ErrCode} {s t : State} (hb : s.status.busy = false)
    (h : commandRule i (clearFlags s) = .raised e t) :
    exec i s = .next { t with status := statusError e, fsm := .idle } := by
  rw [exec_eq, runCommand_raised hb h]
  rfl

section
variable {s : State} {code : Code} {width : BitVec 5} {m : Memory}

/-- BW_WRITE with OUT_CAP past the buffer (42_bitwriter R113). -/
theorem commandRule_bwWrite_configRange (h : s.params.obufCap < s.outCap.toNat) :
    commandRule (.bwWrite code width) s = .raised .configRange s := if_pos h

/-- BW_WRITE with OUT_CAP within the buffer is `bwWrite` (42_bitwriter R113). -/
theorem commandRule_bwWrite (h : s.outCap.toNat ≤ s.params.obufCap) :
    commandRule (.bwWrite code width) s = bwWrite code width.toNat s := if_neg (Nat.not_lt.2 h)

/-- A code that does not fit is not written (42_bitwriter R108). -/
theorem bwWrite_overflow {w : Nat} (h : s.outCap.toNat < ceil8 (s.wcur.toNat + w)) :
    bwWrite code w s = .raised .outputOverflow s := if_pos h

/-- BW_WRITE of a code that bwWrite writes (42_bitwriter R113). -/
theorem exec_bwWrite {c : Word} (hb : s.status.busy = false) (hcap : s.outCap.toNat ≤ s.params.obufCap)
    (h : bwWrite code width.toNat (clearFlags s) = .done () { clearFlags s with obuf := m, wcur := c }) :
    exec (.bwWrite code width) s = .next { s with status := statusDone, obuf := m, wcur := c } :=
  exec_done hb ((commandRule_bwWrite (s := clearFlags s) hcap).trans h) rfl

/-- BW_FINISH reports what bwFinish answers (42_bitwriter R114). -/
theorem exec_bwFinish {n : Word} (hb : s.status.busy = false)
    (h : bwFinish (clearFlags s) = .done n { clearFlags s with obuf := m }) :
    exec .bwFinish s = .next
      { s with status := statusDone, obuf := m, outLen := n, outBits := s.wcur, result := n } :=
  exec_done (t := { clearFlags s with obuf := m, outLen := n, outBits := s.wcur, result := n }) hb
    (by simp only [commandRule, h, Flow.bind_done, clearFlags_wcur]) rfl

end

/-- Settles O28: the words of format W, and the three ways the rule of BW_WRITE ends. -/
theorem bwWriteAppendsCode : Obligations.BwWriteAppendsCode := by
  refine ⟨fun v hv => ?_, fun s c w hb => ⟨fun hrange => ?_, fun hcap hover => ?_, fun hcap hfit hlegal hwf => ?_⟩⟩
  · obtain ⟨hop, hres⟩ := formatWR_of_upperBits hv
    exact decode_formatW hop hres
  · exact exec_raised (t := clearFlags s) hb (commandRule_bwWrite_configRange hrange)
  · exact exec_raised (t := clearFlags s) hb
      ((commandRule_bwWrite (s := clearFlags s) hcap).trans (bwWrite_overflow hover))
  · obtain ⟨m, hm, -, hwcur, hcode, hother⟩ :=
      OutputRoom.bwWrite_run (s := clearFlags s) (code := c) ⟨hwf, hlegal, hcap⟩ hfit
    exact ⟨m, exec_bwWrite hb hcap hm, hwcur, hcode, hother⟩

/-- Settles O29: the rule of BW_FINISH is bwFinish and the result registers. -/
theorem bwFinishPadsLastByte : Obligations.BwFinishPadsLastByte := by
  refine ⟨rfl, fun s hb hwf hcap => ?_⟩
  obtain ⟨m, hm, hpad, hother⟩ := bwFinish_run (s := clearFlags s) hwf hcap
  exact ⟨m, exec_bwFinish hb hm, hpad, hother⟩

/-- Settles O27: the rule of BW_CLEAR is one assignment. -/
theorem bwClearZeroesCursor : Obligations.BwClearZeroesCursor :=
  ⟨rfl, fun s hb => exec_done (t := { clearFlags s with wcur := 0#32 }) hb rfl rfl⟩

end Sys2Proof.Machine

namespace Sys2Proof.Machine

/-! ### BR_READ's words (30_encoding R69 to R73) -/

/-- A word with the opcode of BR_READ and no reserved bit set is legal exactly when W ≤ 16 (30_encoding R71, R73). -/
theorem decode_formatR {v : Word} (hop : opOf v = 0xA#4) (hhigh : v.extractLsb' 21 7 = 0#7)
    (hlow : v.extractLsb' 0 16 = 0#16) :
    decode v = if (widthOf v).toNat ≤ 16 then .ok (.brRead (widthOf v)) else .error .widthRange := by
  simp [decode, decodeR, hop, hhigh, hlow]

/-! ### `brRead` as a whole (43_bitreader R116) -/

section
variable {s : State} {w : Nat}

/-- A read of no bits answers 0 and reads nothing, wherever RCUR stands (43_bitreader R116). -/
theorem brRead_zero (s : State) : brRead 0 s = .done 0#16 s := rfl

/-- A read of more bits than remain raises TRUNCATED before RCUR moves (43_bitreader R116). -/
theorem brRead_truncated (h : s.inBits.toNat - s.rcur.toNat < w) : brRead w s = .raised .truncated s := if_pos h

/-- A read of bits that remain answers them, the first as bit `w - 1`, and no state but RCUR changes
(43_bitreader R116). -/
theorem brRead_run (hin : s.inBits.toNat ≤ 8 * s.params.ibufCap) (hw : w ≤ s.inBits.toNat - s.rcur.toNat) :
    ∃ c : Code, brRead w s = .done c { s with rcur := s.rcur + BitVec.ofNat 32 w } ∧
      (s.rcur + BitVec.ofNat 32 w).toNat = s.rcur.toNat + w ∧
      ∀ j < 16, c.getLsbD j = if j < w then bufBit s.ibuf (s.rcur.toNat + w - 1 - j) else false := by
  obtain rfl | hpos := Nat.eq_zero_or_pos w
  · exact ⟨0#16, by rw [brRead_zero, BitVec.add_zero], by rw [BitVec.add_zero, Nat.add_zero], fun j _ => by simp⟩
  · have hend : s.rcur.toNat + w ≤ s.inBits.toNat := by omega
    obtain ⟨c, hc, hbits⟩ := brGetBits_run (v := 0#16) (n := w) (s := s) (by omega) (by omega)
    refine ⟨c, (if_neg (by omega)).trans hc, ?_, fun j hj => by rw [hbits j hj, BitVec.getLsbD_zero]⟩
    rw [BitVec.toNat_add, BitVec.toNat_ofNat]
    omega

end

/-! ### Reading a stream of codes back (43_bitreader R118) -/

/-- `c mod 2^w`, what the stream keeps of a code written at width `w` (43_bitreader R118). -/
def codeMod (c : Code) (w : Nat) : Code := BitVec.ofNat 16 (c.toNat % 2 ^ w)

theorem getLsbD_codeMod (c : Code) (w : Nat) {j : Nat} (hj : j < 16) :
    (codeMod c w).getLsbD j = if j < w then c.getLsbD j else false := by
  rw [codeMod, BitVec.getLsbD_ofNat, Nat.testBit_mod_two_pow, BitVec.testBit_toNat]
  split <;> simp [*]

/-- Buffer `m` holds the stream of the codes `l` from bit position `pos` on. -/
def HoldsStream (m : Memory) (pos : Nat) (l : List (Code × Nat)) : Prop :=
  ∀ k < streamBits l, bufBit m (pos + k) = (streamOf l).getD k false

/-- The first code's bits stand at the head of the stream, the most significant first. -/
theorem HoldsStream.head {m : Memory} {pos : Nat} {x : Code × Nat} {l : List (Code × Nat)}
    (h : HoldsStream m pos (x :: l)) {j : Nat} (hj : j < x.2) : bufBit m (pos + x.2 - 1 - j) = x.1.getLsbD j := by
  have hbit := h (x.2 - 1 - j) (by rw [streamBits_cons]; omega)
  rw [streamOf_cons_getD, if_pos (by omega)] at hbit
  rw [show pos + x.2 - 1 - j = pos + (x.2 - 1 - j) by omega, hbit]
  congr 1
  omega

/-- The other codes' stream stands behind the first code. -/
theorem HoldsStream.tail {m : Memory} {pos : Nat} {x : Code × Nat} {l : List (Code × Nat)}
    (h : HoldsStream m pos (x :: l)) : HoldsStream m (pos + x.2) l := fun k hk => by
  have hbit := h (x.2 + k) (by rw [streamBits_cons]; omega)
  rw [streamOf_cons_getD, if_neg (by omega), Nat.add_sub_cancel_left] at hbit
  rw [Nat.add_assoc, hbit]

/-- The codes of a stream that stands at RCUR and ends within IN_BITS are read one after another, each cut to its width,
and no state but RCUR changes. -/
theorem readAll_run {u : State} {l : List (Code × Nat)} (hin : u.inBits.toNat ≤ 8 * u.params.ibufCap)
    (hfit : u.rcur.toNat + streamBits l ≤ u.inBits.toNat) (h : HoldsStream u.ibuf u.rcur.toNat l) :
    ∃ c : Word, readAll (l.map Prod.snd) u = .done (l.map fun x => codeMod x.1 x.2) { u with rcur := c } ∧
      c.toNat = u.rcur.toNat + streamBits l := by
  induction l generalizing u with
  | nil => exact ⟨u.rcur, rfl, rfl⟩
  | cons x l ih =>
    rw [streamBits_cons, ← Nat.add_assoc] at hfit
    obtain ⟨r, hr, hrcur, hbits⟩ := brRead_run (s := u) (w := x.2) hin (by omega)
    have hcode : r = codeMod x.1 x.2 := BitVec.eq_of_getLsbD_eq fun j hj => by
      rw [hbits j hj, getLsbD_codeMod _ _ hj]
      exact ite_congr rfl (fun hjw => h.head hjw) fun _ => rfl
    obtain ⟨c, hc, hend⟩ := ih (u := { u with rcur := u.rcur + BitVec.ofNat 32 x.2 }) hin
      (by rw [hrcur]; exact hfit) (by rw [hrcur]; exact h.tail)
    refine ⟨c, ?_, ?_⟩
    · rw [List.map_cons, readAll, hr, Flow.bind_done, hc, hcode]
      rfl
    · rw [hend, hrcur, streamBits_cons, Nat.add_assoc]

/-- A sequence of writes that ran to its end fitted below OUT_CAP: the last check of bwWrite covers every bit. -/
theorem OutputRoom.fits_of_writeAll {s t : State} (h : OutputRoom s) {l : List (Code × Nat)}
    (hstart : ceil8 s.wcur.toNat ≤ s.outCap.toNat) (hwrite : writeAll l s = .done () t) :
    ceil8 (s.wcur.toNat + streamBits l) ≤ s.outCap.toNat := by
  induction l generalizing s with
  | nil => exact hstart
  | cons x l ih =>
    obtain ⟨⟨⟩, mid, hfirst, hrest⟩ := Flow.bind_eq_done.1 hwrite
    obtain ⟨e, -⟩ | ⟨hroom, -⟩ := bwWrite_cases x.1 x.2 s
    · rw [e] at hfirst
      cases hfirst
    · obtain ⟨m, hm, hmwf, hwcur, -, -⟩ := h.bwWrite_run (code := x.1) hroom
      rw [hm] at hfirst
      cases hfirst
      have hfit := ih (s := { s with obuf := m, wcur := s.wcur + BitVec.ofNat 32 x.2 }) { h with obuf_wf := hmwf }
        (by rw [hwcur]; exact hroom) hrest
      rw [hwcur, Nat.add_assoc, ← streamBits_cons] at hfit
      exact hfit

/-- Codes written from WCUR = 0 on stand in OBUF as one stream of WCUR bits (42_bitwriter R111). -/
theorem OutputRoom.writeAll_from_zero {s t : State} (h : OutputRoom s) {l : List (Code × Nat)} (hzero : s.wcur = 0#32)
    (hwrite : writeAll l s = .done () t) : t.wcur.toNat = streamBits l ∧ HoldsStream t.obuf 0 l := by
  have hstart : s.wcur.toNat = 0 := by rw [hzero]; rfl
  obtain ⟨m, c, hrun, -, hc, hstream⟩ := h.writeAll_run (h.fits_of_writeAll (by simp [hstart, ceil8]) hwrite)
  rw [hrun] at hwrite
  cases hwrite
  rw [hstart] at hc hstream
  exact ⟨hc.trans (Nat.zero_add _), fun k hk => by simpa using hstream (0 + k) (by omega)⟩

/-- A buffer with the same bytes holds the same stream. -/
theorem HoldsStream.copy {m n : Memory} {l : List (Code × Nat)} (h : HoldsStream m 0 l)
    (hbytes : ∀ a < ceil8 (streamBits l), n.read a = m.read a) : HoldsStream n 0 l := fun k hk => by
  rw [← h k hk, bufBit, bufBit, hbytes _ (by unfold ceil8; omega)]

/-- Settles O33: the bytes copied to IBUF hold the written codes' stream, reading it back is an induction on the codes,
and at its end no bit remains. -/
theorem readerInvertsWriter : Obligations.ReaderInvertsWriter := by
  intro s t u l hlegal hwf hcap hwcur _ hwrite hrcur hin hinCap hcopy
  obtain ⟨hbits, hheld⟩ := OutputRoom.writeAll_from_zero ⟨hwf, hlegal, hcap⟩ hwcur hwrite
  have hstart : u.rcur.toNat = 0 := by rw [hrcur]; rfl
  rw [hbits] at hcopy
  obtain ⟨c, hread, hc⟩ := readAll_run (u := u) hinCap (by rw [hstart, hin, hbits, Nat.zero_add])
    (by rw [hstart]; exact hheld.copy hcopy)
  have hend : c = u.inBits := BitVec.eq_of_toNat_eq (by rw [hc, hstart, hin, hbits, Nat.zero_add])
  rw [hend] at hread
  exact ⟨hread, fun w hw => brRead_truncated (by simp only; omega)⟩

/-! ### The BitReader commands at issue (43_bitreader R120, R121) -/

section
variable {s : State} {width : BitVec 5}

/-- BR_READ with IN_BITS past the buffer (43_bitreader R121). -/
theorem commandRule_brRead_configRange (h : 8 * s.params.ibufCap < s.inBits.toNat) :
    commandRule (.brRead width) s = .raised .configRange s := if_pos h

/-- BR_READ with IN_BITS within the buffer is `brRead`, whose code goes to RESULT (43_bitreader R121). -/
theorem commandRule_brRead (h : s.inBits.toNat ≤ 8 * s.params.ibufCap) :
    commandRule (.brRead width) s =
      (brRead width.toNat s).bind fun c u => .done () { u with result := c.setWidth 32 } := if_neg (Nat.not_lt.2 h)

/-- BR_READ of bits that brRead reads (43_bitreader R121). -/
theorem exec_brRead {c : Code} {r : Word} (hb : s.status.busy = false) (hin : s.inBits.toNat ≤ 8 * s.params.ibufCap)
    (h : brRead width.toNat (clearFlags s) = .done c { clearFlags s with rcur := r }) :
    exec (.brRead width) s = .next { s with status := statusDone, rcur := r, result := c.setWidth 32 } :=
  exec_done (t := { clearFlags s with rcur := r, result := c.setWidth 32 }) hb
    (by rw [commandRule_brRead (s := clearFlags s) hin, h, Flow.bind_done]) rfl

end

/-- Settles O32: the words of format R, and the three ways the rule of BR_READ ends. -/
theorem brReadExtractsBits : Obligations.BrReadExtractsBits := by
  refine ⟨fun v hv hlow => ?_, fun s w hb => ⟨fun hrange => ?_, fun hin hshort => ?_, fun hin hrest => ?_⟩⟩
  · obtain ⟨hop, hhigh⟩ := formatWR_of_upperBits hv
    exact decode_formatR hop hhigh hlow
  · exact exec_raised (t := clearFlags s) hb (commandRule_brRead_configRange hrange)
  · refine exec_raised (t := clearFlags s) hb ?_
    rw [commandRule_brRead (s := clearFlags s) hin, brRead_truncated (s := clearFlags s) hshort, Flow.bind_raised]
  · obtain ⟨c, hc, hrcur, hbits⟩ := brRead_run (s := clearFlags s) hin hrest
    exact ⟨c, exec_brRead hb hin hc, hrcur, hbits⟩

/-- Settles O31: the rule of BR_INIT is one assignment. -/
theorem brInitZeroesCursor : Obligations.BrInitZeroesCursor :=
  ⟨rfl, fun s hb => exec_done (t := setRcur 0#32 (clearFlags s)) hb rfl rfl⟩

end Sys2Proof.Machine

namespace Sys2Proof.Machine

/-! ### COMPRESS at issue (44_encoder R122) -/

section
variable {s : State}

/-- The state in which COMPRESS leaves a pass that it has begun (44_encoder R122). -/
def encStart (s : State) : State :=
  { s with
    status := statusBusy, outLen := 0#32, outBits := 0#32, codes := 0#32, dictResets := 0#32, ht := clearOcc s.ht,
    dictSize := 256#13, codeWidth := 8#4, wcur := 0#32, ipos := 1#32, pfx := (s.ibuf.read 0).setWidth 16,
    fsm := .encMatch }

theorem compressRule_configRange (h : s.params.ibufCap < s.inLen.toNat ∨ s.params.obufCap < s.outCap.toNat) :
    compressRule s = .raised .configRange s := if_pos h

theorem compressRule_inRange (hin : s.inLen.toNat ≤ s.params.ibufCap) (hout : s.outCap.toNat ≤ s.params.obufCap) :
    compressRule s =
      if s.inLen = 0#32 then .done () (setEmpty (setIpos 0#32 (passStart s)))
      else
        (ibufRead 0 (setIpos 0#32 (passStart s))).bind fun b t =>
          .done () (startEngine .encMatch { t with pfx := b.setWidth 16, ipos := 1#32 }) :=
  if_neg (not_or.2 ⟨Nat.not_lt.2 hin, Nat.not_lt.2 hout⟩)

theorem word_pos {n : Word} (h : n ≠ 0#32) : 0 < n.toNat := Nat.pos_of_ne_zero fun e => h (BitVec.eq_of_toNat_eq e)

/-- COMPRESS of an empty input is done at issue (44_encoder R122). -/
theorem exec_compress_empty (hb : s.status.busy = false) (hin : s.inLen.toNat ≤ s.params.ibufCap)
    (hout : s.outCap.toNat ≤ s.params.obufCap) (hzero : s.inLen = 0#32) :
    exec .compress s = .next
      { s with
        status := statusEmpty, outLen := 0#32, outBits := 0#32, codes := 0#32, dictResets := 0#32, ht := clearOcc s.ht,
        dictSize := 256#13, codeWidth := 8#4, wcur := 0#32, ipos := 0#32 } := by
  have hrule : commandRule .compress (clearFlags s) = .done () (setEmpty (setIpos 0#32 (passStart (clearFlags s)))) :=
    (compressRule_inRange (s := clearFlags s) hin hout).trans (if_pos hzero)
  rw [exec_eq, runCommand_done hb hrule, if_neg (by simp [hb])]
  simp [setDone, setEmpty, setIpos, passStart, clearCounters, dictReset, clearFlags, hb, statusEmpty]

/-- COMPRESS of an input begins a pass (44_encoder R122). -/
theorem exec_compress_start (hb : s.status.busy = false) (hin : s.inLen.toNat ≤ s.params.ibufCap)
    (hout : s.outCap.toNat ≤ s.params.obufCap) (hne : s.inLen ≠ 0#32) : exec .compress s = .next (encStart s) := by
  have hpos := word_pos hne
  have hbyte : ibufRead 0 (setIpos 0#32 (passStart (clearFlags s)))
      = .done (s.ibuf.read 0) (setIpos 0#32 (passStart (clearFlags s))) :=
    if_pos (show 0 < s.params.ibufCap by omega)
  have hrule := (compressRule_inRange (s := clearFlags s) hin hout).trans (if_neg hne)
  rw [hbyte, Flow.bind_done] at hrule
  exact (exec_eq .compress s).trans ((runCommand_done hb hrule).trans (congrArg Host.Outcome.next (if_pos rfl)))

end

/-- Settles O34: the three ways the rule of COMPRESS ends. -/
theorem compressIssueStartsPass : Obligations.CompressIssueStartsPass := fun s hb =>
  ⟨clearOcc_occ s.ht, fun hrange => exec_raised (t := clearFlags s) hb (compressRule_configRange hrange),
    exec_compress_empty hb, exec_compress_start hb⟩

/-! ### The ENC_MATCH step (44_encoder R123) -/

section
variable {s : State}

/-- The byte that the ENC_MATCH step looks up with PREFIX. -/
def nextByte (s : State) : Byte := s.ibuf.read s.ipos.toNat

/-- dictFind of a key that is no root's changes LAST_PROBES alone, and a code it finds is a live added one. -/
theorem DictOk.dictFind_live (h : DictOk s) {p : Code} (hp : p ≠ Config.invalid) (e : Byte) :
    ∃ (r : Code) (k : BitVec 13), dictFind p e s = .done r { s with lastProbes := k } ∧
      (r ≠ Config.notFound → 256 ≤ r.toNat ∧ r.toNat < s.dictSize.toNat) := by
  rcases dictFind_cases hp e s with ⟨r, n, -, -, hend, hfind⟩ | ⟨-, hocc⟩
  · refine ⟨r, _, hfind, fun hr => ?_⟩
    rcases hend with ⟨-, rfl⟩ | ⟨hocc, -, rfl⟩
    · exact absurd rfl hr
    · exact h.live_slot hocc
  · exact absurd hocc h.not_all_occupied

/-- Everything dictAdd does while DICT_RESETS is below the bound of 10_state R49: it stores the key, counts it, sets the
width of the next code and counts a reset of a full dictionary (40_dictionary R88). -/
theorem DictOk.dictAdd_run (h : DictOk s) (hw : Sparse.Wf Slot.blank s.ht)
    (hr : s.dictResets.toNat < Config.counterBound) (p : Code) (e : Byte) :
    ∃ (c : Code) (ht : List (Nat × Slot)) (k : BitVec 13), KeyAdded p e s ht ∧
      dictAdd p e s = .done c { s with
        ht := ht, lastProbes := k, codeWidth := peekWidth s.dictSize s.codeWidth,
        dictSize := if s.dictSize.toNat = 4096 then 257#13 else s.dictSize + 1#13,
        dictResets := if s.dictSize.toNat = 4096 then s.dictResets + 1#32 else s.dictResets } := by
  obtain ⟨c, t, hadd, -⟩ := h.dictAdd_done p e
  have hkey := h.keyAdded hw hadd
  have hfree := dictAdd_freeCount hadd hr
  have hends := dictAdd_ends (s := s) (Q := fun _ => True) p e
  have hcount := dictAdd_entryCounted (s := s) p e (Q := fun _ => True)
  have hresets := (dictAdd_dictResets hadd).1
  rw [hadd] at hends hcount
  obtain ⟨⟨ht, k, d, w, z, f, rfl⟩, -⟩ := hends
  obtain ⟨rfl, rfl⟩ := hcount
  obtain rfl : f = s.freeCount := hfree
  obtain rfl : z = if s.dictSize.toNat = 4096 then s.dictResets + 1#32 else s.dictResets := by
    rcases resetIfFull_dictResets s with ⟨e, hsize⟩ | ⟨e, hsize⟩
    · rw [if_pos hsize, ← resetsAfter_below hr s.freeCount, ← e]; exact hresets
    · rw [if_neg hsize, ← e]; exact hresets
  exact ⟨c, ht, k, hkey, hadd⟩

section
variable {k : BitVec 13} (hlt : s.ipos.toNat < s.inLen.toNat) (hin : s.inLen.toNat ≤ s.params.ibufCap)
include hlt hin

/-- The ENC_MATCH step before the end of the input is the branch that its find selects. -/
theorem encMatchRule_find {r : Code} (hfind : dictFind s.pfx (nextByte s) s = .done r { s with lastProbes := k }) :
    encMatchRule s =
      (if r ≠ Config.notFound then .done () { s with lastProbes := k, pfx := r }
        else encMiss (nextByte s) { s with lastProbes := k }).bind fun _ v =>
          .done () { v with ipos := v.ipos + 1#32 } := by
  unfold nextByte at hfind
  simp only [encMatchRule, if_pos hlt, ibufRead, if_pos (hlt.trans_le hin), Flow.bind_done, hfind, nextByte]

/-- The ENC_MATCH step after a failed find is the miss branch. -/
theorem encMatchRule_notFound
    (hfind : dictFind s.pfx (nextByte s) s = .done Config.notFound { s with lastProbes := k }) :
    encMatchRule s = (encMiss (nextByte s) { s with lastProbes := k }).bind fun _ v =>
      .done () { v with ipos := v.ipos + 1#32 } :=
  (encMatchRule_find hlt hin hfind).trans (by rw [if_neg (not_not.2 rfl)])

end

theorem encMiss_overflow (e : Byte) (h : s.outCap.toNat < ceil8 (s.wcur.toNat + s.codeWidth.toNat)) :
    encMiss e s = .raised .outputOverflow s := by
  rw [encMiss, bwWrite_overflow h, Flow.bind_raised]

/-- The miss branch with room for the code: what bwWrite and dictAdd leave, and the match restarted at `e`. -/
theorem encMiss_done {e : Byte} {m : Memory} {c : Word} {r : Code} {t : State}
    (hwrite : bwWrite s.pfx s.codeWidth.toNat s = .done () { s with obuf := m, wcur := c })
    (hadd : dictAdd s.pfx e { s with obuf := m, wcur := c, codes := s.codes + 1#32 } = .done r t) :
    encMiss e s = .done () { t with pfx := e.setWidth 16 } := by
  simp only [encMiss, hwrite, Flow.bind_done, hadd]

/-- What the ENC_MATCH step holds once its miss branch has appended PREFIX and added the key: OBUF, HT and LAST_PROBES
are `m`, `ht` and `k` (44_encoder R123, 40_dictionary R88). -/
def encAdded (s : State) (m : Memory) (ht : List (Nat × Slot)) (k : BitVec 13) : State :=
  { s with
    obuf := m, wcur := s.wcur + BitVec.ofNat 32 s.codeWidth.toNat, codes := s.codes + 1#32, ht := ht, lastProbes := k,
    codeWidth := peekWidth s.dictSize s.codeWidth,
    dictSize := if s.dictSize.toNat = 4096 then 257#13 else s.dictSize + 1#13,
    dictResets := if s.dictSize.toNat = 4096 then s.dictResets + 1#32 else s.dictResets }

/-- What the ENC_MATCH step leaves after a miss: the match restarts at the byte that was looked up. -/
def encMissed (s : State) (m : Memory) (ht : List (Nat × Slot)) (k : BitVec 13) : State :=
  { encAdded s m ht k with pfx := (nextByte s).setWidth 16, ipos := s.ipos + 1#32 }

/-- What the ENC_FLUSH step leaves, OBUF being `m` (44_encoder R124). -/
def encFlushed (s : State) (m : Memory) : State :=
  { s with
    status := statusDone, fsm := .idle, obuf := m, wcur := s.wcur + BitVec.ofNat 32 s.codeWidth.toNat,
    codes := s.codes + 1#32, outLen := BitVec.ofNat 32 (ceil8 (s.wcur.toNat + s.codeWidth.toNat)),
    outBits := s.wcur + BitVec.ofNat 32 s.codeWidth.toNat }

/-- Room for the pending code below OUT_CAP (42_bitwriter R108). -/
def CodeFits (s : State) : Prop := ceil8 (s.wcur.toNat + s.codeWidth.toNat) ≤ s.outCap.toNat

theorem CodeFits.not_iff : ¬ CodeFits s ↔ s.outCap.toNat < ceil8 (s.wcur.toNat + s.codeWidth.toNat) := Nat.not_le

/-! ### The encoder's turns from a state of the invariant -/

theorem Inv.status_busy (h : Inv s) (hf : s.fsm ≠ .idle) : s.status.busy = true := h.busy_iff.2 hf

theorem Inv.ipos_lt (h : Inv s) (hf : s.fsm = .encMatch) (hne : s.ipos ≠ s.inLen) : s.ipos.toNat < s.inLen.toNat :=
  lt_of_le_of_ne (h.enc (.inl hf)).ipos_le fun e => hne (BitVec.eq_of_toNat_eq e)

/-- A legal STATUS with BUSY = 1 is that of a pass (10_state R23). -/
theorem Status.Legal.eq_busy {t : Status} (h : t.Legal) (hb : t.busy = true) : t = statusBusy := by
  obtain ⟨hexcl, -, herr, hempty⟩ := h
  obtain ⟨hdone, hnoerr⟩ := hexcl hb
  have hnotEmpty : t.empty = false := by
    by_contra he
    rw [hempty (by simpa using he)] at hdone
    cases hdone
  have hcode : t.errCode = .none := by
    by_contra hc
    rw [herr.2 hc] at hnoerr
    cases hnoerr
  obtain ⟨busy, done, err, empty, code⟩ := t
  obtain rfl : busy = true := hb
  obtain rfl : done = false := hdone
  obtain rfl : err = false := hnoerr
  obtain rfl : empty = false := hnotEmpty
  obtain rfl : code = .none := hcode
  rfl

theorem Inv.status_eq_busy (h : Inv s) (hf : s.fsm ≠ .idle) : s.status = statusBusy :=
  Status.Legal.eq_busy h.status (h.status_busy hf)

theorem engineTurn_encFlush (hb : s.status.busy = true) (hf : s.fsm = .encFlush) :
    engineTurn s = runStep encFlushRule s := by rw [engineTurn_eq hb, hf]; rfl

theorem runStep_raised {rule : State → Flow Unit} {e : ErrCode} {t : State} (h : rule s = .raised e t) :
    runStep rule s = .next (errorStop e t) := by simp only [runStep, h]

section
variable (h : Inv s) (hf : s.fsm = .encMatch)
include h hf

theorem Inv.engineTurn_match : engineTurn s = runStep encMatchRule s :=
  engineTurn_encMatch (h.status_busy (by simp [hf])) hf

/-- At the end of the input the pass goes to ENC_FLUSH. -/
theorem Inv.encMatch_end (hend : s.ipos = s.inLen) : engineTurn s = .next { s with fsm := .encFlush } :=
  (h.engineTurn_match hf).trans (runStep_done (encMatchRule_end hend))

/-- The find of the ENC_MATCH step: NOT_FOUND, or a live added code. -/
theorem Inv.encMatch_find : ∃ (r : Code) (k : BitVec 13),
    dictFind s.pfx (nextByte s) s = .done r { s with lastProbes := k } ∧
      (r ≠ Config.notFound → 256 ≤ r.toNat ∧ r.toNat < s.dictSize.toNat) :=
  h.dict.dictFind_live ((h.enc (.inl hf)).pfx_ne_invalid h.dict) _

variable (hne : s.ipos ≠ s.inLen) {k : BitVec 13}
include hne

/-- A found code extends the match. -/
theorem Inv.encMatch_hit {r : Code} (hfind : dictFind s.pfx (nextByte s) s = .done r { s with lastProbes := k })
    (hr : r ≠ Config.notFound) :
    engineTurn s = .next { s with lastProbes := k, pfx := r, ipos := s.ipos + 1#32 } := by
  have hrule := encMatchRule_find (h.ipos_lt hf hne) (h.enc (.inl hf)).inLen_le hfind
  rw [if_pos hr, Flow.bind_done] at hrule
  exact (h.engineTurn_match hf).trans (runStep_done hrule)

variable (hfind : dictFind s.pfx (nextByte s) s = .done Config.notFound { s with lastProbes := k })
include hfind

/-- A miss whose code has no room ends the pass, LAST_PROBES being written. -/
theorem Inv.encMatch_overflow (hover : ¬ CodeFits s) :
    engineTurn s = .next { s with lastProbes := k, status := statusError .outputOverflow, fsm := .idle } := by
  have hrule := encMatchRule_notFound (h.ipos_lt hf hne) (h.enc (.inl hf)).inLen_le hfind
  rw [encMiss_overflow (s := { s with lastProbes := k }) _ (CodeFits.not_iff.1 hover), Flow.bind_raised] at hrule
  exact (h.engineTurn_match hf).trans (runStep_raised hrule)

/-- A miss whose code has room appends PREFIX, adds the key and restarts the match. -/
theorem Inv.encMatch_miss (hfit : CodeFits s) :
    ∃ (m : Memory) (c : Code) (ht : List (Nat × Slot)) (n : BitVec 13),
      CodeAppended s.obuf m s.wcur.toNat s.pfx s.codeWidth.toNat ∧ KeyAdded s.pfx (nextByte s) s ht ∧
      dictAdd s.pfx (nextByte s)
          { s with
            lastProbes := k, obuf := m, wcur := s.wcur + BitVec.ofNat 32 s.codeWidth.toNat, codes := s.codes + 1#32 }
        = .done c (encAdded s m ht n) ∧
      engineTurn s = .next (encMissed s m ht n) := by
  have hidle : s.fsm ≠ .idle := by simp [hf]
  obtain ⟨m, hwrite, -, -, happ, -⟩ := OutputRoom.bwWrite_run (s := { s with lastProbes := k }) (code := s.pfx)
    { h.room hidle with } hfit
  obtain ⟨c, ht, n, hkey, hadd⟩ := DictOk.dictAdd_run (s := { s with
      lastProbes := k, obuf := m, wcur := s.wcur + BitVec.ofNat 32 s.codeWidth.toNat, codes := s.codes + 1#32 })
    { h.dict with } h.tables.ht_wf (h.resets_below hidle) s.pfx (nextByte s)
  have hrule := encMatchRule_notFound (h.ipos_lt hf hne) (h.enc (.inl hf)).inLen_le hfind
  rw [encMiss_done hwrite hadd, Flow.bind_done] at hrule
  exact ⟨m, c, ht, n, happ, hkey, hadd, (h.engineTurn_match hf).trans (runStep_done hrule)⟩

end

section
variable (h : Inv s) (hf : s.fsm = .encFlush)
include h hf

theorem Inv.engineTurn_flush : engineTurn s = runStep encFlushRule s :=
  engineTurn_encFlush (h.status_busy (by simp [hf])) hf

/-- A pending code without room ends the pass. -/
theorem Inv.encFlush_overflow (hover : ¬ CodeFits s) :
    engineTurn s = .next { s with status := statusError .outputOverflow, fsm := .idle } := by
  have hrule : encFlushRule s = .raised .outputOverflow s := by
    rw [encFlushRule, bwWrite_overflow (CodeFits.not_iff.1 hover), Flow.bind_raised]
  exact (h.engineTurn_flush hf).trans (runStep_raised hrule)

/-- A pending code with room is appended, the last byte padded, and the pass completed. -/
theorem Inv.encFlush_done (hfit : CodeFits s) :
    ∃ m n : Memory, CodeAppended s.obuf m s.wcur.toNat s.pfx s.codeWidth.toNat ∧
      ByteFinished m n (s.wcur.toNat + s.codeWidth.toNat) ∧ engineTurn s = .next (encFlushed s n) := by
  have hroom := h.room (by simp [hf])
  obtain ⟨m, hwrite, hwf, hc, happ, -⟩ := hroom.bwWrite_run (code := s.pfx) hfit
  obtain ⟨n, hfinish, hpad, -⟩ := bwFinish_run (s := { s with
      obuf := m, wcur := s.wcur + BitVec.ofNat 32 s.codeWidth.toNat, codes := s.codes + 1#32 }) hwf (by
    have hcap := hroom.outCap_le
    have hend : ceil8 (s.wcur.toNat + s.codeWidth.toNat) ≤ s.outCap.toNat := hfit
    simp only [hc]
    unfold ceil8 at hend
    omega)
  simp only [hc] at hfinish hpad
  have hrule : encFlushRule s = .done () (complete { encFlushed s n with status := s.status, fsm := s.fsm }) := by
    simp only [encFlushRule, hwrite, Flow.bind_done, hfinish]
    rfl
  refine ⟨m, n, happ, hpad, (h.engineTurn_flush hf).trans ((runStep_done hrule).trans ?_)⟩
  simp only [complete, h.status_eq_busy (s := s) (by simp [hf])]
  rfl

end

end

/-- Settles O35: the end of the input, and the three ways on from the find. -/
theorem encMatchStepExtendsOrWrites : Obligations.EncMatchStepExtendsOrWrites := by
  refine fun s h hf => ⟨h.encMatch_end hf, fun hne => ?_⟩
  obtain ⟨r, k, hfind, hlive⟩ := h.encMatch_find hf
  refine ⟨r, k, hfind, fun hr => ⟨(hlive hr).2.trans_le h.dict.size_le, h.encMatch_hit hf hne hfind hr⟩, ?_, ?_⟩
  · rintro rfl hover
    exact h.encMatch_overflow hf hne hfind (CodeFits.not_iff.2 hover)
  · rintro rfl hfit
    obtain ⟨m, c, ht, n, happ, -, hadd, hturn⟩ := h.encMatch_miss hf hne hfind hfit
    exact ⟨m, c, _, happ, hadd, hturn⟩

/-- Settles O36: the pending code has no room, or it has. -/
theorem encFlushStepCompletesPass : Obligations.EncFlushStepCompletesPass := fun _ h hf =>
  ⟨fun hover => h.encFlush_overflow hf (CodeFits.not_iff.2 hover), h.encFlush_done hf⟩

end Sys2Proof.Machine

namespace Sys2Proof.Machine

/-! ### Runs of the engine -/

section
variable {s t u : State}

theorem engineRun_succ_of_turn (h : engineTurn s = .next t) (k : Nat) : engineRun (k + 1) s = engineRun k t := by
  simp only [engineRun, h]

theorem engineRun_succ_eq_some {k : Nat} :
    engineRun (k + 1) s = some u ↔ ∃ t, engineTurn s = .next t ∧ engineRun k t = some u := by
  rw [engineRun]
  cases engineTurn s <;> simp

theorem engineRun_add (i j : Nat) (s : State) : engineRun (i + j) s = (engineRun i s).bind (engineRun j) := by
  induction i generalizing s with
  | zero => rw [Nat.zero_add]; rfl
  | succ i ih =>
    rw [Nat.add_right_comm, engineRun, engineRun]
    cases engineTurn s with
    | next t => exact ih t
    | fault f => rfl
    | refused r => rfl

/-- A run that goes on for one more turn. -/
theorem engineRun_succ_last {k : Nat} (hrun : engineRun k s = some t) (hturn : engineTurn t = .next u) :
    engineRun (k + 1) s = some u := by
  rw [engineRun_add, hrun, Option.bind_some, engineRun_succ_of_turn hturn]
  rfl

/-- The turns of an idle engine change nothing (46_control R150). -/
theorem engineRun_idle (hb : s.status.busy = false) (k : Nat) : engineRun k s = some s := by
  induction k with
  | zero => rfl
  | succ k ih => rw [engineRun_succ_of_turn (engineTurn_idle hb), ih]

end

/-! ### One turn of the encoder -/

/-- Everything one engine turn of a COMPRESS pass can do (44_encoder R123, R124). -/
inductive EncTurn (s : State) : State → Prop
  | inputEnd (hf : s.fsm = .encMatch) (hend : s.ipos = s.inLen) : EncTurn s { s with fsm := .encFlush }
  | hit (hf : s.fsm = .encMatch) (hne : s.ipos ≠ s.inLen) {r : Code}
      (hr : 256 ≤ r.toNat ∧ r.toNat < s.dictSize.toNat) (k : BitVec 13) :
      EncTurn s { s with lastProbes := k, pfx := r, ipos := s.ipos + 1#32 }
  | miss (hf : s.fsm = .encMatch) (hne : s.ipos ≠ s.inLen)
      (hfind : ∃ v, dictFind s.pfx (nextByte s) s = .done Config.notFound v) (hfit : CodeFits s) {m : Memory}
      (happ : CodeAppended s.obuf m s.wcur.toNat s.pfx s.codeWidth.toNat) (ht : List (Nat × Slot)) (k : BitVec 13) :
      EncTurn s (encMissed s m ht k)
  | overflow (hover : ¬ CodeFits s) (k : BitVec 13) :
      EncTurn s { s with lastProbes := k, status := statusError .outputOverflow, fsm := .idle }
  | flush (hf : s.fsm = .encFlush) (hfit : CodeFits s) {m n : Memory}
      (happ : CodeAppended s.obuf m s.wcur.toNat s.pfx s.codeWidth.toNat)
      (hpad : ByteFinished m n (s.wcur.toNat + s.codeWidth.toNat)) : EncTurn s (encFlushed s n)

section
variable {s : State}

theorem Inv.encTurn_match (h : Inv s) (hf : s.fsm = .encMatch) : ∃ t, engineTurn s = .next t ∧ EncTurn s t := by
  by_cases hend : s.ipos = s.inLen
  · exact ⟨_, h.encMatch_end hf hend, .inputEnd hf hend⟩
  obtain ⟨r, k, hfind, hlive⟩ := h.encMatch_find hf
  by_cases hr : r = Config.notFound
  · subst hr
    by_cases hfit : CodeFits s
    · obtain ⟨m, _, ht, n, happ, -, -, hturn⟩ := h.encMatch_miss hf hend hfind hfit
      exact ⟨_, hturn, .miss hf hend ⟨_, hfind⟩ hfit happ ht n⟩
    · exact ⟨_, h.encMatch_overflow hf hend hfind hfit, .overflow hfit k⟩
  · exact ⟨_, h.encMatch_hit hf hend hfind hr, .hit hf hend (hlive hr) k⟩

theorem Inv.encTurn_flush (h : Inv s) (hf : s.fsm = .encFlush) : ∃ t, engineTurn s = .next t ∧ EncTurn s t := by
  by_cases hfit : CodeFits s
  · obtain ⟨m, n, happ, hpad, hturn⟩ := h.encFlush_done hf hfit
    exact ⟨_, hturn, .flush hf hfit happ hpad⟩
  · exact ⟨_, h.encFlush_overflow hf hfit, .overflow hfit s.lastProbes⟩

/-- A COMPRESS pass has a next state, and `EncTurn` says which. -/
theorem Inv.encTurn (h : Inv s) (hf : s.fsm = .encMatch ∨ s.fsm = .encFlush) :
    ∃ t, engineTurn s = .next t ∧ EncTurn s t :=
  hf.elim h.encTurn_match h.encTurn_flush

theorem Inv.not_busy (h : Inv s) (hf : s.fsm = .idle) : s.status.busy = false := by
  by_contra hb
  exact h.busy_iff.1 (by simpa using hb) hf

/-- IPOS and CODES do not wrap in a pass (10_state R49). -/
theorem EncOk.ipos_succ (he : EncOk s) (hp : s.params.Legal) : (s.ipos + 1#32).toNat = s.ipos.toNat + 1 := by
  obtain ⟨-, -, hibuf, -, -⟩ := hp
  have := he.ipos_le
  have := he.inLen_le
  exact word_add_one (by omega)

theorem EncOk.codes_succ (he : EncOk s) (hp : s.params.Legal) : (s.codes + 1#32).toNat = s.codes.toNat + 1 := by
  obtain ⟨-, -, hibuf, -, -⟩ := hp
  have := he.codes_lt
  have := he.ipos_le
  have := he.inLen_le
  exact word_add_one (by omega)

/-- The output of a code that fits ends within OUT_CAP, so WCUR does not wrap (42_bitwriter R109). -/
theorem CodeFits.wcur_add (hfit : CodeFits s) (hcap : s.outCap.toNat ≤ s.params.obufCap) (hp : s.params.Legal) :
    (s.wcur + BitVec.ofNat 32 s.codeWidth.toNat).toNat = s.wcur.toNat + s.codeWidth.toNat := by
  obtain ⟨-, -, -, -, hobuf⟩ := hp
  have hend : ceil8 (s.wcur.toNat + s.codeWidth.toNat) ≤ s.outCap.toNat := hfit
  unfold ceil8 at hend
  rw [BitVec.toNat_add, BitVec.toNat_ofNat]
  omega

/-- The codes written so far and the pending one take at most 8 bits for the first and 12 for each other
(44_encoder R129). -/
theorem Inv.pending_bits_le (h : Inv s) (he : EncOk s) :
    s.wcur.toNat + s.codeWidth.toNat ≤ 8 + 12 * (s.inLen.toNat - 1) := by
  have hwidth := h.dict.width_le
  have hlt := he.codes_lt
  have hle := he.ipos_le
  by_cases h0 : s.codes = 0#32
  · obtain ⟨hwcur, hw8⟩ := he.first h0
    rw [hwcur, hw8]
    exact Nat.le_add_right 8 _
  · have hwritten := he.written h0
    omega

end

/-! ### A COMPRESS pass, turn by turn (44_encoder R126) -/

/-- The state `x` of the COMPRESS pass that was issued in `s`, after `j` engine turns. -/
structure PassAt (s : State) (j : Nat) (x : State) : Prop where
  inv : Inv x
  inLen : x.inLen = s.inLen
  outCap : x.outCap = s.outCap
  fsm : x.fsm = if j < s.inLen.toNat then Fsm.encMatch else Fsm.encFlush
  ipos : x.ipos.toNat = if j < s.inLen.toNat then j + 1 else s.inLen.toNat

/-- The turn from `x` to `u` flushes the pending code and completes the pass (44_encoder R124). -/
def Flushes (x u : State) : Prop :=
  x.fsm = .encFlush ∧ CodeFits x ∧ ∃ m n : Memory, CodeAppended x.obuf m x.wcur.toNat x.pfx x.codeWidth.toNat ∧
    ByteFinished m n (x.wcur.toNat + x.codeWidth.toNat) ∧ u = encFlushed x n

/-- The pass that was issued in `s` and began in `t` goes through `i` turns of a pass to `z`, and one more, to `u`, ends
it. -/
structure PassRun (s t : State) (i : Nat) (z u : State) : Prop where
  le_inLen : i ≤ s.inLen.toNat
  through : ∀ j ≤ i, ∃ x, engineRun j t = some x ∧ PassAt s j x
  run : engineRun i t = some z
  passAt : PassAt s i z
  turn : engineTurn z = .next u
  kind : EncTurn z u
  idle : u.fsm = .idle

section
variable {s t x y z u : State} {i j : Nat}

theorem PassAt.encoding (h : PassAt s j x) : x.fsm = .encMatch ∨ x.fsm = .encFlush := by
  rw [h.fsm]
  split
  · exact .inl rfl
  · exact .inr rfl

theorem PassAt.lt_of_match (h : PassAt s j x) (hf : x.fsm = .encMatch) : j < s.inLen.toNat := by
  by_contra hj
  rw [h.fsm, if_neg hj] at hf
  cases hf

theorem PassAt.le_of_flush (h : PassAt s j x) (hf : x.fsm = .encFlush) : s.inLen.toNat ≤ j := by
  by_contra hj
  rw [h.fsm, if_pos (Nat.lt_of_not_le hj)] at hf
  cases hf

theorem PassAt.enc (h : PassAt s j x) : EncOk x := h.inv.enc h.encoding

theorem PassAt.status (h : PassAt s j x) : x.status = statusBusy :=
  h.inv.status_eq_busy (by rcases h.encoding with hf | hf <;> simp [hf])

/-- While bytes of the input are left, IPOS counts the turns. -/
theorem PassAt.next_byte (h : PassAt s j x) (hf : x.fsm = .encMatch) (hne : x.ipos ≠ x.inLen) :
    j + 1 < s.inLen.toNat ∧ (x.ipos + 1#32).toNat = j + 2 := by
  have hlt := h.inv.ipos_lt hf hne
  have hipos := h.ipos
  rw [if_pos (h.lt_of_match hf)] at hipos
  rw [h.inLen] at hlt
  rw [h.enc.ipos_succ h.inv.params]
  omega

/-- A turn of the pass goes on with it or ends it. -/
theorem PassAt.next (h : PassAt s j x) (hturn : engineTurn x = .next y) (hkind : EncTurn x y) :
    (j < s.inLen.toNat ∧ PassAt s (j + 1) y) ∨ y.fsm = .idle := by
  have hinv := engineTurn_keeps_inv h.inv hturn
  cases hkind with
  | inputEnd hf hend =>
    have hj := h.lt_of_match hf
    have hipos := h.ipos
    rw [if_pos hj, hend, h.inLen] at hipos
    exact .inl ⟨hj, hinv, h.inLen, h.outCap, by rw [if_neg (by omega)], by
      rw [if_neg (by omega)]; exact (congrArg BitVec.toNat hend).trans (congrArg BitVec.toNat h.inLen)⟩
  | hit hf hne =>
    obtain ⟨hj, hipos⟩ := h.next_byte hf hne
    exact .inl ⟨h.lt_of_match hf, hinv, h.inLen, h.outCap, by rw [if_pos hj]; exact hf, by rw [if_pos hj]; exact hipos⟩
  | miss hf hne =>
    obtain ⟨hj, hipos⟩ := h.next_byte hf hne
    exact .inl ⟨h.lt_of_match hf, hinv, h.inLen, h.outCap, by rw [if_pos hj]; exact hf, by rw [if_pos hj]; exact hipos⟩
  | overflow => exact .inr rfl
  | flush => exact .inr rfl

/-- A pass goes on, turn by turn, until one ends it; no more turns than bytes can go on. -/
theorem passRun_of_through {i : Nat} (hi : i ≤ s.inLen.toNat)
    (h : ∀ j ≤ i, ∃ x, engineRun j t = some x ∧ PassAt s j x) :
    ∃ i z u, PassRun s t i z u := by
  obtain ⟨z, hrun, hz⟩ := h i le_rfl
  obtain ⟨u, hturn, hkind⟩ := hz.inv.encTurn hz.encoding
  rcases hz.next hturn hkind with ⟨hlt, hu⟩ | hidle
  · refine passRun_of_through (i := i + 1) hlt fun j hj => ?_
    rcases Nat.lt_or_eq_of_le hj with hj | rfl
    · exact h j (Nat.le_of_lt_succ hj)
    · exact ⟨u, engineRun_succ_last hrun hturn, hu⟩
  · exact ⟨i, z, u, hi, h, hrun, hz, hturn, hkind, hidle⟩
termination_by s.inLen.toNat - i

theorem PassRun.run_succ (h : PassRun s t i z u) : engineRun (i + 1) t = some u := engineRun_succ_last h.run h.turn

theorem PassRun.inv (h : PassRun s t i z u) : Inv u := engineTurn_keeps_inv h.passAt.inv h.turn

/-- A pass ends with its last code flushed, after IN_LEN + 1 turns, or with a code that did not fit. -/
theorem PassRun.ends (h : PassRun s t i z u) :
    (i = s.inLen.toNat ∧ Flushes z u) ∨ (¬ CodeFits z ∧ u.status = statusError .outputOverflow) := by
  have hidle := h.idle
  have hat := h.passAt
  have hle := h.le_inLen
  cases h.kind with
  | inputEnd => cases hidle
  | hit hf => cases hf.symm.trans hidle
  | miss hf => cases hf.symm.trans hidle
  | overflow hover => exact .inr ⟨hover, rfl⟩
  | flush hf hfit happ hpad => exact .inl ⟨le_antisymm hle (hat.le_of_flush hf), hf, hfit, _, _, happ, hpad, rfl⟩

/-- COMPRESS begins its pass before the first turn (44_encoder R122). -/
theorem Inv.passAt_start (h : Inv s) (hstart : exec .compress s = .next (encStart s)) (hne : s.inLen ≠ 0#32) :
    PassAt s 0 (encStart s) := by
  have hpos := word_pos hne
  exact ⟨exec_keeps h hstart, rfl, rfl, by rw [if_pos hpos]; rfl, by rw [if_pos hpos]; rfl⟩

/-- Every COMPRESS pass ends. -/
theorem Inv.exists_passRun (h : Inv s) (hstart : exec .compress s = .next (encStart s)) (hne : s.inLen ≠ 0#32) :
    ∃ i z u, PassRun s (encStart s) i z u :=
  passRun_of_through (Nat.zero_le _) fun j hj => by
    obtain rfl := Nat.le_zero.1 hj
    exact ⟨_, rfl, h.passAt_start hstart hne⟩

/-- A pass that is done ended with the flush of its turn IN_LEN + 1. -/
theorem Inv.passRun_of_done (h : Inv s) (hstart : exec .compress s = .next (encStart s)) (hne : s.inLen ≠ 0#32)
    (hrun : engineRun (s.inLen.toNat + 1) (encStart s) = some u) (hdone : u.status = statusDone) :
    ∃ z, PassRun s (encStart s) s.inLen.toNat z u ∧ Flushes z u := by
  obtain ⟨i, z, v, hpass⟩ := h.exists_passRun hstart hne
  have hrest : s.inLen.toNat + 1 = i + 1 + (s.inLen.toNat - i) := by have := hpass.le_inLen; omega
  rw [hrest, engineRun_add, hpass.run_succ, Option.bind_some, engineRun_idle (hpass.inv.not_busy hpass.idle)] at hrun
  obtain rfl := Option.some.inj hrun
  rcases hpass.ends with ⟨rfl, hflush⟩ | ⟨-, herr⟩
  · exact ⟨z, hpass, hflush⟩
  · cases hdone.symm.trans herr

/-- With the output bound of 44_encoder R129 every code fits. -/
theorem PassAt.fits_of_bound (h : PassAt s j x) (hcap : ceil8 (8 + 12 * (s.inLen.toNat - 1)) ≤ s.outCap.toNat) :
    CodeFits x := by
  have hbits := h.inv.pending_bits_le h.enc
  rw [h.inLen] at hbits
  rw [← h.outCap] at hcap
  unfold CodeFits
  unfold ceil8 at hcap ⊢
  omega

end

/-- Settles O38: an empty input is done at issue, and a pass goes from turn to turn until one leaves FSM = IDLE. -/
theorem compressTakesLengthPlusOneSteps : Obligations.CompressTakesLengthPlusOneSteps := by
  intro s h hb hin hout
  refine ⟨fun hzero => ⟨_, exec_compress_empty hb hin hout hzero, rfl, h.fsm_idle hb⟩, fun hne => ?_⟩
  have hstart := exec_compress_start hb hin hout hne
  obtain ⟨i, z, u, hpass⟩ := h.exists_passRun hstart hne
  refine ⟨_, u, i + 1, hstart, Nat.succ_le_succ hpass.le_inLen, hpass.run_succ, fun j hj => ?_, hpass.idle, ?_⟩
  · obtain ⟨x, hrun, hx⟩ := hpass.through j (Nat.le_of_lt_succ hj)
    exact ⟨x, hrun, hx.status, hx.fsm, hx.ipos⟩
  · rcases hpass.ends with ⟨hi, -, -, _, _, -, -, rfl⟩ | ⟨-, herr⟩
    · exact .inl ⟨rfl, by rw [hi]⟩
    · exact .inr herr

/-- Settles O39: no code of the pass is without room, and the bounds before the last turn give those after it. -/
theorem outputBoundSuffices : Obligations.OutputBoundSuffices := by
  intro s h hb hne hin hout hcap
  have hstart := exec_compress_start hb hin hout hne
  obtain ⟨i, z, u, hpass⟩ := h.exists_passRun hstart hne
  have hz := hpass.passAt
  have hfit := hz.fits_of_bound hcap
  rcases hpass.ends with ⟨rfl, -, -, _, _, -, -, rfl⟩ | ⟨hover, -⟩
  · have hbits := hz.inv.pending_bits_le hz.enc
    have hcodes := hz.enc.codes_lt
    have hipos := hz.enc.ipos_le
    rw [hz.inLen] at hbits hipos
    refine ⟨_, _, hstart, hpass.run_succ, rfl, ?_, ?_⟩
    · exact (hz.enc.codes_succ hz.inv.params).trans_le (hcodes.trans_le hipos)
    · exact (hfit.wcur_add hz.enc.outCap_le hz.inv.params).trans_le hbits
  · exact absurd hfit hover

end Sys2Proof.Machine

namespace Sys2Proof.Machine

/-! ### A stream that grows at its end (42_bitwriter R111) -/

theorem streamBits_append (l r : List (Code × Nat)) : streamBits (l ++ r) = streamBits l + streamBits r := by
  simp [streamBits]

theorem streamOf_length (l : List (Code × Nat)) : (streamOf l).length = streamBits l := by
  induction l with
  | nil => rfl
  | cons x l ih => rw [streamOf, List.length_append, codeBits_length, ih, streamBits_cons]

theorem streamOf_append (l r : List (Code × Nat)) : streamOf (l ++ r) = streamOf l ++ streamOf r := by
  induction l with
  | nil => rfl
  | cons x l ih => rw [List.cons_append, streamOf, streamOf, ih, List.append_assoc]

theorem HoldsStream.nil (m : Memory) : HoldsStream m 0 [] := fun _ hk => absurd hk (Nat.not_lt_zero _)

/-- A code appended behind a stream lengthens it. -/
theorem HoldsStream.snoc {m n : Memory} {l : List (Code × Nat)} {c : Code} {w : Nat} (h : HoldsStream m 0 l)
    (happ : CodeAppended m n (streamBits l) c w) : HoldsStream n 0 (l ++ [(c, w)]) := by
  intro k hk
  have hlen := streamOf_length l
  rw [streamBits_append, streamBits_cons] at hk
  rw [Nat.zero_add, happ k, streamOf_append]
  by_cases hold : k < streamBits l
  · rw [if_pos hold, List.getD_append _ _ _ _ (by omega), ← h k hold, Nat.zero_add]
  · have hnew : k < streamBits l + w := by simpa [streamBits] using hk
    rw [if_neg hold, if_pos hnew, List.getD_append_right _ _ _ _ (by omega), hlen, streamOf_cons_getD,
      if_pos (by simp only; omega)]
    congr 1
    simp only
    omega

/-- The padding of the last byte leaves the stream before it. -/
theorem HoldsStream.finish {m n : Memory} {l : List (Code × Nat)} (h : HoldsStream m 0 l)
    (hpad : ByteFinished m n (streamBits l)) : HoldsStream n 0 l := fun k hk => by
  rw [← h k hk, hpad, if_neg (by omega)]

/-- The bits from the end of the stream to the end of its last byte are padding. -/
theorem ByteFinished.padding {m n : Memory} {pos p : Nat} (h : ByteFinished m n pos) (hlo : pos ≤ p)
    (hhi : p < 8 * ceil8 pos) : bufBit n p = false := by
  rw [h p, if_pos (by unfold ceil8 at hhi; omega)]

/-! ### The schedule of a pass (41_code_width R102, 44_encoder R128) -/

/-- DICT_SIZE of a pass before its code `k`, that is, after `k` adds (44_encoder R128). -/
def scheduleSize (k : Nat) : Nat := if k = 0 then 256 else 257 + (k - 1) % 3840

/-- DICT_RESETS of a pass before its code `k` (44_encoder R128). -/
def scheduleResets (k : Nat) : Nat := (k - 1) / 3840

theorem scheduleSize_of_pos {k : Nat} (hk : 0 < k) : scheduleSize k = 257 + (k - 1) % 3840 := if_neg hk.ne'

theorem scheduleSize_succ (k : Nat) :
    scheduleSize (k + 1) = if scheduleSize k = 4096 then 257 else scheduleSize k + 1 := by
  rw [scheduleSize_of_pos k.succ_pos]
  rcases Nat.eq_zero_or_pos k with rfl | hk
  · rfl
  · rw [scheduleSize_of_pos hk]
    split <;> omega

theorem scheduleResets_succ (k : Nat) :
    scheduleResets (k + 1) = if scheduleSize k = 4096 then scheduleResets k + 1 else scheduleResets k := by
  unfold scheduleResets
  rcases Nat.eq_zero_or_pos k with rfl | hk
  · rfl
  · rw [scheduleSize_of_pos hk]
    split <;> omega

/-- The schedule's DICT_SIZE fixes CODE_WIDTH: it is the width of 41_code_width R102. -/
theorem DictOk.codeWidth_of_schedule {s : State} {k : Nat} (h : DictOk s) (hk : s.dictSize.toNat = scheduleSize k) :
    s.codeWidth.toNat = streamWidth k := by
  obtain ⟨-, -, hge, hle, hfits, htight, -, -⟩ := h
  rw [hk] at hfits htight
  unfold scheduleSize at hfits htight
  unfold streamWidth
  obtain e | e | e | e | e : s.codeWidth.toNat = 8 ∨ s.codeWidth.toNat = 9 ∨ s.codeWidth.toNat = 10 ∨
    s.codeWidth.toNat = 11 ∨ s.codeWidth.toNat = 12 := by omega
  all_goals
    rw [e] at hfits htight ⊢
    split_ifs at * <;> omega

/-- The codes `cs` of a pass, each with its width. -/
def packedCodes (cs : List Code) : List (Code × Nat) := cs.zip (streamWidths cs.length)

theorem streamWidths_length (n : Nat) : (streamWidths n).length = n := by simp [streamWidths]

theorem streamWidths_succ (n : Nat) : streamWidths (n + 1) = streamWidths n ++ [streamWidth n] := by
  simp [streamWidths, List.range_succ]

theorem packedCodes_snoc (cs : List Code) (c : Code) :
    packedCodes (cs ++ [c]) = packedCodes cs ++ [(c, streamWidth cs.length)] := by
  rw [packedCodes, List.length_append, List.length_singleton, streamWidths_succ,
    List.zip_append (streamWidths_length _).symm]
  rfl

theorem streamBits_packedCodes (cs : List Code) : streamBits (packedCodes cs) = (streamWidths cs.length).sum := by
  rw [streamBits, packedCodes, List.map_snd_zip (streamWidths_length _).le]

/-! ### What the turns of a pass have written (44_encoder R128, R130) -/

/-- The pass has written the codes `cs` before the state `x`, and `b` is the first of its codes, written or pending. -/
structure Written (b : Code) (cs : List Code) (x : State) : Prop where
  codes : x.codes.toNat = cs.length
  size : x.dictSize.toNat = scheduleSize cs.length
  resets : x.dictResets.toNat = scheduleResets cs.length
  bits : x.wcur.toNat = streamBits (packedCodes cs)
  stream : HoldsStream x.obuf 0 (packedCodes cs)
  first : (cs ++ [x.pfx]).head? = some b

/-- The turn from `x`, turn `j` of the run from `t`, writes code `k` of the pass: PREFIX, at the width of the
schedule. -/
structure WritesCode (t : State) (k j : Nat) (x : State) : Prop where
  run : engineRun j t = some x
  inv : Inv x
  encoding : x.fsm = .encMatch ∨ x.fsm = .encFlush
  codes : x.codes.toNat = k
  width : x.codeWidth.toNat = streamWidth k
  turn : ∃ y, engineTurn x = .next y ∧ y.codes.toNat = k + 1

section
variable {b : Code} {cs : List Code} {s t x y z u : State} {i j k : Nat}

/-- The width at which the next code is written. -/
theorem Written.width (h : Written b cs x) (hx : Inv x) : x.codeWidth.toNat = streamWidth cs.length :=
  hx.dict.codeWidth_of_schedule h.size

/-- The first find of a pass fails: the dictionary has no entries, so it holds no live added code (44_encoder R130). -/
theorem Written.ne_nil_of_live (h : Written b cs x) {r : Code} (hr : 256 ≤ r.toNat ∧ r.toNat < x.dictSize.toNat) :
    cs ≠ [] := by
  rintro rfl
  rw [h.size] at hr
  simp [scheduleSize] at hr
  omega

theorem Written.head_of_ne_nil (h : Written b cs x) (hne : cs ≠ []) : cs.head? = some b := by
  rw [← h.first, List.head?_append_of_ne_nil _ hne]

/-- PREFIX appended at WCUR continues the stream. -/
theorem Written.stream_snoc (h : Written b cs x) (hx : Inv x) {m : Memory}
    (happ : CodeAppended x.obuf m x.wcur.toNat x.pfx x.codeWidth.toNat) :
    HoldsStream m 0 (packedCodes (cs ++ [x.pfx])) := by
  rw [h.bits, h.width hx] at happ
  rw [packedCodes_snoc]
  exact h.stream.snoc happ

theorem Written.bits_snoc (h : Written b cs x) (hx : Inv x) (c : Code) :
    x.wcur.toNat + x.codeWidth.toNat = streamBits (packedCodes (cs ++ [c])) := by
  rw [packedCodes_snoc, streamBits_append, streamBits_cons, h.bits, h.width hx]
  rfl

/-- A miss writes one more code and counts one more add. -/
theorem Written.miss (h : Written b cs x) (hx : Inv x) (hf : x.fsm = .encMatch) (hfit : CodeFits x) {m : Memory}
    (happ : CodeAppended x.obuf m x.wcur.toNat x.pfx x.codeWidth.toNat) (ht : List (Nat × Slot)) (n : BitVec 13) :
    Written b (cs ++ [x.pfx]) (encMissed x m ht n) := by
  have he := hx.enc (.inl hf)
  have hlen : (cs ++ [x.pfx]).length = cs.length + 1 := List.length_append
  have hsize := h.size
  refine ⟨?_, ?_, ?_, ?_, h.stream_snoc hx happ, ?_⟩
  · rw [hlen, ← h.codes]
    exact he.codes_succ hx.params
  · rw [hlen, scheduleSize_succ, ← hsize]
    simp only [encMissed, encAdded]
    split
    · rfl
    · rename_i hroom
      exact dictSize_add_one (lt_of_le_of_ne hx.dict.size_le hroom)
  · rw [hlen, scheduleResets_succ, ← hsize, ← h.resets]
    simp only [encMissed, encAdded]
    have hbelow := hx.resets_below (by simp [hf])
    split
    · exact word_add_one (by unfold Config.counterBound at hbelow; omega)
    · rfl
  · rw [← h.bits_snoc hx]
    exact hfit.wcur_add he.outCap_le hx.params
  · rw [List.head?_append_of_ne_nil _ (by simp)]
    exact h.first

/-- The flush writes the last code, pads the last byte and reports both lengths. -/
theorem Written.flush (h : Written b cs x) (hx : Inv x) (hf : x.fsm = .encFlush) (hfit : CodeFits x) {m n : Memory}
    (happ : CodeAppended x.obuf m x.wcur.toNat x.pfx x.codeWidth.toNat)
    (hpad : ByteFinished m n (x.wcur.toNat + x.codeWidth.toNat)) :
    (encFlushed x n).codes.toNat = (cs ++ [x.pfx]).length ∧
      (encFlushed x n).outBits.toNat = streamBits (packedCodes (cs ++ [x.pfx])) ∧
      (encFlushed x n).outLen.toNat = ceil8 (encFlushed x n).outBits.toNat ∧
      HoldsStream n 0 (packedCodes (cs ++ [x.pfx])) ∧
      ∀ p, streamBits (packedCodes (cs ++ [x.pfx])) ≤ p → p < 8 * ceil8 (streamBits (packedCodes (cs ++ [x.pfx]))) →
        bufBit n p = false := by
  have he := hx.enc (.inr hf)
  have hbits := h.bits_snoc hx x.pfx
  have hwcur : (encFlushed x n).outBits.toNat = _ := hfit.wcur_add he.outCap_le hx.params
  rw [hwcur, hbits]
  rw [hbits] at hpad
  refine ⟨?_, rfl, ?_, (h.stream_snoc hx happ).finish hpad, fun p hlo hhi => hpad.padding hlo hhi⟩
  · rw [List.length_append, ← h.codes]
    exact he.codes_succ hx.params
  · have hcap : ceil8 (x.wcur.toNat + x.codeWidth.toNat) ≤ x.outCap.toNat := hfit
    rw [← hbits]
    exact Nat.mod_eq_of_lt (hcap.trans_lt x.outCap.isLt)

/-- A turn that counts one more code writes PREFIX at the width of the schedule. -/
theorem Written.writesCode (h : Written b cs x) (hx : Inv x) (hf : x.fsm = .encMatch ∨ x.fsm = .encFlush)
    (hrun : engineRun j t = some x) (hturn : engineTurn x = .next y) (hcount : y.codes = x.codes + 1#32) :
    WritesCode t cs.length j x :=
  ⟨hrun, hx, hf, h.codes, h.width hx, y, hturn, by rw [hcount, (hx.enc hf).codes_succ hx.params, h.codes]⟩

/-- Each of the codes `cs` was written by a turn before turn `j` of the run from `t`, after a failed find. -/
def MissesTraced (t : State) (j : Nat) (cs : List Code) : Prop :=
  ∀ k < cs.length, ∃ i < j, ∃ x, WritesCode t k i x ∧ cs[k]? = some x.pfx ∧ x.fsm = .encMatch ∧
    ∃ v, dictFind x.pfx (nextByte x) x = .done Config.notFound v

theorem MissesTraced.succ (h : MissesTraced t j cs) : MissesTraced t (j + 1) cs := fun k hk => by
  obtain ⟨i, hi, hx⟩ := h k hk
  exact ⟨i, hi.trans (Nat.lt_succ_self j), hx⟩

theorem MissesTraced.snoc (h : MissesTraced t j cs) (hw : WritesCode t cs.length j x) (hf : x.fsm = .encMatch)
    (hfind : ∃ v, dictFind x.pfx (nextByte x) x = .done Config.notFound v) :
    MissesTraced t (j + 1) (cs ++ [x.pfx]) := fun k hk => by
  rw [List.length_append, List.length_singleton] at hk
  rcases Nat.lt_succ_iff_lt_or_eq.1 hk with hold | rfl
  · rw [List.getElem?_append_left hold]
    exact h.succ k hold
  · exact ⟨j, Nat.lt_succ_self j, x, hw, List.getElem?_concat_length, hf, hfind⟩

/-- With the code of the flush behind them, the codes of the misses are all codes of the pass. -/
theorem MissesTraced.flush (h : MissesTraced t i cs) (hw : WritesCode t cs.length i z) (hf : z.fsm = .encFlush)
    (hk : k < (cs ++ [z.pfx]).length) :
    ∃ j x, j ≤ i ∧ WritesCode t k j x ∧ (cs ++ [z.pfx])[k]? = some x.pfx ∧
      (k + 1 = (cs ++ [z.pfx]).length → x.fsm = .encFlush) ∧
      (k + 1 < (cs ++ [z.pfx]).length → x.fsm = .encMatch ∧
        ∃ v, dictFind x.pfx (nextByte x) x = .done Config.notFound v) := by
  rw [List.length_append, List.length_singleton] at hk ⊢
  rcases Nat.lt_succ_iff_lt_or_eq.1 hk with hold | rfl
  · obtain ⟨j, hj, x, hx, hget, hmatch⟩ := h k hold
    exact ⟨j, x, hj.le, hx, (List.getElem?_append_left hold).trans hget, fun _ => by omega, fun _ => hmatch⟩
  · exact ⟨i, z, le_rfl, hw, List.getElem?_concat_length, fun _ => hf, fun hlt => absurd hlt (lt_irrefl _)⟩

/-- One turn inside a pass: what was written stays traced. -/
theorem Written.turn (h : Written b cs x) (hm : MissesTraced t j cs) (hx : Inv x) (hrun : engineRun j t = some x)
    (hturn : engineTurn x = .next y) (hkind : EncTurn x y) (hy : y.fsm ≠ .idle) :
    ∃ cs, Written b cs y ∧ MissesTraced t (j + 1) cs := by
  cases hkind with
  | inputEnd => exact ⟨cs, { h with }, hm.succ⟩
  | hit _ _ hr =>
    refine ⟨cs, { h with first := ?_ }, hm.succ⟩
    have hne := h.ne_nil_of_live hr
    rw [List.head?_append_of_ne_nil _ hne]
    exact h.head_of_ne_nil hne
  | miss hf _ hfind hfit happ ht k =>
    exact ⟨_, h.miss hx hf hfit happ ht k, hm.snoc (h.writesCode hx (.inl hf) hrun hturn rfl) hf hfind⟩
  | overflow => exact absurd rfl hy
  | flush => exact absurd rfl hy

/-- What a pass has written after `j` of its turns, by induction on them. -/
theorem PassRun.written (h : PassRun s t i z u) (hstart : Written b [] t) (hj : j ≤ i) :
    ∃ cs x, engineRun j t = some x ∧ Written b cs x ∧ MissesTraced t j cs := by
  induction j with
  | zero => exact ⟨[], t, rfl, hstart, fun _ hk => absurd hk (Nat.not_lt_zero _)⟩
  | succ j ih =>
    obtain ⟨cs, x, hrun, hw, hm⟩ := ih (Nat.le_of_succ_le hj)
    obtain ⟨_, hrun', hx⟩ := h.through j (Nat.le_of_succ_le hj)
    obtain rfl := Option.some.inj (hrun.symm.trans hrun')
    obtain ⟨y, hturn, hkind⟩ := hx.inv.encTurn hx.encoding
    have hnext := engineRun_succ_last hrun hturn
    obtain ⟨_, hnext', hy⟩ := h.through (j + 1) hj
    obtain rfl := Option.some.inj (hnext.symm.trans hnext')
    obtain ⟨cs', hw', hm'⟩ := hw.turn hm hx.inv hrun hturn hkind
      (by rcases hy.encoding with hf | hf <;> simp [hf])
    exact ⟨cs', y, hnext, hw', hm'⟩

/-! ### CODES counts up -/

/-- A state of the encoder: in a COMPRESS pass, or outside any pass. -/
def EncoderOk (s : State) : Prop := Inv s ∧ (s.fsm = .idle ∨ s.fsm = .encMatch ∨ s.fsm = .encFlush)

theorem EncoderOk.turn (h : EncoderOk s) (hturn : engineTurn s = .next t) :
    EncoderOk t ∧ s.codes.toNat ≤ t.codes.toNat := by
  obtain ⟨hinv, hidle | hf⟩ := h
  · rw [engineTurn_idle (hinv.not_busy hidle)] at hturn
    cases hturn
    exact ⟨⟨hinv, .inl hidle⟩, le_rfl⟩
  · have ht := engineTurn_keeps_inv hinv hturn
    have hcount := ((hinv.enc hf).codes_succ hinv.params).ge
    obtain ⟨_, hturn', hkind⟩ := hinv.encTurn hf
    obtain rfl := Host.Outcome.next.inj (hturn.symm.trans hturn')
    cases hkind with
    | inputEnd => exact ⟨⟨ht, .inr (.inr rfl)⟩, le_rfl⟩
    | hit hf' => exact ⟨⟨ht, .inr (.inl hf')⟩, le_rfl⟩
    | miss hf' => exact ⟨⟨ht, .inr (.inl hf')⟩, (Nat.le_succ _).trans hcount⟩
    | overflow => exact ⟨⟨ht, .inl rfl⟩, le_rfl⟩
    | flush => exact ⟨⟨ht, .inl rfl⟩, (Nat.le_succ _).trans hcount⟩

theorem EncoderOk.run (h : EncoderOk s) (hrun : engineRun k s = some t) :
    EncoderOk t ∧ s.codes.toNat ≤ t.codes.toNat := by
  induction k generalizing s with
  | zero => cases hrun; exact ⟨h, le_rfl⟩
  | succ k ih =>
    obtain ⟨y, hturn, hrest⟩ := engineRun_succ_eq_some.1 hrun
    obtain ⟨hy, hle⟩ := h.turn hturn
    obtain ⟨ht, hle'⟩ := ih hy hrest
    exact ⟨ht, hle.trans hle'⟩

/-- Of two states of a run, the later one has counted at least as many codes. -/
theorem EncoderOk.codes_mono (h : EncoderOk t) (hij : i ≤ j) (hx : engineRun i t = some x)
    (hy : engineRun j t = some y) : x.codes.toNat ≤ y.codes.toNat := by
  rw [← Nat.add_sub_cancel' hij, engineRun_add, hx, Option.bind_some] at hy
  exact ((h.run hx).1.run hy).2

/-- Code `k` is written by one turn only: CODES is at most `k` up to it and above `k` after it. -/
theorem WritesCode.codes_le_iff (h : WritesCode t k j x) (ht : EncoderOk t) (hz : engineRun i t = some z) :
    z.codes.toNat ≤ k ↔ i ≤ j := by
  obtain ⟨y, hturn, hy⟩ := h.turn
  constructor
  · intro hle
    by_contra hlt
    have hmono := ht.codes_mono (Nat.lt_of_not_le hlt) (engineRun_succ_last h.run hturn) hz
    omega
  · intro hle
    exact (ht.codes_mono hle hz h.run).trans h.codes.le

/-- The code that is written is live and fits its width (41_code_width R105, 44_encoder R130). -/
theorem WritesCode.live (h : WritesCode t k j x) :
    x.pfx.toNat < x.dictSize.toNat ∧ x.pfx.toNat < 2 ^ streamWidth k := by
  have hlive := (h.inv.enc h.encoding).pfx_live
  have hfits := h.inv.dict.fits
  rw [h.width] at hfits
  exact ⟨hlive, hlive.trans_le hfits⟩

/-- COMPRESS begins with nothing written and the first byte pending. -/
theorem written_encStart (s : State) : Written ((s.ibuf.read 0).setWidth 16) [] (encStart s) :=
  ⟨rfl, rfl, rfl, rfl, .nil _, rfl⟩

end

/-- A COMPRESS whose pass is done was not refused at issue (44_encoder R122). -/
theorem compress_started {s t u : State} {k : Nat} (hb : s.status.busy = false) (hne : s.inLen ≠ 0#32)
    (hexec : exec .compress s = .next t) (hrun : engineRun k t = some u) (hdone : u.status = statusDone) :
    t = encStart s ∧ exec .compress s = .next (encStart s) := by
  obtain ⟨-, hrange, -, hstart⟩ := compressIssueStartsPass s hb
  by_cases hin : s.params.ibufCap < s.inLen.toNat ∨ s.params.obufCap < s.outCap.toNat
  · obtain rfl := Host.Outcome.next.inj ((hrange hin).symm.trans hexec)
    rw [engineRun_idle rfl] at hrun
    cases hrun
    cases hdone
  · obtain ⟨hin, hout⟩ := not_or.1 hin
    have hbegun := hstart (not_lt.1 hin) (not_lt.1 hout) hne
    exact ⟨Host.Outcome.next.inj (hexec.symm.trans hbegun), hbegun⟩

/-- Settles O40: the codes of the misses, by induction on the turns, and the code of the flush. -/
theorem compressOutputIsPackedCodes : Obligations.CompressOutputIsPackedCodes := by
  intro s t u h hb hne hexec hrun hdone
  obtain ⟨rfl, hstart⟩ := compress_started hb hne hexec hrun hdone
  obtain ⟨z, hpass, hf, hfit, m, n, happ, hpad, rfl⟩ := h.passRun_of_done hstart hne hrun hdone
  have hz := hpass.passAt
  have hok : EncoderOk (encStart s) := ⟨(h.passAt_start hstart hne).inv, .inr (.inl rfl)⟩
  obtain ⟨cs, x, hx, hw, hm⟩ := hpass.written (written_encStart s) le_rfl
  obtain rfl := Option.some.inj (hx.symm.trans hpass.run)
  obtain ⟨hcodes, hbits, hlen, hstream, hzero⟩ := hw.flush hz.inv hf hfit happ hpad
  have hlast := hw.writesCode hz.inv (.inr hf) hx hpass.turn rfl
  have hsucc : (cs ++ [x.pfx]).length = cs.length + 1 := List.length_append
  refine ⟨cs ++ [x.pfx], hcodes.symm, by omega, ?_, fun k hk => ?_, hbits.trans (streamBits_packedCodes _), rfl, hlen,
    fun p hp => ?_, fun p hlo hhi => ?_, ?_, ?_, ?_, List.getLast?_concat, hw.first⟩
  · have hcount := hw.codes
    have hlt := hz.enc.codes_lt
    have hle := hz.enc.ipos_le
    rw [hz.inLen] at hle
    omega
  · obtain ⟨j, x, hj, hx, hget, hflush, hmatch⟩ := hm.flush hlast hf hk
    obtain ⟨y, hturn, hy⟩ := hx.turn
    obtain ⟨hlive, hfits⟩ := hx.live
    exact ⟨j, x, y, hj, hx.run, engineRun_succ_last hx.run hturn, hx.codes, hy, fun _ _ => hx.codes_le_iff hok, hget,
      hlive, hfits, hx.width, hflush, hmatch⟩
  · rw [hbits] at hp
    have hbit := hstream p hp
    rwa [Nat.zero_add] at hbit
  · rw [hlen] at hhi
    rw [hbits] at hlo hhi
    exact hzero p hlo hhi
  · rw [hsucc]
    exact hw.size.trans (by simp [scheduleSize])
  · rw [hsucc]
    exact hw.resets
  · have hipos := hz.ipos
    rw [if_neg (lt_irrefl _)] at hipos
    exact BitVec.eq_of_toNat_eq hipos

end Sys2Proof.Machine

namespace Sys2Proof.Machine

/-! ### Bytes and their bits (20_memory R56) -/

theorem byte_eq_of_streamBits {b c : Byte} (h : ∀ r < 8, streamBit b r = streamBit c r) : b = c :=
  BitVec.eq_of_getLsbD_eq fun i hi => by
    have hbit := h (7 - i) (by omega)
    rwa [streamBit, streamBit, show 7 - (7 - i) % 8 = i by omega] at hbit

theorem bufBit_of_byte (m : Memory) (a : Nat) {r : Nat} (hr : r < 8) :
    bufBit m (8 * a + r) = streamBit (m.read a) r := by
  rw [bufBit, show (8 * a + r) / 8 = a by omega, streamBit, streamBit, Nat.mul_add_mod]

/-- A byte is its eight bits. -/
theorem read_eq_of_bufBits {m n : Memory} {a : Nat} (h : ∀ r < 8, bufBit m (8 * a + r) = bufBit n (8 * a + r)) :
    m.read a = n.read a :=
  byte_eq_of_streamBits fun r hr => by rw [← bufBit_of_byte m a hr, ← bufBit_of_byte n a hr, h r hr]

/-- A root at width 8 is its byte (44_encoder R125). -/
theorem streamOf_root (b : Byte) {r : Nat} (hr : r < 8) :
    (streamOf (packedCodes [b.setWidth 16])).getD r false = streamBit b r := by
  show (streamOf [(b.setWidth 16, 8)]).getD r false = _
  rw [streamOf_cons_getD, if_pos hr, BitVec.getLsbD_setWidth, streamBit, Nat.mod_eq_of_lt hr]
  simp only [show 8 - 1 - r < 16 by omega, decide_true, Bool.true_and]

/-- Settles O37: the bound of O39 is one byte, the pass of O38 takes two turns, and the one code of O40 is the byte. -/
theorem oneByteInputIsOneCode : Obligations.OneByteInputIsOneCode := by
  intro s h hb hlen hroom hout
  obtain ⟨-, hibuf, -, -, -⟩ := h.params
  have hne : s.inLen ≠ 0#32 := by rw [hlen]; decide
  have hone : s.inLen.toNat = 1 := by rw [hlen]; rfl
  have hin : s.inLen.toNat ≤ s.params.ibufCap := hone.trans_le hibuf
  have hstart := exec_compress_start hb hin hout hne
  obtain ⟨_, v, hexec, hrun, hdone, -, -⟩ := outputBoundSuffices s h hb hne hin hout (by rw [hone]; exact hroom)
  obtain rfl := Host.Outcome.next.inj (hstart.symm.trans hexec)
  obtain ⟨z, hpass, hf, -⟩ := h.passRun_of_done hstart hne hrun hdone
  obtain ⟨cs, hcodes, hge, hle, -, hbits, -, hbytes, hstream, -, hsize, -, -, -, hfirst⟩ :=
    compressOutputIsPackedCodes s _ v h hb hne hexec hrun hdone
  rw [hone] at hle hrun
  obtain ⟨c, rfl⟩ := List.length_eq_one_iff.1 (le_antisymm hle hge)
  obtain rfl : c = (s.ibuf.read 0).setWidth 16 := Option.some.inj hfirst
  have height : v.outBits.toNat = 8 := hbits
  rw [height] at hbytes hstream
  refine ⟨_, z, v, hstart, rfl, rfl, by rw [← hone]; exact hpass.run, hf, hrun, hdone, ?_, BitVec.eq_of_toNat_eq hbytes,
    BitVec.eq_of_toNat_eq height, BitVec.eq_of_toNat_eq hcodes.symm, BitVec.eq_of_toNat_eq hsize⟩
  refine byte_eq_of_streamBits fun r hr => ?_
  rw [← bufBit_of_byte _ _ hr, Nat.mul_zero, Nat.zero_add, hstream r hr]
  exact streamOf_root _ hr

/-! ### Hash tables with the same entries -/

/-- The two tables hold the same entries in the same slots; the fields of free slots may differ. -/
def SameEntries (ht ht' : List (Nat × Slot)) : Prop :=
  ∀ i, (slotAt ht i).occ = (slotAt ht' i).occ ∧ ((slotAt ht i).occ = true → slotAt ht i = slotAt ht' i)

section
variable {ht ht' hu hu' : List (Nat × Slot)} {p c : Code} {e : Byte} {x y : State}

theorem NoEntries.sameEntries (h : NoEntries ht) (h' : NoEntries ht') : SameEntries ht ht' := fun i =>
  ⟨(h i).trans (h' i).symm, fun ho => by rw [h i] at ho; cases ho⟩

/-- The probe loop looks at entries only. -/
theorem SameEntries.probeFind (h : SameEntries ht ht') (b idx : SlotIdx) (fuel i : Nat) :
    probeFind ht p e b fuel idx i = probeFind ht' p e b fuel idx i := by
  induction fuel generalizing idx i with
  | zero => rfl
  | succ fuel ih =>
    obtain ⟨hocc, hslot⟩ := h idx
    rw [Machine.probeFind, Machine.probeFind, ih, ← hocc]
    by_cases ho : (slotAt ht idx).occ = false
    · rw [if_pos ho, if_pos ho]
    · rw [if_neg ho, if_neg ho, hslot (by simpa using ho)]

/-- dictFind answers from the entries alone (44_encoder R131). -/
theorem SameEntries.dictFind (h : SameEntries x.ht y.ht) (hx : DictOk x) (hp : p ≠ Config.invalid) (e : Byte) :
    ∃ (r : Code) (k : BitVec 13), dictFind p e x = .done r { x with lastProbes := k } ∧
      dictFind p e y = .done r { y with lastProbes := k } := by
  obtain ⟨r, k, -, hfind⟩ := hx.dictFind_done p e
  refine ⟨r, k, hfind, ?_⟩
  rw [Machine.dictFind, if_neg hp] at hfind ⊢
  rw [← h.probeFind]
  cases hprobe : Machine.probeFind x.ht p e (hashH2 p e) Config.hashSlots (hashH1 p e) 0 with
  | none => rw [hprobe] at hfind; cases hfind
  | some a =>
    rw [hprobe] at hfind
    obtain ⟨rfl, hstate⟩ := Flow.done.inj hfind
    obtain rfl := congrArg State.lastProbes hstate
    rfl

/-- A key is stored in the same slot of tables with the same entries. -/
theorem SameEntries.stored (h : SameEntries ht ht') (hs : KeyStored p e c ht hu) (hs' : KeyStored p e c ht' hu') :
    SameEntries hu hu' := by
  obtain ⟨n, -, hj, hfree, hread⟩ := hs
  obtain ⟨n', -, hj', hfree', hread'⟩ := hs'
  have hn : n = n' := by
    rcases Nat.lt_trichotomy n n' with hlt | heq | hgt
    · have hocc := (h _).1.trans (hj' n hlt)
      rw [hfree] at hocc
      cases hocc
    · exact heq
    · have hocc := (h _).1.symm.trans (hj n' hgt)
      rw [hfree'] at hocc
      cases hocc
  subst hn
  intro i
  rw [hread, hread']
  split
  · exact ⟨rfl, fun _ => rfl⟩
  · exact h i

theorem SameEntries.added (h : SameEntries x.ht y.ht) (hsize : x.dictSize = y.dictSize) (ha : KeyAdded p e x hu)
    (ha' : KeyAdded p e y hu') : SameEntries hu hu' := by
  unfold KeyAdded at ha'
  rw [← hsize] at ha'
  rcases ha with ⟨hroom, hs⟩ | ⟨hfull, hs⟩
  · exact h.stored hs (ha'.resolve_right fun hf => hroom hf.1).2
  · exact ((noEntries_clearOcc _).sameEntries (noEntries_clearOcc _)).stored hs
      (ha'.resolve_left fun hr => hr.1 hfull).2

end

/-! ### Two passes over the same input (44_encoder R131) -/

/-- Two passes that agree: in every register that 44_encoder R131 speaks of, in the entries of HT, in the input, in the
output written so far, and, once done, in the bytes of the result. -/
structure SamePass (x y : State) : Prop where
  status : x.status = y.status
  fsm : x.fsm = y.fsm
  inLen : x.inLen = y.inLen
  outCap : x.outCap = y.outCap
  outLen : x.outLen = y.outLen
  outBits : x.outBits = y.outBits
  codes : x.codes = y.codes
  dictResets : x.dictResets = y.dictResets
  dictSize : x.dictSize = y.dictSize
  codeWidth : x.codeWidth = y.codeWidth
  wcur : x.wcur = y.wcur
  ipos : x.ipos = y.ipos
  pfx : x.pfx = y.pfx
  entries : SameEntries x.ht y.ht
  input : ∀ a < x.inLen.toNat, x.ibuf.read a = y.ibuf.read a
  output : ∀ q < x.wcur.toNat, bufBit x.obuf q = bufBit y.obuf q
  bytes : x.status = statusDone → ∀ a < x.outLen.toNat, x.obuf.read a = y.obuf.read a

/-- One code appended to two outputs that agree. -/
theorem CodeAppended.agree {old old' new new' : Memory} {pos w : Nat} {c : Code}
    (hold : ∀ q < pos, bufBit old q = bufBit old' q) (h : CodeAppended old new pos c w)
    (h' : CodeAppended old' new' pos c w) : ∀ q < pos + w, bufBit new q = bufBit new' q := fun q hq => by
  rw [h q, h' q]
  by_cases hlt : q < pos
  · rw [if_pos hlt, if_pos hlt, hold q hlt]
  · rw [if_neg hlt, if_neg hlt, if_pos hq, if_pos hq]

/-- Two outputs that agree, finished, agree in whole bytes. -/
theorem ByteFinished.agree {old old' new new' : Memory} {pos : Nat} (hold : ∀ q < pos, bufBit old q = bufBit old' q)
    (h : ByteFinished old new pos) (h' : ByteFinished old' new' pos) :
    ∀ q < 8 * ceil8 pos, bufBit new q = bufBit new' q := fun q hq => by
  by_cases hlt : q < pos
  · rw [h q, h' q, if_neg (by omega), if_neg (by omega), hold q hlt]
  · rw [h.padding (not_lt.1 hlt) hq, h'.padding (not_lt.1 hlt) hq]

section
variable {x y x' y' : State}

/-- A code fits in both passes or in neither. -/
theorem SamePass.fits_iff (h : SamePass x y) : CodeFits x ↔ CodeFits y := by
  rw [CodeFits, CodeFits, h.wcur, h.codeWidth, h.outCap]

/-- A pass that runs is not done. -/
theorem Inv.not_done (h : Inv x) (hf : x.fsm ≠ .idle) : x.status ≠ statusDone := by
  rw [h.status_eq_busy hf]
  decide

/-- A miss in both passes. -/
theorem SamePass.missed (h : SamePass x y) (hx : Inv x) (hf : x.fsm = .encMatch) (hfit : CodeFits x)
    (hbyte : nextByte x = nextByte y) {m m' : Memory} {ht ht' : List (Nat × Slot)} {n n' : BitVec 13}
    (happ : CodeAppended x.obuf m x.wcur.toNat x.pfx x.codeWidth.toNat)
    (happ' : CodeAppended y.obuf m' y.wcur.toNat y.pfx y.codeWidth.toNat)
    (hkey : KeyAdded x.pfx (nextByte x) x ht) (hkey' : KeyAdded y.pfx (nextByte y) y ht') :
    SamePass (encMissed x m ht n) (encMissed y m' ht' n') := by
  rw [← h.wcur, ← h.pfx, ← h.codeWidth] at happ'
  rw [← h.pfx, ← hbyte] at hkey'
  have hwcur := hfit.wcur_add (hx.enc (.inl hf)).outCap_le hx.params
  have hbusy := hx.not_done (by simp [hf])
  exact
    { h with
      codes := congrArg (· + 1#32) h.codes
      dictResets := by simp only [encMissed, encAdded, h.dictSize, h.dictResets]
      dictSize := by simp only [encMissed, encAdded, h.dictSize]
      codeWidth := by simp only [encMissed, encAdded, h.dictSize, h.codeWidth]
      wcur := by simp only [encMissed, encAdded, h.wcur, h.codeWidth]
      ipos := congrArg (· + 1#32) h.ipos
      pfx := congrArg (BitVec.setWidth 16) hbyte
      entries := h.entries.added h.dictSize hkey hkey'
      output := fun q hq => happ.agree h.output happ' q (hq.trans_eq hwcur)
      bytes := fun hdone => absurd hdone hbusy }

/-- The flush in both passes. -/
theorem SamePass.flushed (h : SamePass x y) (hx : Inv x) (hf : x.fsm = .encFlush) (hfit : CodeFits x)
    {m m' n n' : Memory}
    (happ : CodeAppended x.obuf m x.wcur.toNat x.pfx x.codeWidth.toNat)
    (happ' : CodeAppended y.obuf m' y.wcur.toNat y.pfx y.codeWidth.toNat)
    (hpad : ByteFinished m n (x.wcur.toNat + x.codeWidth.toNat))
    (hpad' : ByteFinished m' n' (y.wcur.toNat + y.codeWidth.toNat)) :
    SamePass (encFlushed x n) (encFlushed y n') := by
  rw [← h.wcur, ← h.pfx, ← h.codeWidth] at happ'
  rw [← h.wcur, ← h.codeWidth] at hpad'
  have hbits := hpad.agree (happ.agree h.output happ') hpad'
  have hcap : ceil8 (x.wcur.toNat + x.codeWidth.toNat) ≤ x.outCap.toNat := hfit
  have hwcur := hfit.wcur_add (hx.enc (.inr hf)).outCap_le hx.params
  have hend : x.wcur + BitVec.ofNat 32 x.codeWidth.toNat = y.wcur + BitVec.ofNat 32 y.codeWidth.toNat := by
    rw [h.wcur, h.codeWidth]
  exact
    { h with
      status := rfl
      fsm := rfl
      outLen := by simp only [encFlushed, h.wcur, h.codeWidth]
      outBits := hend
      codes := congrArg (· + 1#32) h.codes
      wcur := hend
      output := fun q hq => hbits q (by have := hq.trans_eq hwcur; unfold ceil8; omega)
      bytes := fun _ a ha => read_eq_of_bufBits fun r hr => hbits _ (by
        have hlen : (encFlushed x n).outLen.toNat = ceil8 (x.wcur.toNat + x.codeWidth.toNat) :=
          Nat.mod_eq_of_lt (hcap.trans_lt x.outCap.isLt)
        omega) }

/-- One turn of ENC_MATCH in both passes. -/
theorem SamePass.turn_match (h : SamePass x y) (hx : Inv x) (hy : Inv y) (hf : x.fsm = .encMatch) :
    ∃ x' y', engineTurn x = .next x' ∧ engineTurn y = .next y' ∧ SamePass x' y' := by
  have hfy : y.fsm = .encMatch := h.fsm.symm.trans hf
  have hbusy := hx.not_done (by simp [hf])
  by_cases hend : x.ipos = x.inLen
  · refine ⟨_, _, hx.encMatch_end hf hend, hy.encMatch_end hfy (by rw [← h.ipos, hend, h.inLen]), ?_⟩
    exact { h with fsm := rfl, bytes := fun hdone => absurd hdone hbusy }
  have hendy : y.ipos ≠ y.inLen := by rwa [← h.ipos, ← h.inLen]
  have hbyte : nextByte x = nextByte y := by
    rw [nextByte, nextByte, ← h.ipos]
    exact h.input _ (hx.ipos_lt hf hend)
  obtain ⟨r, k, hfind, hfindy⟩ := h.entries.dictFind hx.dict ((hx.enc (.inl hf)).pfx_ne_invalid hx.dict) (nextByte x)
  rw [h.pfx, hbyte] at hfindy
  by_cases hr : r = Config.notFound
  · subst hr
    by_cases hfit : CodeFits x
    · obtain ⟨m, _, ht, n, happ, hkey, -, hturn⟩ := hx.encMatch_miss hf hend hfind hfit
      obtain ⟨m', _, ht', n', happ', hkey', -, hturn'⟩ :=
        hy.encMatch_miss hfy hendy hfindy (h.fits_iff.1 hfit)
      exact ⟨_, _, hturn, hturn', h.missed hx hf hfit hbyte happ happ' hkey hkey'⟩
    · refine ⟨_, _, hx.encMatch_overflow hf hend hfind hfit,
        hy.encMatch_overflow hfy hendy hfindy (mt h.fits_iff.2 hfit), ?_⟩
      exact { h with status := rfl, fsm := rfl, bytes := nofun }
  · refine ⟨_, _, hx.encMatch_hit hf hend hfind hr, hy.encMatch_hit hfy hendy hfindy hr, ?_⟩
    exact { h with
      pfx := rfl, ipos := congrArg (· + 1#32) h.ipos, bytes := fun hdone => absurd hdone hbusy }

/-- One turn of ENC_FLUSH in both passes. -/
theorem SamePass.turn_flush (h : SamePass x y) (hx : Inv x) (hy : Inv y) (hf : x.fsm = .encFlush) :
    ∃ x' y', engineTurn x = .next x' ∧ engineTurn y = .next y' ∧ SamePass x' y' := by
  have hfy : y.fsm = .encFlush := h.fsm.symm.trans hf
  by_cases hfit : CodeFits x
  · obtain ⟨m, n, happ, hpad, hturn⟩ := hx.encFlush_done hf hfit
    obtain ⟨m', n', happ', hpad', hturn'⟩ := hy.encFlush_done hfy (h.fits_iff.1 hfit)
    exact ⟨_, _, hturn, hturn', h.flushed hx hf hfit happ happ' hpad hpad'⟩
  · refine ⟨_, _, hx.encFlush_overflow hf hfit, hy.encFlush_overflow hfy (mt h.fits_iff.2 hfit), ?_⟩
    exact { h with status := rfl, fsm := rfl, bytes := nofun }

/-- One turn of the engine keeps two passes in agreement. -/
theorem SamePass.turn (h : SamePass x y) (hx : EncoderOk x) (hy : Inv y) :
    ∃ x' y', engineTurn x = .next x' ∧ engineTurn y = .next y' ∧ SamePass x' y' := by
  obtain ⟨hinv, hidle | hf | hf⟩ := hx
  · exact ⟨x, y, engineTurn_idle (hinv.not_busy hidle), engineTurn_idle (hy.not_busy (h.fsm.symm.trans hidle)), h⟩
  · exact h.turn_match hinv hy hf
  · exact h.turn_flush hinv hy hf

theorem SamePass.run (h : SamePass x y) (hx : EncoderOk x) (hy : Inv y) {k : Nat} (hrun : engineRun k x = some x')
    (hrun' : engineRun k y = some y') : SamePass x' y' := by
  induction k generalizing x y with
  | zero => cases hrun; cases hrun'; exact h
  | succ k ih =>
    obtain ⟨u, v, hturn, hturn', hsame⟩ := h.turn hx hy
    rw [engineRun_succ_of_turn hturn] at hrun
    rw [engineRun_succ_of_turn hturn'] at hrun'
    exact ih hsame (hx.turn hturn).1 (engineTurn_keeps_inv hy hturn') hrun hrun'

/-- Two passes over the same input begin in agreement (44_encoder R122). -/
theorem samePass_encStart {s s' : State} (hlen : s.inLen = s'.inLen) (hcap : s.outCap = s'.outCap)
    (hpos : 0 < s.inLen.toNat) (hin : ∀ a < s.inLen.toNat, s.ibuf.read a = s'.ibuf.read a) :
    SamePass (encStart s) (encStart s') where
  status := rfl
  fsm := rfl
  inLen := hlen
  outCap := hcap
  outLen := rfl
  outBits := rfl
  codes := rfl
  dictResets := rfl
  dictSize := rfl
  codeWidth := rfl
  wcur := rfl
  ipos := rfl
  pfx := congrArg (BitVec.setWidth 16) (hin 0 hpos)
  entries := (noEntries_clearOcc _).sameEntries (noEntries_clearOcc _)
  input := hin
  output := fun _ hq => absurd hq (Nat.not_lt_zero _)
  bytes := nofun

end

/-- Settles O41: two passes begin in agreement, and every turn keeps them so. -/
theorem compressIgnoresEarlierState : Obligations.CompressIgnoresEarlierState := by
  intro s s' t t' u u' k h h' hb hb' hlen hne hcap hinput hin hin' hout hout' hexec hexec' hrun hrun'
  have hstart := exec_compress_start hb hin hout hne
  have hstart' := exec_compress_start hb' (hlen ▸ hin') (hcap ▸ hout') (hlen ▸ hne)
  obtain rfl := Host.Outcome.next.inj (hstart.symm.trans hexec)
  obtain rfl := Host.Outcome.next.inj (hstart'.symm.trans hexec')
  have hsame := (samePass_encStart hlen hcap (word_pos hne) hinput).run ⟨exec_keeps h hexec, .inr (.inl rfl)⟩
    (exec_keeps h' hexec') hrun hrun'
  exact ⟨hsame.status, hsame.fsm, hsame.outLen, hsame.outBits, hsame.codes, hsame.dictResets, hsame.dictSize,
    hsame.codeWidth, hsame.wcur, hsame.ipos, hsame.pfx, hsame.bytes⟩

end Sys2Proof.Machine

namespace Sys2Proof.Machine

/-! ### DECOMPRESS at issue (45_decoder R134) -/

section
variable {s : State}

/-- The state in which DECOMPRESS leaves a pass that it has begun (45_decoder R134). -/
def decStart (s : State) : State :=
  { s with
    status := statusBusy, outLen := 0#32, outBits := 0#32, codes := 0#32, dictResets := 0#32, ht := clearOcc s.ht,
    dictSize := 256#13, codeWidth := 8#4, wcur := 0#32, rcur := 0#32, fsm := .decFirst }

theorem decompressRule_configRange (h : 8 * s.params.ibufCap < s.inBits.toNat ∨ s.params.obufCap < s.outCap.toNat) :
    decompressRule s = .raised .configRange s := if_pos h

theorem decompressRule_inRange (hin : s.inBits.toNat ≤ 8 * s.params.ibufCap) (hout : s.outCap.toNat ≤ s.params.obufCap) :
    decompressRule s =
      if s.inBits = 0#32 then .done () (setEmpty (setRcur 0#32 (passStart s)))
      else .done () (startEngine .decFirst (setRcur 0#32 (passStart s))) :=
  if_neg (not_or.2 ⟨Nat.not_lt.2 hin, Nat.not_lt.2 hout⟩)

/-- DECOMPRESS of an empty stream is done at issue (45_decoder R134). -/
theorem exec_decompress_empty (hb : s.status.busy = false) (hin : s.inBits.toNat ≤ 8 * s.params.ibufCap)
    (hout : s.outCap.toNat ≤ s.params.obufCap) (hzero : s.inBits = 0#32) :
    exec .decompress s = .next
      { s with
        status := statusEmpty, outLen := 0#32, outBits := 0#32, codes := 0#32, dictResets := 0#32, ht := clearOcc s.ht,
        dictSize := 256#13, codeWidth := 8#4, wcur := 0#32, rcur := 0#32 } := by
  have hrule : commandRule .decompress (clearFlags s)
      = .done () (setEmpty (setRcur 0#32 (passStart (clearFlags s)))) :=
    (decompressRule_inRange (s := clearFlags s) hin hout).trans (if_pos hzero)
  rw [exec_eq, runCommand_done hb hrule, if_neg (by simp [hb])]
  simp [setDone, setEmpty, setRcur, passStart, clearCounters, dictReset, clearFlags, hb, statusEmpty]

/-- DECOMPRESS of a stream begins a pass (45_decoder R134). -/
theorem exec_decompress_start (hb : s.status.busy = false) (hin : s.inBits.toNat ≤ 8 * s.params.ibufCap)
    (hout : s.outCap.toNat ≤ s.params.obufCap) (hne : s.inBits ≠ 0#32) : exec .decompress s = .next (decStart s) := by
  have hrule := (decompressRule_inRange (s := clearFlags s) hin hout).trans (if_neg hne)
  exact (exec_eq .decompress s).trans ((runCommand_done hb hrule).trans (congrArg Host.Outcome.next (if_pos rfl)))

end

/-- Settles O42: the three ways the rule of DECOMPRESS ends. -/
theorem decompressIssueStartsPass : Obligations.DecompressIssueStartsPass := fun s hb =>
  ⟨clearOcc_occ s.ht, fun hrange => exec_raised (t := clearFlags s) hb (decompressRule_configRange hrange),
    exec_decompress_empty hb, exec_decompress_start hb⟩

/-! ### The DEC_FIRST step (45_decoder R140) -/

section
variable {s : State}

theorem decEmit_overflow {q : ByteSeq} (h : s.outCap.toNat < s.wcur.toNat / 8 + q.length) :
    decEmit q s = .raised .outputOverflow s := if_pos h

/-- The DEC_FIRST step once its code is read emits the code's low byte and makes it PREV (45_decoder R140). -/
theorem decFirstRule_read {c : Code} {t : State} (hread : brRead Config.initWidth s = .done c t) :
    decFirstRule s = (decEmit { head := c.extractLsb' 0 8, tail := [] } { t with codes := 1#32 }).bind fun _ u =>
      .done () { u with prev := { head := c.extractLsb' 0 8, tail := [] }, fsm := .decLoop } := by
  rw [decFirstRule, hread, Flow.bind_done]

/-- The first 8 bits of the stream are the first byte of IBUF (20_memory R56). -/
theorem firstCode_byte {m : Memory} {c : Code}
    (h : ∀ j < 16, c.getLsbD j = if j < 8 then bufBit m (7 - j) else false) : c.extractLsb' 0 8 = m.read 0 :=
  BitVec.eq_of_getLsbD_eq fun i hi => by
    have hpos : (7 - i) / 8 = 0 ∧ 7 - (7 - i) % 8 = i := by omega
    rw [BitVec.getLsbD_extractLsb', h (0 + i) (by omega), if_pos (by omega), Nat.zero_add, bufBit, streamBit, hpos.1,
      hpos.2]
    simp [hi]

/-- What the DEC_FIRST step leaves (45_decoder R140). -/
def decFirstDone (s : State) : State :=
  { s with
    rcur := 8#32, codes := 1#32, obuf := s.obuf.write 0 (s.ibuf.read 0), wcur := 8#32,
    prev := { head := s.ibuf.read 0, tail := [] }, fsm := .decLoop }

variable (h : Inv s) (hf : s.fsm = .decFirst)
include h hf

theorem Inv.engineTurn_decFirst : engineTurn s = runStep decFirstRule s := by
  rw [engineTurn_eq (h.status_busy (by simp [hf])), hf]
  rfl

/-- Fewer bits than a root's end the pass before anything is read. -/
theorem Inv.decFirst_truncated (hshort : s.inBits.toNat < 8) :
    engineTurn s = .next { s with status := statusError .truncated, fsm := .idle } := by
  have hrule : decFirstRule s = .raised .truncated s := by
    rw [decFirstRule, brRead_truncated (w := Config.initWidth) (lt_of_le_of_lt (Nat.sub_le _ _) hshort), Flow.bind_raised]
  exact (h.engineTurn_decFirst hf).trans (runStep_raised hrule)

/-- DEC_FIRST reads the first byte of IBUF. -/
theorem Inv.decFirst_read (hlong : 8 ≤ s.inBits.toNat) :
    ∃ c : Code, c.extractLsb' 0 8 = s.ibuf.read 0 ∧ brRead Config.initWidth s = .done c { s with rcur := 8#32 } := by
  obtain ⟨-, -, hrcur, -⟩ := h.decFirst hf
  have hstart : s.rcur.toNat = 0 := by rw [hrcur]; rfl
  obtain ⟨c, hread, -, hbits⟩ := brRead_run (w := Config.initWidth) (h.dec (.inl hf)).inBits_le
    (by rw [hstart]; exact hlong)
  rw [hstart] at hbits
  rw [show s.rcur + BitVec.ofNat 32 Config.initWidth = 8#32 by rw [hrcur]; rfl] at hread
  exact ⟨c, firstCode_byte hbits, hread⟩

/-- An output of no bytes has no room for the first root. -/
theorem Inv.decFirst_overflow (hlong : 8 ≤ s.inBits.toNat) (hcap : s.outCap = 0#32) :
    engineTurn s = .next { s with rcur := 8#32, codes := 1#32, status := statusError .outputOverflow, fsm := .idle } := by
  obtain ⟨c, -, hread⟩ := h.decFirst_read hf hlong
  have hrule := decFirstRule_read hread
  rw [decEmit_overflow (by simp [hcap, ByteSeq.length]), Flow.bind_raised] at hrule
  exact (h.engineTurn_decFirst hf).trans (runStep_raised hrule)

/-- The first root is emitted and becomes PREV. -/
theorem Inv.decFirst_done (hlong : 8 ≤ s.inBits.toNat) (hcap : s.outCap ≠ 0#32) :
    engineTurn s = .next (decFirstDone s) := by
  obtain ⟨-, -, -, hwcur⟩ := h.decFirst hf
  obtain ⟨-, -, -, hpos, -⟩ := h.params
  have hroom := word_pos hcap
  obtain ⟨c, hbyte, hread⟩ := h.decFirst_read hf hlong
  have hrule := decFirstRule_read hread
  have hemit : decEmit { head := s.ibuf.read 0, tail := [] } { s with rcur := 8#32, codes := 1#32 }
      = .done () { s with rcur := 8#32, codes := 1#32, obuf := s.obuf.write 0 (s.ibuf.read 0), wcur := 8#32 } := by
    have hfit : ¬ s.outCap.toNat < 1 := by omega
    have hbelow : 0 < s.params.obufCap := hpos
    simp [decEmit, ByteSeq.length, ByteSeq.toList, decPutBytes, obufWrite, hwcur, hfit, hbelow]
  rw [hbyte, hemit, Flow.bind_done] at hrule
  exact (h.engineTurn_decFirst hf).trans (runStep_done hrule)

end

/-- Settles O43: the read fails, or the root has no room, or it has. -/
theorem decFirstStepEmitsRoot : Obligations.DecFirstStepEmitsRoot := fun _ h hf =>
  ⟨h.decFirst_truncated hf, h.decFirst_overflow hf, h.decFirst_done hf⟩

/-! ### The DEC_LOOP step (45_decoder R141) -/

section
variable {s u : State} {c : Code} {q : ByteSeq}

/-- `q` is the sequence of the code `c` in the state `u`: a root's byte, the entry of a live code, or the synthesised
sequence of the code DICT_SIZE (45_decoder R135, R136). -/
def DecodesTo (u : State) (c : Code) (q : ByteSeq) : Prop :=
  (c.toNat < 256 ∧ q = { head := c.extractLsb' 0 8, tail := [] }) ∨
    (256 ≤ c.toNat ∧ c.toNat < u.dictSize.toNat ∧ q = seqAt u.st c.toNat) ∨
    (c.toNat = u.dictSize.toNat ∧ q = u.prev.snoc u.prev.head)

theorem DecodesTo.lookup (h : DecodesTo u c q) (hu : DictOk u) : decLookup c u = .done q u := by
  have hsize := hu.size_ge
  rcases decLookup_cases c u with ⟨hc, e⟩ | ⟨hc, hlt, e⟩ | ⟨hc, heq, e⟩ | ⟨hc, hgt, e⟩ <;> rw [e]
  · rcases h with ⟨-, rfl⟩ | ⟨hge, -⟩ | ⟨heq, -⟩
    · rfl
    · omega
    · omega
  · rcases h with ⟨hroot, -⟩ | ⟨-, -, rfl⟩ | ⟨heq, -⟩
    · omega
    · rfl
    · omega
  · rcases h with ⟨hroot, -⟩ | ⟨-, hlt, -⟩ | ⟨-, rfl⟩
    · omega
    · omega
    · rfl
  · rcases h with ⟨hroot, -⟩ | ⟨-, hlt, -⟩ | ⟨heq, -⟩ <;> omega

/-- A code has a sequence, or it is above DICT_SIZE (45_decoder R135). -/
theorem decodesTo_or_above (u : State) (c : Code) :
    (∃ q, DecodesTo u c q) ∨ (256 ≤ c.toNat ∧ u.dictSize.toNat < c.toNat) := by
  rcases decLookup_cases c u with ⟨hc, -⟩ | ⟨hc, hlt, -⟩ | ⟨-, heq, -⟩ | ⟨hc, hgt, -⟩
  · exact .inl ⟨_, .inl ⟨hc, rfl⟩⟩
  · exact .inl ⟨_, .inr (.inl ⟨hc, hlt, rfl⟩)⟩
  · exact .inl ⟨_, .inr (.inr ⟨heq, rfl⟩)⟩
  · exact .inr ⟨hc, hgt⟩

theorem decLookup_malformed (hc : 256 ≤ c.toNat) (hgt : u.dictSize.toNat < c.toNat) :
    decLookup c u = .raised .malformed u := by
  unfold decLookup Config.roots
  rw [if_neg (by omega), if_neg (by omega), if_neg (by omega)]

/-- A sequence that fits is put at WCUR, and no state but OBUF and WCUR changes (45_decoder R137). -/
theorem OutputRoom.decEmit_run (h : OutputRoom u) (hfit : u.wcur.toNat / 8 + q.length ≤ u.outCap.toNat) :
    ∃ m : Memory, decEmit q u = .done () { u with obuf := m, wcur := u.wcur + BitVec.ofNat 32 (8 * q.length) } ∧
      BytesPut u.obuf m (u.wcur.toNat / 8) q.toList := by
  obtain ⟨hwf, ⟨-, -, -, -, hobuf⟩, hcap⟩ := h
  have hlen := q.length_toList
  obtain ⟨m, hm, -, -, hread⟩ := decPutBytes_run (l := q.toList) hwf (by omega) (by omega)
  rw [hlen] at hm
  exact ⟨m, (if_neg (Nat.not_lt.2 hfit)).trans hm, hread⟩

/-- The scheduler writes CODE_WIDTH alone, whatever the output holds (41_code_width R97). -/
theorem cwsOnAdd_output (u : State) (m : Memory) (n : Word) :
    cwsOnAdd { u with obuf := m, wcur := n } = { cwsOnAdd u with obuf := m, wcur := n } := by
  unfold cwsOnAdd
  split <;> rfl

/-- What the DEC_LOOP step leaves once the sequence `q` is emitted, OBUF being `m`: PREV and the first byte of `q` under
the code DICT_SIZE, and `q` as PREV (45_decoder R138, R141). -/
def decAdded (u : State) (q : ByteSeq) (m : Memory) : State :=
  { cwsOnAdd u with
    obuf := m, wcur := u.wcur + BitVec.ofNat 32 (8 * q.length),
    st := setSeq u.st u.dictSize.toNat (u.prev.snoc q.head), dictSize := u.dictSize + 1#13, prev := q }

theorem setPrev_decAdd (u : State) (q : ByteSeq) (m : Memory) :
    setPrev q (decAdd (u.prev.snoc q.head) { u with obuf := m, wcur := u.wcur + BitVec.ofNat 32 (8 * q.length) })
      = decAdded u q m := by
  rw [decAdd, cwsOnAdd_output, storeSeq, setPrev, decAdded, cwsOnAdd_st, cwsOnAdd_dictSize]

/-- What DEC_LOOP holds once it has read a code at the look-ahead width and counted it (45_decoder R141). -/
def decRead (s : State) : State :=
  { s with
    rcur := s.rcur + BitVec.ofNat 32 (peekWidth s.dictSize s.codeWidth).toNat, codes := s.codes + 1#32 }

/-- The same, once a full table is reset (45_decoder R139). -/
def decReady (s : State) : State := resetIfFull (decRead s)

theorem decLoopRule_read (hne : s.rcur ≠ s.inBits)
    (hread : brRead (peekWidth s.dictSize s.codeWidth).toNat s
      = .done c { s with rcur := s.rcur + BitVec.ofNat 32 (peekWidth s.dictSize s.codeWidth).toNat }) :
    decLoopRule s = decCode c (decRead s) := by
  rw [decLoopRule, if_neg hne, hread, Flow.bind_done]
  rfl

variable (h : Inv s) (hf : s.fsm = .decLoop)
include h hf

theorem Inv.engineTurn_loop : engineTurn s = runStep decLoopRule s :=
  engineTurn_decLoop (h.status_busy (by simp [hf])) hf

/-- With all bits read the pass completes. -/
theorem Inv.decLoop_end (hend : s.rcur = s.inBits) :
    engineTurn s = .next
      { s with
        status := statusDone, fsm := .idle, outLen := BitVec.ofNat 32 (s.wcur.toNat / 8), outBits := s.wcur } := by
  refine (h.engineTurn_loop hf).trans ((runStep_done (decLoopRule_end hend)).trans ?_)
  simp only [complete, h.status_eq_busy (s := s) (by simp [hf])]
  rfl

/-- Fewer bits than the look-ahead width end the pass before anything is read. -/
theorem Inv.decLoop_truncated (hne : s.rcur ≠ s.inBits)
    (hshort : s.inBits.toNat - s.rcur.toNat < (peekWidth s.dictSize s.codeWidth).toNat) :
    engineTurn s = .next { s with status := statusError .truncated, fsm := .idle } := by
  have hrule : decLoopRule s = .raised .truncated s := by
    rw [decLoopRule, if_neg hne, brRead_truncated hshort, Flow.bind_raised]
  exact (h.engineTurn_loop hf).trans (runStep_raised hrule)

/-- The table is not full when the code is looked up, and the output has room for what the pass may emit. -/
theorem Inv.decReady_ok : DictOk (decReady s) ∧ (decReady s).dictSize.toNat < 4096 ∧ OutputRoom (decReady s) := by
  obtain ⟨hdict, hsize⟩ := DictOk.resetIfFull (s := decRead s) { h.dict with }
  refine ⟨hdict, hsize, ?_⟩
  obtain ⟨ht, k, w, d, f, e⟩ := resetIfFull_eq (decRead s)
  rw [decReady, e]
  exact { h.room (by simp [hf]) with }

/-- DEC_LOOP once its code is looked up (45_decoder R141). -/
theorem Inv.decCode_lookup (hq : DecodesTo (decReady s) c q) : decCode c (decRead s) =
    if 4096 < s.prev.length + 1 then .raised .seqOverflow (decReady s)
    else (decEmit q (decReady s)).bind fun _ v => .done () (setPrev q (decAdd (v.prev.snoc q.head) v)) := by
  have hprev : (decReady s).prev = s.prev := resetIfFull_prev _
  obtain ⟨hdict, -⟩ := h.decReady_ok hf
  calc decCode c (decRead s) = (decLookup c (decReady s)).bind _ := rfl
    _ = _ := by rw [hq.lookup hdict, Flow.bind_done, hprev]; rfl

variable (hroom : (peekWidth s.dictSize s.codeWidth).toNat ≤ s.inBits.toNat - s.rcur.toNat)
include hroom

theorem Inv.decLoop_read : ∃ c : Code,
    brRead (peekWidth s.dictSize s.codeWidth).toNat s
      = .done c { s with rcur := s.rcur + BitVec.ofNat 32 (peekWidth s.dictSize s.codeWidth).toNat } := by
  obtain ⟨c, hread, -⟩ := brRead_run (h.dec (.inr hf)).inBits_le hroom
  exact ⟨c, hread⟩

variable (hread : brRead (peekWidth s.dictSize s.codeWidth).toNat s
  = .done c { s with rcur := s.rcur + BitVec.ofNat 32 (peekWidth s.dictSize s.codeWidth).toNat })
include hread

theorem Inv.engineTurn_code : engineTurn s = runStep (fun _ => decCode c (decRead s)) s := by
  have hne : s.rcur ≠ s.inBits := fun e => by
    have hwidth := peekWidth_ge h.block
    rw [e] at hroom
    omega
  rw [h.engineTurn_loop hf, runStep, runStep, decLoopRule_read hne hread]

/-- A code above DICT_SIZE ends the pass once it is read and counted and a full table is reset. -/
theorem Inv.decLoop_malformed (hc : 256 ≤ c.toNat) (hgt : (decReady s).dictSize.toNat < c.toNat) :
    engineTurn s = .next { decReady s with status := statusError .malformed, fsm := .idle } := by
  have hrule : decCode c (decRead s) = .raised .malformed (decReady s) := by
    rw [decCode, ← decReady, decLookup_malformed hc hgt, Flow.bind_raised]
  exact (h.engineTurn_code hf hroom hread).trans (runStep_raised hrule)

variable (hq : DecodesTo (decReady s) c q)
include hq

/-- A sequence whose entry would be longer than SEQ_MAX_LEN ends the pass. -/
theorem Inv.decLoop_seqOverflow (hlong : 4096 < s.prev.length + 1) :
    engineTurn s = .next { decReady s with status := statusError .seqOverflow, fsm := .idle } := by
  have hrule := h.decCode_lookup hf hq
  rw [if_pos hlong] at hrule
  exact (h.engineTurn_code hf hroom hread).trans (runStep_raised hrule)

/-- A sequence that has no room below OUT_CAP ends the pass. -/
theorem Inv.decLoop_outputOverflow (hshort : s.prev.length + 1 ≤ 4096)
    (hover : s.outCap.toNat < s.wcur.toNat / 8 + q.length) :
    engineTurn s = .next { decReady s with status := statusError .outputOverflow, fsm := .idle } := by
  have hrule := h.decCode_lookup hf hq
  rw [if_neg (Nat.not_lt.2 hshort), decEmit_overflow (by simpa [decReady, decRead] using hover), Flow.bind_raised] at hrule
  exact (h.engineTurn_code hf hroom hread).trans (runStep_raised hrule)

/-- A sequence that fits is emitted, the entry is added, and the sequence becomes PREV. -/
theorem Inv.decLoop_done (hshort : s.prev.length + 1 ≤ 4096) (hfit : s.wcur.toNat / 8 + q.length ≤ s.outCap.toNat) :
    ∃ m : Memory, BytesPut s.obuf m (s.wcur.toNat / 8) q.toList ∧ engineTurn s = .next (decAdded (decReady s) q m) := by
  obtain ⟨-, -, hout⟩ := h.decReady_ok hf
  obtain ⟨m, hemit, hput⟩ := hout.decEmit_run (q := q) (by simpa [decReady, decRead] using hfit)
  have hrule := h.decCode_lookup hf hq
  rw [if_neg (Nat.not_lt.2 hshort), hemit, Flow.bind_done] at hrule
  have hdone := hrule.trans (congrArg (Flow.done ()) (setPrev_decAdd (decReady s) q m))
  exact ⟨m, by simpa [decReady, decRead] using hput, (h.engineTurn_code hf hroom hread).trans (runStep_done hdone)⟩

end

/-- Settles O44: the end of the stream, the failed read, and the ways on from a read code. -/
theorem decLoopStepDecodesOneCode : Obligations.DecLoopStepDecodesOneCode := by
  refine fun s h hf => ⟨h.decLoop_end hf, h.decLoop_truncated hf, fun hroom => ?_⟩
  obtain ⟨c, hread⟩ := h.decLoop_read hf hroom
  refine ⟨c, decReady s, hread, rfl, h.decLoop_malformed hf hroom hread, fun q hq => ?_⟩
  have hst : (decReady s).st = s.st := resetIfFull_st _
  have hprev : (decReady s).prev = s.prev := resetIfFull_prev _
  have hdec : DecodesTo (decReady s) c q := by rwa [DecodesTo, hst, hprev]
  refine ⟨h.decLoop_seqOverflow hf hroom hread hdec, h.decLoop_outputOverflow hf hroom hread hdec,
    fun hshort hfit => ?_⟩
  obtain ⟨m, hput, hturn⟩ := h.decLoop_done hf hroom hread hdec hshort hfit
  rw [decAdded, hst, hprev, show (decReady s).wcur = s.wcur from resetIfFull_wcur _] at hturn
  exact ⟨m, hput, hturn⟩

/-- Settles O45: the sequence of the code DICT_SIZE is the one that the step stores. -/
theorem kwKwKCodeIsSynthesised : Obligations.KwKwKCodeIsSynthesised := by
  rintro s _ c h hf hread hne rfl hc hshort hfit
  have hroom : (peekWidth s.dictSize s.codeWidth).toNat ≤ s.inBits.toNat - s.rcur.toNat := by
    by_contra hless
    rw [brRead_truncated (Nat.lt_of_not_le hless)] at hread
    cases hread
  have hsize : (decReady s).dictSize = (resetIfFull s).dictSize := by
    rw [decReady, resetIfFull_dictSize, resetIfFull_dictSize]
    rfl
  have hst : (decReady s).st = s.st := resetIfFull_st _
  have hprev : (decReady s).prev = s.prev := resetIfFull_prev _
  rw [← hsize] at hc ⊢
  have hdec : DecodesTo (decReady s) c (s.prev.snoc s.prev.head) := .inr (.inr ⟨hc, by rw [hprev]⟩)
  obtain ⟨m, hput, hturn⟩ := h.decLoop_done hf hroom hread hdec hshort (by rwa [ByteSeq.length_snoc])
  refine ⟨_, hturn, ?_, ?_, rfl, ?_, dictSize_add_one (h.decReady_ok hf).2.1, ?_⟩
  · simp [decAdded, decReady, decRead]
  · simpa [decAdded, decReady, decRead] using hf
  · rw [hc, decAdded, hst, hprev, seqAt_setSeq h.tables.st_wf, if_pos rfl, ByteSeq.head_snoc]
  · rwa [ByteSeq.toList_snoc] at hput

end Sys2Proof.Machine

namespace Sys2Proof.Machine

/-! ### One turn of the decoder (45_decoder R142) -/

/-- The errors that end a DECOMPRESS pass (45_decoder R142). -/
def decErrors : List ErrCode := [.truncated, .malformed, .seqOverflow, .outputOverflow]

/-- Everything one engine turn of a DECOMPRESS pass can do: decode one code, complete the pass, or end it with an error
(45_decoder R142). -/
inductive DecTurn (s : State) : State → Prop
  | code {t : State} (hf : t.fsm = .decLoop) (hcodes : t.codes = s.codes + 1#32) : DecTurn s t
  | finish (hf : s.fsm = .decLoop) (hend : s.rcur = s.inBits) :
      DecTurn s
        { s with
          status := statusDone, fsm := .idle, outLen := BitVec.ofNat 32 (s.wcur.toNat / 8), outBits := s.wcur }
  | error {e : ErrCode} (he : e ∈ decErrors) (u : State) : DecTurn s { u with status := statusError e, fsm := .idle }

section
variable {s t : State}

theorem Inv.decTurn_first (h : Inv s) (hf : s.fsm = .decFirst) : ∃ t, engineTurn s = .next t ∧ DecTurn s t := by
  obtain ⟨-, hcodes, -, -⟩ := h.decFirst hf
  by_cases hlong : 8 ≤ s.inBits.toNat
  · by_cases hcap : s.outCap = 0#32
    · exact ⟨_, h.decFirst_overflow hf hlong hcap, .error (by decide) { s with rcur := 8#32, codes := 1#32 }⟩
    · exact ⟨_, h.decFirst_done hf hlong hcap, .code rfl (by rw [hcodes]; rfl)⟩
  · exact ⟨_, h.decFirst_truncated hf (Nat.lt_of_not_le hlong), .error (by decide) s⟩

theorem Inv.decTurn_loop (h : Inv s) (hf : s.fsm = .decLoop) : ∃ t, engineTurn s = .next t ∧ DecTurn s t := by
  by_cases hend : s.rcur = s.inBits
  · exact ⟨_, h.decLoop_end hf hend, .finish hf hend⟩
  by_cases hroom : (peekWidth s.dictSize s.codeWidth).toNat ≤ s.inBits.toNat - s.rcur.toNat
  swap
  · exact ⟨_, h.decLoop_truncated hf hend (Nat.lt_of_not_le hroom), .error (by decide) s⟩
  obtain ⟨c, hread⟩ := h.decLoop_read hf hroom
  rcases decodesTo_or_above (decReady s) c with ⟨q, hq⟩ | ⟨hc, hgt⟩
  swap
  · exact ⟨_, h.decLoop_malformed hf hroom hread hc hgt, .error (by decide) (decReady s)⟩
  by_cases hshort : s.prev.length + 1 ≤ 4096
  swap
  · exact ⟨_, h.decLoop_seqOverflow hf hroom hread hq (Nat.lt_of_not_le hshort), .error (by decide) (decReady s)⟩
  by_cases hfit : s.wcur.toNat / 8 + q.length ≤ s.outCap.toNat
  swap
  · exact ⟨_, h.decLoop_outputOverflow hf hroom hread hq hshort (Nat.lt_of_not_le hfit),
      .error (by decide) (decReady s)⟩
  obtain ⟨m, -, hturn⟩ := h.decLoop_done hf hroom hread hq hshort hfit
  exact ⟨_, hturn, .code (by simpa [decAdded, decReady, decRead] using hf) (by simp [decAdded, decReady, decRead])⟩

/-- A DECOMPRESS pass has a next state, and `DecTurn` says which. -/
theorem Inv.decTurn (h : Inv s) (hf : s.fsm = .decFirst ∨ s.fsm = .decLoop) :
    ∃ t, engineTurn s = .next t ∧ DecTurn s t :=
  hf.elim h.decTurn_first h.decTurn_loop

/-- The registers that an engine turn keeps, whether it raises an error or not (20_memory R60, 45_decoder R146). -/
theorem Inv.engineTurn_kept (h : Inv s) (hf : s.fsm ≠ .idle) (hturn : engineTurn s = .next t) : RegistersKept s t := by
  rw [engineTurn_eq (h.status_busy hf)] at hturn
  rcases runStep_ends hturn (engineRule_frame h) with hdone | ⟨e, u, -, hraised, rfl⟩
  · exact hdone.kept
  · exact { hraised.kept with }

end

/-! ### A DECOMPRESS pass, turn by turn (45_decoder R142) -/

/-- The state `x` of the DECOMPRESS pass that was issued in `s`, after `j` engine turns; each of them has read a code. -/
structure DecPassAt (s : State) (j : Nat) (x : State) : Prop where
  inv : Inv x
  fsm : x.fsm = if j = 0 then Fsm.decFirst else Fsm.decLoop
  codes : x.codes.toNat = j
  inBits : x.inBits = s.inBits
  result : x.result = s.result
  ipos : x.ipos = s.ipos
  pfx : x.pfx = s.pfx

/-- The pass that was issued in `s` and began in `t` goes through `i` turns of a pass to `z`, and one more, to `u`, ends
it. -/
structure DecPassRun (s t : State) (i : Nat) (z u : State) : Prop where
  through : ∀ j ≤ i, ∃ x, engineRun j t = some x ∧ DecPassAt s j x
  run : engineRun i t = some z
  passAt : DecPassAt s i z
  turn : engineTurn z = .next u
  kind : DecTurn z u
  idle : u.fsm = .idle

section
variable {s t x y z u : State} {i j : Nat}

theorem DecPassAt.decoding (h : DecPassAt s j x) : x.fsm = .decFirst ∨ x.fsm = .decLoop := by
  rw [h.fsm]
  split
  · exact .inl rfl
  · exact .inr rfl

theorem DecPassAt.active (h : DecPassAt s j x) : x.fsm ≠ .idle := by
  rcases h.decoding with hf | hf <;> simp [hf]

theorem DecPassAt.dec (h : DecPassAt s j x) : DecOk x := h.inv.dec h.decoding

/-- Each code took at least 8 bits (45_decoder R142). -/
theorem DecPassAt.le_bits (h : DecPassAt s j x) : j ≤ s.inBits.toNat / 8 := by
  have hread := h.dec.codes_le
  have hrcur := h.dec.rcur_le
  rw [h.codes] at hread
  rw [h.inBits] at hrcur
  omega

/-- A turn of the pass reads one more code, or ends the pass. -/
theorem DecPassAt.next (h : DecPassAt s j x) (hturn : engineTurn x = .next y) (hkind : DecTurn x y) :
    DecPassAt s (j + 1) y ∨ y.fsm = .idle := by
  cases hkind with
  | code hf hcodes =>
    have hkept := h.inv.engineTurn_kept h.active hturn
    obtain ⟨hipos, hpfx, -⟩ := hkept.decoder h.decoding
    have hsmall := h.le_bits
    have hword := s.inBits.isLt
    have hcount := h.codes
    exact .inl
      { inv := engineTurn_keeps_inv h.inv hturn
        fsm := hf
        codes := by rw [hcodes, word_add_one (by omega), hcount]
        inBits := hkept.inBits.trans h.inBits
        result := hkept.result.trans h.result
        ipos := hipos.trans h.ipos
        pfx := hpfx.trans h.pfx }
  | finish => exact .inr rfl
  | error => exact .inr rfl

/-- A pass goes on, turn by turn, until one ends it; no more turns than there are bytes of the stream can go on. -/
theorem decPassRun_of_through {i : Nat} (h : ∀ j ≤ i, ∃ x, engineRun j t = some x ∧ DecPassAt s j x) :
    ∃ i z u, DecPassRun s t i z u := by
  obtain ⟨z, hrun, hz⟩ := h i le_rfl
  obtain ⟨u, hturn, hkind⟩ := hz.inv.decTurn hz.decoding
  rcases hz.next hturn hkind with hu | hidle
  · have hle := hu.le_bits
    refine decPassRun_of_through (i := i + 1) fun j hj => ?_
    rcases Nat.lt_or_eq_of_le hj with hj | rfl
    · exact h j (Nat.le_of_lt_succ hj)
    · exact ⟨u, engineRun_succ_last hrun hturn, hu⟩
  · exact ⟨i, z, u, h, hrun, hz, hturn, hkind, hidle⟩
termination_by s.inBits.toNat / 8 - i

theorem DecPassRun.run_succ (h : DecPassRun s t i z u) : engineRun (i + 1) t = some u :=
  engineRun_succ_last h.run h.turn

/-- A pass leaves RESULT, IPOS and PREFIX as they were before the command (45_decoder R146). -/
theorem DecPassRun.kept (h : DecPassRun s t i z u) : u.result = s.result ∧ u.ipos = s.ipos ∧ u.pfx = s.pfx := by
  have hkept := h.passAt.inv.engineTurn_kept h.passAt.active h.turn
  obtain ⟨hipos, hpfx, -⟩ := hkept.decoder h.passAt.decoding
  exact ⟨hkept.result.trans h.passAt.result, hipos.trans h.passAt.ipos, hpfx.trans h.passAt.pfx⟩

/-- A pass ends with all bits read, one turn after its last code, or with one of the four errors (45_decoder R142,
R146). -/
theorem DecPassRun.ends (h : DecPassRun s t i z u) :
    (u.status = statusDone ∧ u.codes.toNat = i ∧ u.rcur = s.inBits ∧ u.outBits = u.wcur ∧
      u.outBits.toNat = 8 * u.outLen.toNat) ∨ ∃ e ∈ decErrors, u.status = statusError e := by
  have hidle := h.idle
  have hz := h.passAt
  cases h.kind with
  | code hf => cases hf.symm.trans hidle
  | finish hf hend =>
    have hbytes := hz.dec.wcur_bytes
    have hlen : (BitVec.ofNat 32 (z.wcur.toNat / 8)).toNat = z.wcur.toNat / 8 :=
      Nat.mod_eq_of_lt ((Nat.div_le_self _ _).trans_lt z.wcur.isLt)
    refine .inl ⟨rfl, hz.codes, hend.trans hz.inBits, rfl, ?_⟩
    simp only [hlen]
    omega
  | error he => exact .inr ⟨_, he, rfl⟩

/-- DECOMPRESS begins its pass before the first turn (45_decoder R134). -/
theorem Inv.decPassAt_start (h : Inv s) (hstart : exec .decompress s = .next (decStart s)) :
    DecPassAt s 0 (decStart s) :=
  ⟨exec_keeps h hstart, rfl, rfl, rfl, rfl, rfl, rfl⟩

/-- Every DECOMPRESS pass ends. -/
theorem Inv.exists_decPassRun (h : Inv s) (hstart : exec .decompress s = .next (decStart s)) :
    ∃ i z u, DecPassRun s (decStart s) i z u :=
  decPassRun_of_through fun j hj => by
    obtain rfl := Nat.le_zero.1 hj
    exact ⟨_, rfl, h.decPassAt_start hstart⟩

end

/-- Settles O46: a pass goes from turn to turn, a code of at least 8 bits each, until one leaves FSM = IDLE. -/
theorem decompressEndsWithinBits : Obligations.DecompressEndsWithinBits := by
  intro s h hb hne hin hout
  have hstart := exec_decompress_start hb hin hout hne
  obtain ⟨i, z, u, hpass⟩ := h.exists_decPassRun hstart
  have hle := hpass.passAt.le_bits
  obtain ⟨hresult, hipos, hpfx⟩ := hpass.kept
  refine ⟨_, u, i + 1, hstart, Nat.succ_le_succ hle, hpass.run_succ, fun j hj => ?_, hpass.idle, hresult, hipos, hpfx, ?_⟩
  · obtain ⟨x, hrun, hx⟩ := hpass.through j (Nat.le_of_lt_succ hj)
    exact ⟨x, hrun, hx.inv.status_eq_busy hx.active, hx.fsm⟩
  · rcases hpass.ends with ⟨hdone, rfl, hrcur, hbits, hlen⟩ | herr
    · exact .inl ⟨hdone, rfl, hrcur, hbits, hlen, hle⟩
    · exact .inr herr

end Sys2Proof.Machine

namespace Sys2Proof.Machine

/-! ### Codes and the sequences they stand for (45_decoder R143) -/

/-- The sequence of the code `c` when the codes from 256 on stand for the sequences of `T` (45_decoder R135). -/
def codeSeq (T : Nat → ByteSeq) (c : Code) : ByteSeq :=
  if c.toNat < 256 then { head := c.extractLsb' 0 8, tail := [] } else T c.toNat

/-- The bytes that the codes `cs` stand for. -/
def decodedBytes (T : Nat → ByteSeq) (cs : List Code) : List Byte := cs.flatMap fun c => (codeSeq T c).toList

/-- The codes `cs` of a pass without a capacity reset and the sequences `T` of its dictionary fit together: each code was
live when it was written, and the add after code `k` stores the sequence of code `k` and the first byte of the next one
under the code 256 + `k` (45_decoder R143). -/
structure CodesOf (T : Nat → ByteSeq) (cs : List Code) : Prop where
  live : ∀ k c, cs[k]? = some c → c.toNat < 256 + k
  added : ∀ k c d, cs[k]? = some c → cs[k + 1]? = some d → T (256 + k) = (codeSeq T c).snoc (codeSeq T d).head

/-- An element of a list with one more at its end. -/
theorem getElem?_concat_eq_some {α : Type} {l : List α} {x y : α} {k : Nat} :
    (l ++ [x])[k]? = some y ↔ l[k]? = some y ∨ (k = l.length ∧ x = y) := by
  rw [List.getElem?_append]
  split
  case isTrue hk => exact ⟨.inl, fun h => h.resolve_right fun hlast => absurd hlast.1 hk.ne⟩
  case isFalse hk =>
    rw [List.getElem?_singleton, List.getElem?_eq_none (Nat.le_of_not_lt hk)]
    have hlast : k - l.length = 0 ↔ k = l.length := by omega
    simp [hlast]

section
variable {T : Nat → ByteSeq} {cs : List Code} {c d : Code} {k n : Nat} {q : ByteSeq}

theorem codeSeq_root (h : c.toNat < 256) : codeSeq T c = { head := c.extractLsb' 0 8, tail := [] } := if_pos h

theorem codeSeq_entry (h : 256 ≤ c.toNat) : codeSeq T c = T c.toNat := if_neg (Nat.not_lt.2 h)

/-- The code of a byte stands for the byte. -/
theorem codeSeq_byte (T : Nat → ByteSeq) (b : Byte) : codeSeq T (b.setWidth 16) = { head := b, tail := [] } := by
  rw [codeSeq_root (byte_lt b)]
  congr 1
  refine BitVec.eq_of_getLsbD_eq fun i hi => ?_
  rw [BitVec.getLsbD_extractLsb', BitVec.getLsbD_setWidth]
  simp [hi, show i < 16 by omega]

/-- A new entry leaves the sequences of the codes below it. -/
theorem codeSeq_update (h : c.toNat < n) : codeSeq (Function.update T n q) c = codeSeq T c := by
  unfold codeSeq
  rw [Function.update_of_ne h.ne]

theorem decodedBytes_snoc (T : Nat → ByteSeq) (cs : List Code) (c : Code) :
    decodedBytes T (cs ++ [c]) = decodedBytes T cs ++ (codeSeq T c).toList := by
  simp [decodedBytes]

theorem decodedBytes_update (h : ∀ c ∈ cs, c.toNat < n) : decodedBytes (Function.update T n q) cs = decodedBytes T cs :=
  List.flatMap_congr fun c hc => by rw [codeSeq_update (h c hc)]

theorem CodesOf.lt_of_mem (h : CodesOf T cs) (hc : c ∈ cs) : c.toNat < 255 + cs.length := by
  obtain ⟨k, hk, rfl⟩ := List.mem_iff_getElem.1 hc
  have hlive := h.live k _ (List.getElem?_eq_getElem hk)
  omega

/-- One byte is the code of a root, whatever the dictionary. -/
theorem codesOf_byte (T : Nat → ByteSeq) (b : Byte) : CodesOf T [b.setWidth 16] where
  live k c hc := by
    rw [List.getElem?_singleton] at hc
    split_ifs at hc
    cases hc
    exact (byte_lt b).trans_le (Nat.le_add_right _ _)
  added k c d _ hd := by simp at hd

/-- The last code replaced by one whose sequence begins with the same byte. -/
theorem CodesOf.extend (h : CodesOf T (cs ++ [c])) (hlive : d.toNat < 256 + cs.length)
    (hhead : (codeSeq T d).head = (codeSeq T c).head) : CodesOf T (cs ++ [d]) where
  live k a ha := by
    rcases getElem?_concat_eq_some.1 ha with ha | ⟨rfl, rfl⟩
    · exact h.live k a (getElem?_concat_eq_some.2 (.inl ha))
    · exact hlive
  added k a b ha hb := by
    have hk := (List.getElem?_eq_some_iff.1 hb).1
    rw [List.length_append, List.length_singleton] at hk
    have hold := (getElem?_concat_eq_some.1 ha).resolve_right fun hlast => by omega
    have ha : (cs ++ [c])[k]? = some a := getElem?_concat_eq_some.2 (.inl hold)
    rcases getElem?_concat_eq_some.1 hb with hb | ⟨hlast, rfl⟩
    · exact h.added k a b ha (getElem?_concat_eq_some.2 (.inl hb))
    · rw [hhead]
      exact h.added k a c ha (getElem?_concat_eq_some.2 (.inr ⟨hlast, rfl⟩))

/-- A byte after the codes: the add stores the last code's sequence and the byte. -/
theorem CodesOf.append_byte (h : CodesOf T (cs ++ [c])) (b : Byte) :
    CodesOf (Function.update T (256 + cs.length) ((codeSeq T c).snoc b)) (cs ++ [c] ++ [b.setWidth 16]) where
  live k a ha := by
    rcases getElem?_concat_eq_some.1 ha with ha | ⟨-, rfl⟩
    · exact h.live k a ha
    · exact (byte_lt b).trans_le (Nat.le_add_right _ _)
  added k a d ha hd := by
    have hk := (List.getElem?_eq_some_iff.1 hd).1
    rw [List.length_append, List.length_singleton] at hk
    have ha := (getElem?_concat_eq_some.1 ha).resolve_right fun hlast => by omega
    have hlow := h.live k a ha
    have hlen : (cs ++ [c]).length = cs.length + 1 := List.length_append
    rcases getElem?_concat_eq_some.1 hd with hd | ⟨hlast, rfl⟩
    · have hlow' := h.live (k + 1) d hd
      have hk' := (List.getElem?_eq_some_iff.1 hd).1
      rw [Function.update_of_ne (by omega), codeSeq_update (by omega), codeSeq_update (by omega)]
      exact h.added k a d ha hd
    · obtain rfl : k = cs.length := by omega
      rw [List.getElem?_concat_length] at ha
      cases ha
      rw [Function.update_self, codeSeq_update hlow, codeSeq_byte]

/-- The sequence of code `k` has at most `k + 1` bytes: an entry is one byte longer than the sequence of an earlier code
(45_decoder R145). -/
theorem CodesOf.length_le (h : CodesOf T cs) (hc : cs[k]? = some c) : (codeSeq T c).length ≤ k + 1 := by
  induction k using Nat.strong_induction_on generalizing c with
  | _ k ih =>
    by_cases hroot : c.toNat < 256
    · simp [codeSeq_root hroot, ByteSeq.length]
    · have hk := (List.getElem?_eq_some_iff.1 hc).1
      have hlive := h.live k c hc
      obtain ⟨i, hi⟩ := Nat.exists_eq_add_of_le (Nat.le_of_not_lt hroot)
      have hik : i < cs.length := by omega
      have hik' : i + 1 < cs.length := by omega
      have hlen := ih i (by omega) (List.getElem?_eq_getElem hik)
      rw [codeSeq_entry (Nat.le_of_not_lt hroot), hi,
        h.added i _ _ (List.getElem?_eq_getElem hik) (List.getElem?_eq_getElem hik'), ByteSeq.length_snoc]
      omega

/-- A code that is the next one to be assigned stands for the sequence before it and that sequence's first byte
(45_decoder R136). -/
theorem CodesOf.kwKwK (h : CodesOf T cs) (hc : cs[k]? = some c) (hd : cs[k + 1]? = some d) (hnew : d.toNat = 256 + k) :
    codeSeq T d = (codeSeq T c).snoc (codeSeq T c).head := by
  have hadd := h.added k c d hc hd
  have hentry : codeSeq T d = T (256 + k) := by rw [codeSeq_entry (by omega), hnew]
  have hhead : (codeSeq T d).head = (codeSeq T c).head := by rw [hentry, hadd, ByteSeq.head_snoc]
  rw [hentry, hadd, hhead]

end

/-! ### Bytes in a buffer -/

/-- The buffer holds the bytes `l` from index 0 on. -/
def HoldsBytes (m : Memory) (l : List Byte) : Prop := ∀ a b, l[a]? = some b → m.read a = b

section
variable {m n : Memory} {l r : List Byte} {a : Nat} {b : Byte}

theorem HoldsBytes.nil (m : Memory) : HoldsBytes m [] := nofun

theorem HoldsBytes.snoc (h : HoldsBytes m l) (hb : m.read l.length = b) : HoldsBytes m (l ++ [b]) := fun a x hx => by
  rcases getElem?_concat_eq_some.1 hx with hx | ⟨rfl, rfl⟩
  · exact h a x hx
  · exact hb

/-- Bytes put behind those held. -/
theorem HoldsBytes.put (h : HoldsBytes m l) (hput : BytesPut m n l.length r) : HoldsBytes n (l ++ r) := fun a x hx => by
  rw [hput a]
  by_cases ha : a < l.length
  · rw [List.getElem?_append_left ha] at hx
    rw [if_neg (Nat.not_le.2 ha)]
    exact h a x hx
  · rw [List.getElem?_append_right (Nat.le_of_not_lt ha)] at hx
    rw [if_pos (Nat.le_of_not_lt ha), List.getD_eq_getElem?_getD, hx, Option.getD_some]

/-- Two buffers that hold the same bytes agree in them. -/
theorem HoldsBytes.agree (h : HoldsBytes m l) (h' : HoldsBytes n l) (ha : a < l.length) : m.read a = n.read a :=
  (h a _ (List.getElem?_eq_getElem ha)).trans (h' a _ (List.getElem?_eq_getElem ha)).symm

end

/-! ### The encoder parses its input (44_encoder R130, 45_decoder R143) -/

/-- Every entry of the hash table is live, and its code stands for the sequence of its PREFIX and its byte. -/
def EntriesOf (T : Nat → ByteSeq) (s : State) : Prop :=
  ∀ i, (slotAt s.ht i).occ = true → (slotAt s.ht i).pfx.toNat < s.dictSize.toNat ∧
    codeSeq T (slotAt s.ht i).code = (codeSeq T (slotAt s.ht i).pfx).snoc (slotAt s.ht i).ext

/-- A COMPRESS pass over the input `m` without a capacity reset so far: the codes `cs` that it has written and the pending
one stand for the bytes it has taken. -/
structure Parsed (m : Memory) (T : Nat → ByteSeq) (cs : List Code) (x : State) : Prop where
  size : x.dictSize.toNat = 256 + cs.length
  codes : CodesOf T (cs ++ [x.pfx])
  entries : EntriesOf T x
  ibuf : x.ibuf = m
  input : HoldsBytes m (decodedBytes T (cs ++ [x.pfx]))
  taken : (decodedBytes T (cs ++ [x.pfx])).length = x.ipos.toNat

section
variable {m : Memory} {T : Nat → ByteSeq} {b : Code} {cs : List Code} {s t u x y z : State} {i j : Nat}

/-- A find that succeeds answers the code of an entry with the key (40_dictionary R86). -/
theorem DictOk.dictFind_entry (h : DictOk s) {p : Code} (hp : p ≠ Config.invalid) (e : Byte) :
    ∃ (r : Code) (k : BitVec 13), dictFind p e s = .done r { s with lastProbes := k } ∧
      (r ≠ Config.notFound →
        ∃ i, (slotAt s.ht i).occ = true ∧ keyMatches (slotAt s.ht i) p e = true ∧ r = (slotAt s.ht i).code) := by
  rcases dictFind_cases hp e s with ⟨r, n, -, -, hend, hfind⟩ | ⟨-, hocc⟩
  · refine ⟨r, _, hfind, fun hr => ?_⟩
    rcases hend with ⟨-, rfl⟩ | hentry
    · exact absurd rfl hr
    · exact ⟨_, hentry⟩
  · exact absurd hocc h.not_all_occupied

/-- The next byte of the input follows the bytes taken. -/
theorem Parsed.input_snoc (h : Parsed m T cs x) :
    HoldsBytes m (decodedBytes T (cs ++ [x.pfx]) ++ [nextByte x]) :=
  h.input.snoc (by rw [h.taken, nextByte, h.ibuf])

/-- A hit extends the pending sequence by the next byte. -/
theorem Parsed.hit (h : Parsed m T cs x) (hx : Inv x) (hf : x.fsm = .encMatch) {i : SlotIdx}
    (hocc : (slotAt x.ht i).occ = true) (hm : keyMatches (slotAt x.ht i) x.pfx (nextByte x) = true) (k : BitVec 13) :
    Parsed m T cs { x with lastProbes := k, pfx := (slotAt x.ht i).code, ipos := x.ipos + 1#32 } := by
  obtain ⟨hpfx, hext⟩ := keyMatches_iff.1 hm
  obtain ⟨-, hseq⟩ := h.entries i hocc
  rw [hpfx, hext] at hseq
  have hlive := (hx.dict.live_slot hocc).2
  rw [h.size] at hlive
  have hbytes : decodedBytes T (cs ++ [(slotAt x.ht i).code])
      = decodedBytes T (cs ++ [x.pfx]) ++ [nextByte x] := by
    rw [decodedBytes_snoc, decodedBytes_snoc, hseq, ByteSeq.toList_snoc, List.append_assoc]
  exact
    { h with
      codes := h.codes.extend hlive (by rw [hseq, ByteSeq.head_snoc])
      input := by rw [hbytes]; exact h.input_snoc
      taken := by
        rw [hbytes, List.length_append, h.taken]
        exact ((hx.enc (.inl hf)).ipos_succ hx.params).symm }

/-- A key added under the code DICT_SIZE below capacity. -/
theorem EntriesOf.added (h : EntriesOf T x) (hx : DictOk x) (hroom : x.dictSize.toNat ≠ 4096)
    (hlive : x.pfx.toNat < x.dictSize.toNat) {e : Byte} {ht : List (Nat × Slot)} (hkey : KeyAdded x.pfx e x ht)
    (hy : y.ht = ht) (hsize : y.dictSize.toNat = x.dictSize.toNat + 1) :
    EntriesOf (Function.update T x.dictSize.toNat ((codeSeq T x.pfx).snoc e)) y := by
  subst hy
  have hstored := (hkey.resolve_right fun hfull => hroom hfull.1).2
  have hge := hx.size_ge
  intro i hocc
  rcases hstored.entry hocc with ⟨hnew, -⟩ | ⟨hold, hsame⟩
  · rw [hnew]
    have hcode := size_code_toNat x.dictSize
    refine ⟨by simp only; omega, ?_⟩
    rw [codeSeq_update hlive, codeSeq_entry (by simp only [hcode]; exact hge)]
    simp only [hcode, Function.update_self]
  · rw [hsame]
    obtain ⟨hpfx, hseq⟩ := h i hold
    obtain ⟨-, hcode⟩ := hx.live_slot hold
    exact ⟨by omega, by rw [codeSeq_update hpfx, codeSeq_update hcode, hseq]⟩

/-- A miss below capacity writes the pending code, and the next byte is pending. -/
theorem Parsed.miss (h : Parsed m T cs x) (hx : Inv x) (hf : x.fsm = .encMatch) (hroom : x.dictSize.toNat ≠ 4096)
    {ob : Memory} {ht : List (Nat × Slot)} {n : BitVec 13} (hkey : KeyAdded x.pfx (nextByte x) x ht) :
    Parsed m (Function.update T (256 + cs.length) ((codeSeq T x.pfx).snoc (nextByte x))) (cs ++ [x.pfx])
      (encMissed x ob ht n) := by
  have hsize : (encMissed x ob ht n).dictSize.toNat = x.dictSize.toNat + 1 := by
    simp only [encMissed, encAdded, if_neg hroom]
    exact dictSize_add_one (lt_of_le_of_ne hx.dict.size_le hroom)
  have hlen : (cs ++ [x.pfx]).length = cs.length + 1 := List.length_append
  have hold : ∀ c ∈ cs ++ [x.pfx], c.toNat < 256 + cs.length := fun c hc => by
    have := h.codes.lt_of_mem hc
    omega
  have hbytes : decodedBytes (Function.update T (256 + cs.length) ((codeSeq T x.pfx).snoc (nextByte x)))
      (cs ++ [x.pfx] ++ [(nextByte x).setWidth 16]) = decodedBytes T (cs ++ [x.pfx]) ++ [nextByte x] := by
    rw [decodedBytes_snoc, decodedBytes_update hold, codeSeq_byte]
    rfl
  refine ⟨by rw [hsize, h.size, hlen]; rfl, h.codes.append_byte (nextByte x), ?_, h.ibuf, ?_, ?_⟩
  · rw [← h.size]
    exact h.entries.added hx.dict hroom (hx.enc (.inl hf)).pfx_live hkey rfl hsize
  · rw [show (encMissed x ob ht n).pfx = (nextByte x).setWidth 16 from rfl, hbytes]
    exact h.input_snoc
  · rw [show (encMissed x ob ht n).pfx = (nextByte x).setWidth 16 from rfl, hbytes, List.length_append, h.taken]
    exact ((hx.enc (.inl hf)).ipos_succ hx.params).symm

/-- One turn inside a pass that has not filled the dictionary keeps the input parsed. -/
theorem Parsed.turn (h : Parsed m T cs x) (hw : Written b cs x) (hx : Inv x) (hf : x.fsm = .encMatch)
    (hturn : engineTurn x = .next y) (hy : y.fsm ≠ .idle) (hfew : y.codes.toNat ≤ 3840) :
    ∃ T cs, Written b cs y ∧ Parsed m T cs y := by
  by_cases hend : x.ipos = x.inLen
  · obtain rfl := Host.Outcome.next.inj ((hx.encMatch_end hf hend).symm.trans hturn)
    exact ⟨T, cs, { hw with }, { h with }⟩
  have hvalid := (hx.enc (.inl hf)).pfx_ne_invalid hx.dict
  obtain ⟨r, k, hfind, hentry⟩ := hx.dict.dictFind_entry hvalid (nextByte x)
  by_cases hr : r = Config.notFound
  · subst hr
    by_cases hfit : CodeFits x
    · obtain ⟨ob, _, ht, n, happ, hkey, -, hmiss⟩ := hx.encMatch_miss hf hend hfind hfit
      obtain rfl := Host.Outcome.next.inj (hmiss.symm.trans hturn)
      have hmissed := hw.miss hx hf hfit happ ht n
      have hcount := hmissed.codes
      rw [List.length_append, List.length_singleton] at hcount
      have hroom : x.dictSize.toNat ≠ 4096 := by rw [h.size]; omega
      exact ⟨_, _, hmissed, h.miss hx hf hroom hkey⟩
    · obtain rfl := Host.Outcome.next.inj ((hx.encMatch_overflow hf hend hfind hfit).symm.trans hturn)
      exact absurd rfl hy
  · obtain rfl := Host.Outcome.next.inj ((hx.encMatch_hit hf hend hfind hr).symm.trans hturn)
    obtain ⟨i, hocc, hm, rfl⟩ := hentry hr
    have hne := hw.ne_nil_of_live (hx.dict.live_slot hocc)
    refine ⟨T, cs, { hw with first := ?_ }, h.hit hx hf hocc hm k⟩
    rw [List.head?_append_of_ne_nil _ hne]
    exact hw.head_of_ne_nil hne

/-- COMPRESS begins with its first byte pending. -/
theorem parsed_encStart (s : State) : Parsed s.ibuf (fun _ => ByteSeq.blank) [] (encStart s) := by
  have hbyte : decodedBytes (fun _ => ByteSeq.blank) ([] ++ [(s.ibuf.read 0).setWidth 16]) = [s.ibuf.read 0] := by
    rw [decodedBytes_snoc, codeSeq_byte]
    rfl
  refine ⟨rfl, codesOf_byte _ _, fun i hocc => ?_, rfl, ?_, ?_⟩
  · rw [show slotAt (encStart s).ht i = slotAt (clearOcc s.ht) i from rfl, clearOcc_occ] at hocc
    cases hocc
  · rw [show (encStart s).pfx = (s.ibuf.read 0).setWidth 16 from rfl, hbyte]
    exact (HoldsBytes.nil _).snoc rfl
  · rw [show (encStart s).pfx = (s.ibuf.read 0).setWidth 16 from rfl, hbyte]
    rfl

end
end Sys2Proof.Machine

namespace Sys2Proof.Machine

section
variable {m : Memory} {T : Nat → ByteSeq} {b : Code} {cs : List Code} {s t u x y z : State} {i j : Nat}

/-- What a pass that has not filled the dictionary has parsed after `j` of its turns, by induction on them. -/
theorem PassRun.parsed (h : PassRun s t i z u) (hstart : Written b [] t) (hparsed : Parsed m T [] t)
    (hfew : z.codes.toNat ≤ 3840) (hj : j ≤ i) :
    ∃ T cs x, engineRun j t = some x ∧ Written b cs x ∧ Parsed m T cs x := by
  obtain ⟨_, ht, hat⟩ := h.through 0 (Nat.zero_le _)
  obtain rfl := Option.some.inj ht
  have hok : EncoderOk t := ⟨hat.inv, .inr hat.encoding⟩
  induction j with
  | zero => exact ⟨T, [], t, rfl, hstart, hparsed⟩
  | succ j ih =>
    obtain ⟨T, cs, x, hrun, hw, hp⟩ := ih (Nat.le_of_succ_le hj)
    obtain ⟨_, hrun', hx⟩ := h.through j (Nat.le_of_succ_le hj)
    obtain rfl := Option.some.inj (hrun.symm.trans hrun')
    obtain ⟨y, hnext, hy⟩ := h.through (j + 1) hj
    have hf : x.fsm = .encMatch := by rw [hx.fsm, if_pos (Nat.lt_of_lt_of_le hj h.le_inLen)]
    obtain ⟨_, hturn, -⟩ := hx.inv.encTurn hx.encoding
    obtain rfl := Option.some.inj (hnext.symm.trans (engineRun_succ_last hrun hturn))
    obtain ⟨T', cs', hw', hp'⟩ := hp.turn hw hx.inv hf hturn (by rcases hy.encoding with hf | hf <;> simp [hf])
      ((hok.codes_mono hj hnext h.run).trans hfew)
    exact ⟨T', cs', y, hnext, hw', hp'⟩

/-- What a COMPRESS pass without a capacity reset leaves: the stream of codes that stand for its input. -/
structure CodesWritten (s u : State) (T : Nat → ByteSeq) (cs : List Code) : Prop where
  codes : CodesOf T cs
  nonempty : cs ≠ []
  few : cs.length ≤ 3841
  count : u.codes.toNat = cs.length
  bits : u.outBits.toNat = streamBits (packedCodes cs)
  bytes : u.outLen.toNat = ceil8 u.outBits.toNat
  stream : HoldsStream u.obuf 0 (packedCodes cs)
  input : HoldsBytes s.ibuf (decodedBytes T cs)
  length : (decodedBytes T cs).length = s.inLen.toNat

/-- The codes of the misses, parsed by induction on the turns, and the code of the flush (44_encoder R124). -/
theorem Inv.codesWritten (h : Inv s) (hb : s.status.busy = false) (hne : s.inLen ≠ 0#32)
    (hexec : exec .compress s = .next t) (hrun : engineRun (s.inLen.toNat + 1) t = some u)
    (hdone : u.status = statusDone) (hresets : u.dictResets = 0#32) : ∃ T cs, CodesWritten s u T cs := by
  obtain ⟨rfl, hstart⟩ := compress_started hb hne hexec hrun hdone
  obtain ⟨z, hpass, hf, hfit, ob, n, happ, hpad, rfl⟩ := h.passRun_of_done hstart hne hrun hdone
  have hz := hpass.passAt
  have hfew : z.codes.toNat ≤ 3840 := by
    obtain ⟨cs, x, hx, hw, -⟩ := hpass.written (written_encStart s) le_rfl
    obtain rfl := Option.some.inj (hx.symm.trans hpass.run)
    have hzero : scheduleResets cs.length = 0 := by rw [← hw.resets, show x.dictResets = 0#32 from hresets]; rfl
    have hcount := hw.codes
    unfold scheduleResets at hzero
    omega
  obtain ⟨T, cs, x, hx, hw, hp⟩ := hpass.parsed (written_encStart s) (parsed_encStart s) hfew le_rfl
  obtain rfl := Option.some.inj (hx.symm.trans hpass.run)
  obtain ⟨hcodes, hbits, hlen, hstream, -⟩ := hw.flush hz.inv hf hfit happ hpad
  have hcount := hw.codes
  have htaken := hp.taken
  rw [hz.ipos, if_neg (lt_irrefl _)] at htaken
  exact ⟨T, cs ++ [x.pfx],
    { codes := hp.codes
      nonempty := by simp
      few := by rw [List.length_append, List.length_singleton]; omega
      count := hcodes
      bits := hbits
      bytes := hlen
      stream := hstream
      input := hp.input
      length := htaken }⟩

end

/-! ### The decoder reads the codes back (45_decoder R143) -/

section
variable {m : Memory} {l r : List (Code × Nat)} {x : Code × Nat} {cs ds : List Code} {c : Code} {s : State} {k pos w : Nat}

/-- The codes of a pass stand one after another, each behind those before it. -/
theorem packedCodes_prefix (cs ds : List Code) : packedCodes cs <+: packedCodes (cs ++ ds) := by
  induction ds using List.reverseRecOn with
  | nil => rw [List.append_nil]
  | append_singleton ds d ih =>
    rw [← List.append_assoc, packedCodes_snoc]
    exact ih.trans (List.prefix_append _ _)

/-- The stream behind its first codes. -/
theorem HoldsStream.drop (h : HoldsStream m pos (l ++ r)) : HoldsStream m (pos + streamBits l) r := by
  induction l generalizing pos with
  | nil => exact h
  | cons x l ih =>
    rw [streamBits_cons, ← Nat.add_assoc]
    exact ih h.tail

/-- A code that fits its width is read back from the head of the stream (43_bitreader R118). -/
theorem HoldsStream.brRead (h : HoldsStream s.ibuf s.rcur.toNat ((c, w) :: l)) (hc : c.toNat < 2 ^ w)
    (hin : s.inBits.toNat ≤ 8 * s.params.ibufCap) (hw : w ≤ s.inBits.toNat - s.rcur.toNat) :
    brRead w s = .done c { s with rcur := s.rcur + BitVec.ofNat 32 w } ∧
      (s.rcur + BitVec.ofNat 32 w).toNat = s.rcur.toNat + w := by
  obtain ⟨r, hr, hrcur, hbits⟩ := brRead_run hin hw
  have hcode : r = c := BitVec.eq_of_getLsbD_eq fun j hj => by
    rw [hbits j hj]
    split
    case isTrue hjw => exact h.head hjw
    case isFalse hjw =>
      rw [← BitVec.testBit_toNat, Nat.testBit_lt_two_pow (hc.trans_le (Nat.pow_le_pow_right (by decide) (not_lt.1 hjw)))]
  exact ⟨by rw [hr, hcode], hrcur⟩

/-- The first `k` codes of a stream and the next one. -/
theorem packedCodes_split (hc : cs[k]? = some c) :
    ∃ l, packedCodes cs = packedCodes (cs.take k) ++ (c, streamWidth k) :: l := by
  have hk := (List.getElem?_eq_some_iff.1 hc).1
  have htake : cs.take (k + 1) = cs.take k ++ [c] := by rw [List.take_add_one, hc]; rfl
  obtain ⟨l, hl⟩ := packedCodes_prefix (cs.take (k + 1)) (cs.drop (k + 1))
  rw [List.take_append_drop, htake, packedCodes_snoc, List.length_take, Nat.min_eq_left hk.le, List.append_assoc] at hl
  exact ⟨l, hl.symm⟩

end

end Sys2Proof.Machine

namespace Sys2Proof.Machine

/-- A DECOMPRESS pass over the stream of the codes `cs` has read code `k` and those before it, and has emitted what they
stand for; its table holds the entries of the adds before code `k`. -/
structure Decoded (T : Nat → ByteSeq) (cs : List Code) (k : Nat) (x : State) : Prop where
  inv : Inv x
  fsm : x.fsm = .decLoop
  codes : x.codes.toNat = k + 1
  inBits : x.inBits.toNat = streamBits (packedCodes cs)
  stream : HoldsStream x.ibuf 0 (packedCodes cs)
  rcur : x.rcur.toNat = streamBits (packedCodes (cs.take (k + 1)))
  size : x.dictSize.toNat = 256 + k
  prev : ∀ c, cs[k]? = some c → x.prev = codeSeq T c
  table : ∀ n, 256 ≤ n → n < 256 + k → seqAt x.st n = T n
  room : (decodedBytes T cs).length ≤ x.outCap.toNat
  wcur : x.wcur.toNat = 8 * (decodedBytes T (cs.take (k + 1))).length
  output : HoldsBytes x.obuf (decodedBytes T (cs.take (k + 1)))

section
variable {T : Nat → ByteSeq} {cs : List Code} {c d : Code} {k : Nat} {s t u v x : State}

theorem take_succ_of_getElem? (hc : cs[k]? = some c) : cs.take (k + 1) = cs.take k ++ [c] := by
  rw [List.take_add_one, hc]
  rfl

/-- Some of the codes stand for no more bytes than all of them. -/
theorem decodedBytes_take_length_le (T : Nat → ByteSeq) (cs : List Code) (n : Nat) :
    (decodedBytes T (cs.take n)).length ≤ (decodedBytes T cs).length := by
  have happ : decodedBytes T (cs.take n) ++ decodedBytes T (cs.drop n) = decodedBytes T cs := by
    rw [decodedBytes, decodedBytes, ← List.flatMap_append, List.take_append_drop, decodedBytes]
  rw [← happ, List.length_append]
  exact Nat.le_add_right _ _

/-- The look-ahead width of the decoder is the width at which the encoder wrote the next code, and every code that was live
then fits it (41_code_width R99, R102). -/
theorem peekWidth_schedule (h : BlockOk x) (hsize : x.dictSize.toNat = 256 + k) (hk : k < 3840) :
    (peekWidth x.dictSize x.codeWidth).toNat = streamWidth (k + 1) ∧ 257 + k ≤ 2 ^ streamWidth (k + 1) := by
  have hroom : x.dictSize.toNat < 4096 := by omega
  have hadded := (h.decAdd hroom ByteSeq.blank).toDictOk
  have hnext : (decAdd ByteSeq.blank x).dictSize.toNat = 257 + k := by
    rw [decAdd_dictSize, dictSize_add_one hroom, hsize]
    omega
  have hwidth := hadded.codeWidth_of_schedule (k := k + 1)
    (by rw [hnext, scheduleSize_of_pos k.succ_pos, Nat.succ_sub_one, Nat.mod_eq_of_lt hk])
  have hfits := hadded.fits
  rw [hnext, hwidth] at hfits
  refine ⟨?_, hfits⟩
  rw [peekWidth_eq, show resetIfFull x = x from if_neg hroom.ne, ← decAdd_codeWidth ByteSeq.blank, hwidth]

/-- The next code decodes to the sequence it stood for in the encoder, KwKwK included (45_decoder R135, R136). -/
theorem Decoded.decodesTo (h : Decoded T cs k x) (hT : CodesOf T cs) (hc : cs[k]? = some c) (hd : cs[k + 1]? = some d) :
    DecodesTo (decRead x) d (codeSeq T d) := by
  have hlive := hT.live _ _ hd
  have hsize : (decRead x).dictSize.toNat = 256 + k := h.size
  by_cases hroot : d.toNat < 256
  · exact .inl ⟨hroot, codeSeq_root hroot⟩
  · have hge := Nat.le_of_not_lt hroot
    by_cases hold : d.toNat < 256 + k
    · exact .inr (.inl ⟨hge, by rwa [hsize], (codeSeq_entry hge).trans (h.table _ hge hold).symm⟩)
    · have hnew : d.toNat = 256 + k := by omega
      have hprev : (decRead x).prev = codeSeq T c := h.prev c hc
      exact .inr (.inr ⟨hnew.trans hsize.symm, by rw [hprev]; exact hT.kwKwK hc hd hnew⟩)

section
variable (h : Decoded T cs k x) (hT : CodesOf T cs) (hfew : cs.length ≤ 3841) (hd : cs[k + 1]? = some d)
include h hfew hd

/-- The dictionary is not full before the next code. -/
theorem Decoded.ready : decReady x = decRead x := by
  have hk := (List.getElem?_eq_some_iff.1 hd).1
  have hsize : (decRead x).dictSize.toNat = 256 + k := h.size
  exact if_neg (by rw [hsize]; unfold Config.capacity; omega)

include hT

/-- The decoder reads the next code from the stream. -/
theorem Decoded.read : (peekWidth x.dictSize x.codeWidth).toNat ≤ x.inBits.toNat - x.rcur.toNat ∧
    brRead (peekWidth x.dictSize x.codeWidth).toNat x
      = .done d { x with rcur := x.rcur + BitVec.ofNat 32 (peekWidth x.dictSize x.codeWidth).toNat } ∧
    (decRead x).rcur.toNat = streamBits (packedCodes (cs.take (k + 2))) := by
  have hk := (List.getElem?_eq_some_iff.1 hd).1
  obtain ⟨hwidth, hfits⟩ := peekWidth_schedule h.inv.block h.size (by omega)
  have hlive := hT.live _ _ hd
  obtain ⟨l, hl⟩ := packedCodes_split hd
  have htotal := congrArg streamBits hl
  rw [streamBits_append, streamBits_cons, ← h.inBits, ← h.rcur] at htotal
  have hrest := h.stream
  rw [hl] at hrest
  have hrest := hrest.drop
  rw [Nat.zero_add, ← h.rcur, ← hwidth] at hrest
  have hleft : (peekWidth x.dictSize x.codeWidth).toNat ≤ x.inBits.toNat - x.rcur.toNat := by omega
  obtain ⟨hread, hrcur⟩ := hrest.brRead (by rw [hwidth]; omega) (h.inv.dec (.inr h.fsm)).inBits_le hleft
  refine ⟨hleft, hread, hrcur.trans ?_⟩
  rw [take_succ_of_getElem? hd, packedCodes_snoc, streamBits_append, ← h.rcur, List.length_take,
    Nat.min_eq_left hk.le, hwidth]
  rfl

omit hfew hT in
/-- The next sequence follows the bytes emitted, within the room for all of them. -/
theorem Decoded.next_bytes :
    decodedBytes T (cs.take (k + 2)) = decodedBytes T (cs.take (k + 1)) ++ (codeSeq T d).toList ∧
      x.wcur.toNat / 8 + (codeSeq T d).length ≤ x.outCap.toNat := by
  have hbytes : decodedBytes T (cs.take (k + 2)) = decodedBytes T (cs.take (k + 1)) ++ (codeSeq T d).toList := by
    rw [take_succ_of_getElem? hd, decodedBytes_snoc]
  have hend := (decodedBytes_take_length_le T cs (k + 2)).trans h.room
  rw [hbytes, List.length_append, ByteSeq.length_toList] at hend
  have hwcur := h.wcur
  exact ⟨hbytes, by omega⟩

/-- The next code's sequence emitted and its entry added. -/
theorem Decoded.added {m : Memory} (hput : BytesPut x.obuf m (x.wcur.toNat / 8) (codeSeq T d).toList)
    (hinv : Inv (decAdded (decRead x) (codeSeq T d) m)) :
    Decoded T cs (k + 1) (decAdded (decRead x) (codeSeq T d) m) := by
  have hk := (List.getElem?_eq_some_iff.1 hd).1
  obtain ⟨c, hc⟩ : ∃ c, cs[k]? = some c := ⟨_, List.getElem?_eq_getElem (Nat.lt_of_succ_lt hk)⟩
  obtain ⟨-, -, hrcur⟩ := h.read hT hfew hd
  obtain ⟨hbytes, hfit⟩ := h.next_bytes hd
  have hwcur := h.wcur
  have hsize := h.size
  exact
    { inv := hinv
      fsm := by simpa [decAdded, decRead] using h.fsm
      codes := by
        have hcount := h.codes
        simp only [decAdded, cwsOnAdd_codes, decRead]
        rw [word_add_one (by omega), hcount]
      inBits := by simpa [decAdded, decRead] using h.inBits
      stream := by simpa [decAdded, decRead] using h.stream
      rcur := by simpa [decAdded] using hrcur
      size := (dictSize_add_one (by rw [show (decRead x).dictSize.toNat = 256 + k from hsize]; omega)).trans
        (congrArg (· + 1) hsize)
      prev := fun c' hc' => by rw [hd] at hc'; cases hc'; rfl
      table := fun n hge hlt => by
        have hst : (decAdded (decRead x) (codeSeq T d) m).st
            = setSeq x.st (256 + k) (x.prev.snoc (codeSeq T d).head) := by rw [← hsize]; rfl
        rw [hst, seqAt_setSeq h.inv.tables.st_wf]
        split
        case isTrue hn => rw [hn, hT.added k c d hc hd, h.prev c hc]
        case isFalse hn => exact h.table n hge (by omega)
      room := by simpa [decAdded, decRead] using h.room
      wcur := by
        have hcap := (h.inv.dec (.inr h.fsm)).outCap_le
        obtain ⟨-, -, -, -, hobuf⟩ := h.inv.params
        rw [hbytes, List.length_append, ByteSeq.length_toList, Nat.mul_add, ← hwcur]
        show (x.wcur + BitVec.ofNat 32 (8 * (codeSeq T d).length)).toNat = _
        rw [BitVec.toNat_add, BitVec.toNat_ofNat]
        omega
      output := by
        rw [hbytes]
        exact h.output.put (by rwa [hwcur, Nat.mul_div_cancel_left _ (by decide)] at hput) }

/-- One turn of DEC_LOOP decodes the next code. -/
theorem Decoded.turn : ∃ y, engineTurn x = .next y ∧ Decoded T cs (k + 1) y := by
  have hk := (List.getElem?_eq_some_iff.1 hd).1
  obtain ⟨c, hc⟩ : ∃ c, cs[k]? = some c := ⟨_, List.getElem?_eq_getElem (Nat.lt_of_succ_lt hk)⟩
  obtain ⟨hleft, hread, -⟩ := h.read hT hfew hd
  obtain ⟨-, hfit⟩ := h.next_bytes hd
  have hready := h.ready hfew hd
  have hseq := h.decodesTo hT hc hd
  have hlong := hT.length_le hc
  rw [← h.prev c hc] at hlong
  rw [← hready] at hseq
  obtain ⟨m, hput, hturn⟩ := h.inv.decLoop_done h.fsm hleft hread hseq (by omega) hfit
  rw [hready] at hturn
  exact ⟨_, hturn, h.added hT hfew hd hput (engineTurn_keeps_inv h.inv hturn)⟩

end

/-- With all codes read the next turn completes the pass. -/
theorem Decoded.complete (h : Decoded T cs k x) (hlast : k + 1 = cs.length) :
    ∃ y, engineTurn x = .next y ∧ y.status = statusDone ∧ y.outLen.toNat = (decodedBytes T cs).length ∧
      y.codes.toNat = cs.length ∧ y.rcur = y.inBits ∧ HoldsBytes y.obuf (decodedBytes T cs) := by
  obtain ⟨hx, hf, hcodes, hbits, -, hrcur, -, -, -, hroom, hwcur, hout⟩ := h
  rw [hlast, List.take_length] at hrcur hwcur hout
  have hend : x.rcur = x.inBits := BitVec.eq_of_toNat_eq (hrcur.trans hbits.symm)
  refine ⟨_, hx.decLoop_end hf hend, rfl, ?_, hcodes.trans hlast, hend, hout⟩
  have hword := x.outCap.isLt
  rw [BitVec.toNat_ofNat]
  omega

/-- The turn of DEC_FIRST reads the first code. -/
theorem decoded_first (h : Inv x) (hf : x.fsm = .decFirst) (hT : CodesOf T cs) (hc : cs[0]? = some c)
    (hbits : x.inBits.toNat = streamBits (packedCodes cs)) (hstream : HoldsStream x.ibuf 0 (packedCodes cs))
    (hroom : (decodedBytes T cs).length ≤ x.outCap.toNat) : ∃ y, engineTurn x = .next y ∧ Decoded T cs 0 y := by
  obtain ⟨hsize, -, hrcur, -⟩ := h.decFirst hf
  obtain ⟨l, hl⟩ := packedCodes_split hc
  have hone : cs.take 1 = [c] := take_succ_of_getElem? hc
  have hroot : c.toNat < 256 := hT.live 0 c hc
  have hlong : 8 ≤ x.inBits.toNat := by
    rw [hbits, hl, streamBits_append, streamBits_cons]
    exact (Nat.le_add_right 8 _).trans (Nat.le_add_left _ _)
  have hbytes : decodedBytes T (cs.take 1) = [c.extractLsb' 0 8] := by
    rw [hone]
    exact (decodedBytes_snoc T [] c).trans (by rw [codeSeq_root hroot]; rfl)
  have hcap : x.outCap ≠ 0#32 := fun e => by
    have hle := (decodedBytes_take_length_le T cs 1).trans hroom
    rw [hbytes, e] at hle
    simp at hle
  have hbyte : x.ibuf.read 0 = c.extractLsb' 0 8 := by
    obtain ⟨c', hc', hread'⟩ := h.decFirst_read hf hlong
    have hstart : x.rcur.toNat = 0 := by rw [hrcur]; rfl
    have hhead : packedCodes cs = (c, Config.initWidth) :: l := hl
    obtain ⟨hread, -⟩ := HoldsStream.brRead (s := x) (w := Config.initWidth) (by rw [hstart, ← hhead]; exact hstream)
      hroot (h.dec (.inl hf)).inBits_le (by rw [hstart]; exact hlong)
    obtain ⟨rfl, -⟩ := Flow.done.inj (hread'.symm.trans hread)
    exact hc'.symm
  have hturn := h.decFirst_done hf hlong hcap
  exact ⟨_, hturn,
    { inv := engineTurn_keeps_inv h hturn
      fsm := rfl
      codes := rfl
      inBits := hbits
      stream := hstream
      rcur := by rw [hone]; rfl
      size := congrArg BitVec.toNat hsize
      prev := fun c' hc' => by
        rw [hc] at hc'
        cases hc'
        rw [codeSeq_root hroot, ← hbyte]
        rfl
      table := fun n hge hlt => absurd hlt (Nat.not_lt.2 hge)
      room := hroom
      wcur := by rw [hbytes]; rfl
      output := by
        rw [hbytes, ← hbyte]
        exact (HoldsBytes.nil _).snoc (Memory.read_write_same h.tables.obuf_wf 0 _) }⟩

/-- The decoder reads all codes, one a turn, by induction on them. -/
theorem decoded_run (h : Inv t) (hf : t.fsm = .decFirst) (hT : CodesOf T cs) (hfew : cs.length ≤ 3841)
    (hbits : t.inBits.toNat = streamBits (packedCodes cs)) (hstream : HoldsStream t.ibuf 0 (packedCodes cs))
    (hroom : (decodedBytes T cs).length ≤ t.outCap.toNat) (hk : k < cs.length) :
    ∃ x, engineRun (k + 1) t = some x ∧ Decoded T cs k x := by
  induction k with
  | zero =>
    obtain ⟨x, hturn, hx⟩ := decoded_first h hf hT (List.getElem?_eq_getElem hk) hbits hstream hroom
    exact ⟨x, engineRun_succ_last rfl hturn, hx⟩
  | succ k ih =>
    obtain ⟨x, hrun, hx⟩ := ih (Nat.lt_of_succ_lt hk)
    obtain ⟨y, hturn, hy⟩ := hx.turn hT hfew (List.getElem?_eq_getElem hk)
    exact ⟨y, engineRun_succ_last hrun hturn, hy⟩

end

/-- Settles O47: the pass parses its input into codes, which the decoder reads back one by one. -/
theorem roundTripWithoutCapacityReset : Obligations.RoundTripWithoutCapacityReset := by
  intro s t u v h hb hne hexec hrun hdone hresets hv hvb hin hincap hcopy hroom hout
  obtain ⟨T, cs, hcs⟩ := h.codesWritten hb hne hexec hrun hdone hresets
  have hpos := List.length_pos_iff.2 hcs.nonempty
  have hbits : v.inBits.toNat = streamBits (packedCodes cs) := by rw [hin, hcs.bits]
  have hstream : HoldsStream v.ibuf 0 (packedCodes cs) :=
    hcs.stream.copy (by rw [← hcs.bits, ← hcs.bytes]; exact hcopy)
  have hnonzero : v.inBits ≠ 0#32 := fun e => by
    obtain ⟨l, hl⟩ := packedCodes_split (List.getElem?_eq_getElem hpos)
    rw [e, hl, streamBits_append, streamBits_cons] at hbits
    simp [streamWidth] at hbits
    omega
  have hstart := exec_decompress_start hvb (by rw [hin]; exact hincap) hout hnonzero
  obtain ⟨x, hread, hx⟩ := decoded_run (t := decStart v) (k := cs.length - 1) (exec_keeps hv hstart) rfl hcs.codes
    hcs.few hbits hstream (by rw [hcs.length]; exact hroom) (by omega)
  obtain ⟨y, hturn, hydone, hlen, hcount, hrcur, hbytes⟩ := hx.complete (Nat.sub_add_cancel hpos)
  rw [Nat.sub_add_cancel hpos, ← hcs.count] at hread
  refine ⟨_, y, hstart, engineRun_succ_last hread hturn, hydone, BitVec.eq_of_toNat_eq (hlen.trans hcs.length),
    BitVec.eq_of_toNat_eq (hcount.trans hcs.count.symm), hrcur, fun a ha => ?_⟩
  exact hbytes.agree hcs.input (by rw [hcs.length]; exact ha)

end Sys2Proof.Machine

namespace Sys2Proof.Machine

/-! ### No rule of the engine reads or writes the host's side of the state

The fields `inputs` and `readData` are the host's (logs 1 and 6). Each operation of an engine step commutes with a change
of both, so a turn of the engine is a function of the block's own state. -/

/-- `s` with the host's side replaced: the order of what is to happen, and what the last read returned. -/
def withHost (l : List Input) (d : Word) (s : State) : State := { s with inputs := l, readData := d }

/-- The end of a rule, with `g` applied to the state in which it ends. -/
def Flow.mapState {α : Type} (g : State → State) : Flow α → Flow α
  | .done a s => .done a (g s)
  | .raised e s => .raised e (g s)
  | .stuck f => .stuck f

section
variable {α β : Type} {g : State → State} {x x' y y' : Flow α}

/-- A sequence commutes with `g` when both of its parts do. -/
theorem Flow.bind_mapState {k : α → State → Flow β} (hx : x' = x.mapState g)
    (hk : ∀ a t, k a (g t) = (k a t).mapState g) : x'.bind k = (x.bind k).mapState g := by
  subst hx
  cases x with
  | done a t => exact hk a t
  | raised e t => rfl
  | stuck f => rfl

/-- A choice whose condition does not depend on `g` commutes with it when both branches do. -/
theorem Flow.ite_mapState {c : Prop} [Decidable c] (hx : x' = x.mapState g) (hy : y' = y.mapState g) :
    (if c then x' else y') = (if c then x else y).mapState g := by
  split
  · exact hx
  · exact hy

end

section
variable (l : List Input) (d : Word) (s : State)

/-! ### The shared operations -/

theorem ibufRead_withHost (a : Nat) : ibufRead a (withHost l d s) = (ibufRead a s).mapState (withHost l d) :=
  Flow.ite_mapState rfl rfl

theorem obufRead_withHost (a : Nat) : obufRead a (withHost l d s) = (obufRead a s).mapState (withHost l d) :=
  Flow.ite_mapState rfl rfl

theorem obufWrite_withHost (a : Nat) (v : Byte) :
    obufWrite a v (withHost l d s) = (obufWrite a v s).mapState (withHost l d) :=
  Flow.ite_mapState rfl rfl

theorem bwPutBit_withHost (v : Bool) : bwPutBit v (withHost l d s) = (bwPutBit v s).mapState (withHost l d) :=
  Flow.bind_mapState (obufRead_withHost l d s _) fun _ t =>
    Flow.bind_mapState (obufWrite_withHost l d t _ _) fun _ _ => rfl

theorem bwPutBits_withHost (code : Code) (n : Nat) :
    bwPutBits code n (withHost l d s) = (bwPutBits code n s).mapState (withHost l d) := by
  induction n generalizing s with
  | zero => rfl
  | succ n ih => exact Flow.bind_mapState (bwPutBit_withHost l d s _) fun _ t => ih t

theorem bwWrite_withHost (code : Code) (w : Nat) :
    bwWrite code w (withHost l d s) = (bwWrite code w s).mapState (withHost l d) :=
  Flow.ite_mapState rfl (bwPutBits_withHost l d s code w)

theorem bwFinish_withHost : bwFinish (withHost l d s) = (bwFinish s).mapState (withHost l d) :=
  Flow.ite_mapState rfl
    (Flow.bind_mapState (obufRead_withHost l d s _) fun _ t =>
      Flow.bind_mapState (obufWrite_withHost l d t _ _) fun _ _ => rfl)

theorem brGetBits_withHost (n : Nat) (v : Code) :
    brGetBits n v (withHost l d s) = (brGetBits n v s).mapState (withHost l d) := by
  induction n generalizing v s with
  | zero => rfl
  | succ n ih => exact Flow.bind_mapState (ibufRead_withHost l d s _) fun _ t => ih { t with rcur := t.rcur + 1#32 } _

theorem brRead_withHost (w : Nat) : brRead w (withHost l d s) = (brRead w s).mapState (withHost l d) :=
  Flow.ite_mapState rfl (brGetBits_withHost l d s w _)

theorem cwsOnAdd_withHost : cwsOnAdd (withHost l d s) = withHost l d (cwsOnAdd s) := by
  unfold cwsOnAdd
  rw [apply_ite (withHost l d)]
  rfl

theorem resetIfFull_withHost : resetIfFull (withHost l d s) = withHost l d (resetIfFull s) := by
  unfold resetIfFull
  rw [apply_ite (withHost l d)]
  rfl

theorem dictFind_withHost (p : Code) (e : Byte) :
    dictFind p e (withHost l d s) = (dictFind p e s).mapState (withHost l d) := by
  have hht : (withHost l d s).ht = s.ht := rfl
  refine Flow.ite_mapState rfl ?_
  rw [hht]
  cases probeFind s.ht p e (hashH2 p e) Config.hashSlots (hashH1 p e) 0 <;> rfl

theorem dictInsert_withHost (p : Code) (e : Byte) :
    dictInsert p e (withHost l d s) = (dictInsert p e s).mapState (withHost l d) := by
  have hht : (withHost l d s).ht = s.ht := rfl
  unfold dictInsert
  rw [hht]
  cases probeFree s.ht (hashH2 p e) Config.hashSlots (hashH1 p e) 0 <;> rfl

theorem dictAdd_withHost (p : Code) (e : Byte) :
    dictAdd p e (withHost l d s) = (dictAdd p e s).mapState (withHost l d) := by
  unfold dictAdd
  rw [resetIfFull_withHost, cwsOnAdd_withHost, dictInsert_withHost]

theorem decLookup_withHost (c : Code) : decLookup c (withHost l d s) = (decLookup c s).mapState (withHost l d) :=
  Flow.ite_mapState rfl (Flow.ite_mapState rfl (Flow.ite_mapState rfl rfl))

theorem decPutBytes_withHost (q : List Byte) :
    decPutBytes q (withHost l d s) = (decPutBytes q s).mapState (withHost l d) := by
  induction q generalizing s with
  | nil => rfl
  | cons b q ih => exact Flow.bind_mapState (obufWrite_withHost l d s _ b) fun _ t => ih { t with wcur := t.wcur + 8#32 }

theorem decEmit_withHost (q : ByteSeq) : decEmit q (withHost l d s) = (decEmit q s).mapState (withHost l d) :=
  Flow.ite_mapState rfl (decPutBytes_withHost l d s q.toList)

theorem decAdd_withHost (q : ByteSeq) : decAdd q (withHost l d s) = withHost l d (decAdd q s) := by
  unfold decAdd
  rw [cwsOnAdd_withHost]
  rfl

/-! ### The rules of the engine (46_control R150) -/

theorem encMiss_withHost (e : Byte) : encMiss e (withHost l d s) = (encMiss e s).mapState (withHost l d) :=
  Flow.bind_mapState (bwWrite_withHost l d s _ _) fun _ t =>
    Flow.bind_mapState (dictAdd_withHost l d { t with codes := t.codes + 1#32 } _ e) fun _ _ => rfl

theorem encMatchRule_withHost : encMatchRule (withHost l d s) = (encMatchRule s).mapState (withHost l d) :=
  Flow.ite_mapState
    (Flow.bind_mapState (ibufRead_withHost l d s _) fun e t =>
      Flow.bind_mapState (dictFind_withHost l d t _ e) fun _ u =>
        Flow.bind_mapState (Flow.ite_mapState rfl (encMiss_withHost l d u e)) fun _ _ => rfl)
    rfl

theorem encFlushRule_withHost : encFlushRule (withHost l d s) = (encFlushRule s).mapState (withHost l d) :=
  Flow.bind_mapState (bwWrite_withHost l d s _ _) fun _ t =>
    Flow.bind_mapState (bwFinish_withHost l d { t with codes := t.codes + 1#32 }) fun _ _ => rfl

theorem decFirstRule_withHost : decFirstRule (withHost l d s) = (decFirstRule s).mapState (withHost l d) :=
  Flow.bind_mapState (brRead_withHost l d s _) fun _ t =>
    Flow.bind_mapState (decEmit_withHost l d { t with codes := 1#32 } _) fun _ _ => rfl

theorem decCode_withHost (c : Code) : decCode c (withHost l d s) = (decCode c s).mapState (withHost l d) := by
  unfold decCode
  rw [resetIfFull_withHost]
  exact Flow.bind_mapState (decLookup_withHost l d _ c) fun q t =>
    Flow.ite_mapState rfl
      (Flow.bind_mapState (decEmit_withHost l d t q) fun _ u =>
        congrArg (fun v => Flow.done () (setPrev q v)) (decAdd_withHost l d u _))

theorem decLoopRule_withHost : decLoopRule (withHost l d s) = (decLoopRule s).mapState (withHost l d) :=
  Flow.ite_mapState rfl
    (Flow.bind_mapState (brRead_withHost l d s _) fun c t => decCode_withHost l d { t with codes := t.codes + 1#32 } c)

theorem engineRule_withHost (f : Fsm) : engineRule f (withHost l d s) = (engineRule f s).mapState (withHost l d) := by
  cases f with
  | idle => rfl
  | encMatch => exact encMatchRule_withHost l d s
  | encFlush => exact encFlushRule_withHost l d s
  | decFirst => exact decFirstRule_withHost l d s
  | decLoop => exact decLoopRule_withHost l d s

end

/-! ### What BUSY = 1 leaves of a step (46_control R151, R152) -/

section
variable {s t u : State}

/-- An engine turn does the same whatever the host's side holds, and leaves it as it is. -/
theorem engineTurn_withHost (h : engineTurn s = .next t) (l : List Input) (d : Word) :
    engineTurn (withHost l d s) = .next (withHost l d t) := by
  cases hb : s.status.busy with
  | false =>
    rw [engineTurn_idle hb] at h
    cases h
    exact engineTurn_idle hb
  | true =>
    have hrule := engineRule_withHost l d s s.fsm
    rw [engineTurn_eq hb] at h
    rw [engineTurn_eq (s := withHost l d s) hb]
    rcases runStep_next h with hdone | ⟨e, v, hraised, rfl⟩
    · rw [hdone] at hrule; exact runStep_done hrule
    · rw [hraised] at hrule; exact runStep_raised hrule

theorem engineTurn_quiet (h : engineTurn s = .next t) : engineTurn (quiet s) = .next (quiet t) :=
  engineTurn_withHost h [] 0#32

theorem engineTurn_inputs (h : engineTurn s = .next t) : t.inputs = s.inputs := by
  have hsame : withHost s.inputs s.readData t = t :=
    Host.Outcome.next.inj ((engineTurn_withHost h s.inputs s.readData).symm.trans h)
  exact (congrArg State.inputs hsame).symm

/-- A command issued while BUSY = 1 is ignored (46_control R152). -/
theorem exec_busy (hb : s.status.busy = true) (i : Instr) : exec i s = .next s := by rw [exec_eq, runCommand_busy hb]

/-- While BUSY = 1 a host access changes nothing but what the last read returned (46_control R152). -/
theorem hostAccess_busy {a : HostAccess} (hb : s.status.busy = true) (h : hostAccess a s = .next t) :
    ∃ d, t = { s with readData := d } := by
  rcases hostAccess_next h with ⟨v, -, hv⟩ | he
  · rcases issue_next hv with ⟨i, -, hi⟩ | hi
    · rw [exec_busy hb] at hi; cases hi; exact ⟨_, rfl⟩
    · rw [illegalCommand, runCommand_busy hb] at hi; cases hi; exact ⟨_, rfl⟩
  · cases he with
    | read d => exact ⟨d, rfl⟩
    | sizes hfree => rw [hb] at hfree; cases hfree
    | ibuf a v => exact ⟨s.readData, by simp [hostStore, hb]⟩
    | obuf a v => exact ⟨s.readData, by simp [hostStore, hb]⟩

/-- With no entry left a step is an engine turn (log 1). -/
theorem step_nil (h : s.inputs = []) : step s = engineTurn s := by simp only [step, h]

/-- With no hardware reset to come, a step while BUSY = 1 leaves the block as it is or is a turn of the engine. -/
theorem step_busy (hb : s.status.busy = true) (hnr : noReset s.inputs) (h : step s = .next t) :
    noReset t.inputs ∧ (quiet t = quiet s ∨ engineTurn (quiet s) = .next (quiet t)) := by
  cases hi : s.inputs with
  | nil =>
    have hturn : engineTurn s = .next t := (step_nil hi).symm.trans h
    exact ⟨engineTurn_inputs hturn ▸ hnr, .inr (engineTurn_quiet hturn)⟩
  | cons x rest =>
    rw [hi] at hnr
    rw [step_cons hi] at h
    have hrest : noReset rest := fun d hd => hnr d (List.mem_cons_of_mem _ hd)
    cases x with
    | access a =>
      obtain ⟨d, rfl⟩ := hostAccess_busy (s := { s with inputs := rest }) hb h
      exact ⟨hrest, .inl rfl⟩
    | engine =>
      have hkept : t.inputs = rest := engineTurn_inputs h
      exact ⟨hkept ▸ hrest, .inr (engineTurn_quiet (s := { s with inputs := rest }) h)⟩
    | reset d => exact absurd List.mem_cons_self (hnr d)

theorem passEnd_idle (hb : s.status.busy = false) (k : Nat) : passEnd k s = some (quiet s) := by
  cases k <;> simp [passEnd, hb]

theorem passEnd_succ_busy {k : Nat} (hb : s.status.busy = true) :
    passEnd (k + 1) s = some u ↔ ∃ t, step s = .next t ∧ passEnd k t = some u := by
  rw [passEnd, if_pos hb]
  cases step s <;> simp

/-- The state in which a pass ends is one that turns of the engine alone reach, and the engine is idle in it. -/
theorem passEnd_engineRun {k : Nat} (hnr : noReset s.inputs) (h : passEnd k s = some u) :
    u.status.busy = false ∧ ∃ n, engineRun n (quiet s) = some u := by
  induction k generalizing s with
  | zero =>
    cases hb : s.status.busy with
    | false => rw [passEnd_idle hb] at h; cases h; exact ⟨hb, 0, rfl⟩
    | true => simp [passEnd, hb] at h
  | succ k ih =>
    cases hb : s.status.busy with
    | false => rw [passEnd_idle hb] at h; cases h; exact ⟨hb, 0, rfl⟩
    | true =>
      obtain ⟨t, hstep, hend⟩ := (passEnd_succ_busy hb).1 h
      obtain ⟨hrest, hsame⟩ := step_busy hb hnr hstep
      obtain ⟨hidle, n, hrun⟩ := ih hrest hend
      rcases hsame with e | hturn
      · exact ⟨hidle, n, e ▸ hrun⟩
      · exact ⟨hidle, n + 1, (engineRun_succ_of_turn hturn n).trans hrun⟩

/-- Runs of the engine from one state that both reach an idle engine reach the same state. -/
theorem engineRun_idle_unique {v : State} {m n : Nat} (hu : u.status.busy = false) (hv : v.status.busy = false)
    (hm : engineRun m s = some u) (hn : engineRun n s = some v) : u = v := by
  have hlong : engineRun (m + n) s = some u := by
    rw [engineRun_add, hm, Option.bind_some, engineRun_idle hu]
  rw [Nat.add_comm, engineRun_add, hn, Option.bind_some, engineRun_idle hv] at hlong
  exact (Option.some.inj hlong).symm

end

/-- Settles O48: a step of a pass leaves the block as it is or is a turn of the engine, whose rule sees nothing of the
host's side, so both orders end where the engine alone ends. -/
theorem passIsFunctionOfIssueState : Obligations.PassIsFunctionOfIssueState := by
  intro s u u' l l' k k' hl hl' hu hu'
  obtain ⟨hidle, m, hm⟩ := passEnd_engineRun (s := { s with inputs := l }) hl hu
  obtain ⟨hidle', n, hn⟩ := passEnd_engineRun (s := { s with inputs := l' }) hl' hu'
  exact engineRun_idle_unique hidle hidle' hm hn

/-! ### SOFT_RESET, NOP and the engine's choice of rule -/

/-- Settles O11: the rule is `softResetState`, whose hash table is `clearOcc` of the old one. -/
theorem softResetResetsRegisters : Obligations.SoftResetResetsRegisters := by
  refine ⟨rfl, fun s hb => exec_busy hb .softReset, fun s hb hw =>
    ⟨clearOcc s.ht, ?_, fun i => slotAt_clearOcc s.ht i hw⟩⟩
  have hstatus : (softResetState (clearFlags s)).status = (clearFlags s).status := by rw [clearFlags_status, hb]; rfl
  exact exec_done hb rfl hstatus

/-- Settles O7: an engine turn runs `engineRule` of the FSM state, and a step is one when the order says so or is empty. -/
theorem engineRunsRuleOfState : Obligations.EngineRunsRuleOfState := fun s =>
  ⟨step_nil, fun _ hcons => step_cons hcons, engineTurn_idle, fun hb =>
    ⟨engineTurn_encMatch hb, engineTurn_encFlush hb, fun hf => by rw [engineTurn_eq hb, hf]; rfl, engineTurn_decLoop hb⟩⟩

/-- Settles O10: the rule of NOP changes nothing, so only the issue protocol writes STATUS. -/
theorem nopOnlySetsDone : Obligations.NopOnlySetsDone :=
  ⟨rfl, rfl, fun s hb => exec_done (t := clearFlags s) hb rfl rfl⟩

end Sys2Proof.Machine

namespace Sys2Proof.Machine

/-! ### The error stop (60_exceptions R162) -/

/-- The error stop is one assignment to STATUS and FSM (60_exceptions R162). -/
theorem errorStop_eq (e : ErrCode) (s : State) :
    errorStop e s = { s with status := statusError e, fsm := .idle } := rfl

/-- Settles O8: an engine step and an issue both answer a raised error with `errorStop`. -/
theorem errorStopKeepsOtherState : Obligations.ErrorStopKeepsOtherState := by
  intro rule s t e
  rw [← errorStop_eq]
  exact ⟨runStep_raised, runCommand_raised⟩

end Sys2Proof.Machine

namespace Sys2Proof.Machine

/-! ### Host writes while BUSY = 1 (46_control R152, 70_reset_and_hazards R179) -/

section
variable {s : State}

/-- While BUSY = 1 no word written to CMD has an effect, whether it decodes or not (46_control R152). -/
theorem issue_busy (hb : s.status.busy = true) (v : Word) : issue v s = .next s := by
  cases hd : decode v with
  | ok i => rw [issue_ok hd, exec_busy hb]
  | error e => rw [issue_error hd, illegalCommand, runCommand_busy hb]

@[simp] theorem hostStore_busy (m : Memory) (cap a : Nat) (v : Byte) : hostStore true m cap a v = m := by
  simp [hostStore]

theorem writeByteAt_ibuf_busy (hb : s.status.busy = true) {a : Nat} (ha : a < 2 ^ 24) (v : Byte) :
    writeByteAt (0x1000000 + a) v s = .next s := by
  simp only [writeByteAt, regionOf_ibuf ha, hb, hostStore_busy]

theorem writeByteAt_obuf_busy (hb : s.status.busy = true) {a : Nat} (ha : a < 2 ^ 24) (v : Byte) :
    writeByteAt (0x2000000 + a) v s = .next s := by
  simp only [writeByteAt, regionOf_obuf ha, hb, hostStore_busy]

end

/-- Settles O9: a command and a CMD word stop at `runCommand`, an RW register at `writeReg`, a byte at `hostStore`. -/
theorem busyIgnoresHostWrites : Obligations.BusyIgnoresHostWrites := by
  intro s hb
  have rwIgnored : ∀ {off r}, regAt off = some r → r ≠ .cmd → ∀ v,
      hostAccess (.writeWord (s.params.base + off) v) s = .next s :=
    fun hreg hne v => (hostAccess_writeReg hreg v).trans (writeReg_busy hb hne)
  refine ⟨exec_busy hb, fun v => (hostAccess_cmd v s).trans (issue_busy hb v), rwIgnored rfl nofun,
    rwIgnored rfl nofun, rwIgnored rfl nofun, fun a v ha => ?_, fun a v ha => ?_⟩
  · rw [Nat.add_assoc, hostAccess_writeByte (by omega), writeByteAt_ibuf_busy hb ha]
  · rw [Nat.add_assoc, hostAccess_writeByte (by omega), writeByteAt_obuf_busy hb ha]

/-! ### Any canonical contents can be drawn at a hardware reset (70_reset_and_hazards R175) -/

section
variable {α : Type} [DecidableEq α] {d : α} {m : List (Nat × α)}

/-- A write past the last listed index appends its entry. -/
theorem Sparse.write_past_end {a : Nat} {v : α} (hlast : ∀ c ∈ m, c.1 < a) (hv : v ≠ d) :
    Sparse.write d m a v = m ++ [(a, v)] := by
  induction m with
  | nil => simp [Sparse.write, hv]
  | cons c m ih =>
    obtain ⟨hc, hm⟩ := List.forall_mem_cons.1 hlast
    rw [Sparse.write, if_neg (Nat.lt_asymm hc), if_neg (Nat.ne_of_gt hc), ih hm, List.cons_append]

theorem Sparse.load_concat {lo hi : Nat} {c : Nat × α} (hc : lo ≤ c.1 ∧ c.1 < hi) :
    Sparse.load d lo hi (m ++ [c]) = Sparse.write d (Sparse.load d lo hi m) c.1 c.2 := by
  simp [Sparse.load, hc]

/-- Loading a canonical table whose indices lie in the range gives that table. -/
theorem Sparse.load_eq_self {lo hi : Nat} (hm : Sparse.Wf d m) (hrange : ∀ c ∈ m, lo ≤ c.1 ∧ c.1 < hi) :
    Sparse.load d lo hi m = m := by
  induction m using List.reverseRecOn with
  | nil => rfl
  | append_singleton m c ih =>
    obtain ⟨hsorted, hlisted⟩ := hm
    obtain ⟨hsorted, -, hlast⟩ := List.pairwise_append.1 hsorted
    obtain ⟨hrange, hc⟩ := List.forall_mem_append.1 hrange
    obtain ⟨hlisted, hne⟩ := List.forall_mem_append.1 hlisted
    rw [Sparse.load_concat (hc c List.mem_cons_self), ih ⟨hsorted, hlisted⟩ hrange,
      Sparse.write_past_end (fun x hx => hlast x hx c List.mem_cons_self) (hne c List.mem_cons_self)]

end

/-- Clearing `occ` changes nothing in a canonical table that lists no occupied slot. -/
theorem clearOcc_eq_self {ht : List (Nat × Slot)} (hm : Sparse.Wf Slot.blank ht) (hocc : ∀ c ∈ ht, c.2.occ = false) :
    clearOcc ht = ht := by
  have hvacated : (ht.map fun c => (c.1, c.2.vacated)) = ht :=
    (List.map_congr_left fun c hc => by simp [Slot.vacated, ← hocc c hc]).trans (List.map_id ht)
  rw [clearOcc, hvacated, List.filter_eq_self]
  exact fun c hc => decide_eq_true (hm.2 c hc)

/-- Settles O13: the reset entry that draws exactly the given contents, since `Sparse.load` and `clearOcc` keep them. -/
theorem hardwareResetDrawsAnyContents : Obligations.HardwareResetDrawsAnyContents := by
  intro s ibuf obuf ht st prev hiwf hibelow howf hobelow hhwf hhrange hswf hsrange
  have hht : Sparse.load Slot.blank 0 Config.hashSlots ht = ht :=
    Sparse.load_eq_self hhwf fun c hc => ⟨Nat.zero_le _, (hhrange c hc).1⟩
  refine ⟨{ ibuf, obuf, ht, st, prev }, _, rfl, ?_, ?_, ?_, ?_, rfl⟩
  · exact Sparse.load_eq_self hiwf fun c hc => ⟨Nat.zero_le _, hibelow c hc⟩
  · exact Sparse.load_eq_self howf fun c hc => ⟨Nat.zero_le _, hobelow c hc⟩
  · exact (congrArg clearOcc hht).trans (clearOcc_eq_self hhwf fun c hc => (hhrange c hc).2)
  · exact Sparse.load_eq_self hswf hsrange

/-! ### The values after reset (70_reset_and_hazards R175, 10_state R21) -/

/-- Settles O12: the step makes the reset entry, whose state is `State.reset` but for the drawn contents, the parameters
and the order of accesses, and `clearOcc` leaves no slot occupied. -/
theorem hardwareResetSetsRegisters : Obligations.HardwareResetSetsRegisters := by
  intro s d rest h
  exact ⟨hardReset d { s with inputs := rest }, step_cons h, (rfl : Status.reset.toWord = 0#32),
    rfl, rfl, rfl, rfl, rfl, rfl, rfl, rfl, rfl, rfl, rfl, rfl, rfl, rfl, rfl, rfl, rfl, rfl,
    clearOcc_occ _, rfl, rfl⟩

/-- Settles O14: each register by its value in `State.reset`, and a slot of the empty table reads as `Slot.blank`. -/
theorem resetStateHasSpecValues : Obligations.ResetStateHasSpecValues :=
  ⟨rfl, rfl, rfl, rfl, rfl, rfl, rfl, rfl, rfl, rfl, rfl, rfl, rfl, rfl, rfl, rfl, rfl, rfl, fun _ => rfl⟩

/-- `State.reset` lists nothing in any table, so its tables fit every choice of the parameters. -/
theorem tablesOk_reset (p : Params) : TablesOk { State.reset with params := p } where
  ibuf_wf := Sparse.wf_nil _
  ibuf_below := nofun
  obuf_wf := Sparse.wf_nil _
  obuf_below := nofun
  ht_wf := Sparse.wf_nil _
  ht_below := nofun
  st_wf := Sparse.wf_nil _
  st_range := nofun

/-- SOFT_RESET in `State.reset` leaves `State.reset`. -/
theorem softResetState_reset (p : Params) :
    softResetState { State.reset with params := p } = { State.reset with params := p } := rfl

theorem inv_reset {p : Params} (hp : p.Legal) : Inv { State.reset with params := p } :=
  .of_idle (softResetState_reset p ▸ (tablesOk_reset p).softReset hp) (by decide : Status.reset.Legal) rfl rfl

/-- Settles O49: the parameters of `State.reset` are one legal choice. -/
theorem resetMeetsInv : Obligations.ResetMeetsInv :=
  ⟨inv_reset (by decide : Config.resetParams.Legal), fun _ => inv_reset⟩

end Sys2Proof.Machine
